-- ==== Sys2Proof/Word.lean ====
section
/-! DEFINITION. Bytes and words (00_scope.md R10): an 8-bit and a 16-bit unsigned quantity, bit 0 the
least significant. `a + b`, `a - b` on them wrap modulo 256 and 65536. -/

namespace Sys2Proof

/-- A byte, an unsigned integer in 0..255 (R10). -/
abbrev Byte := BitVec 8

/-- A word, an unsigned integer in 0..65535; an address is a word (R10, R60). -/
abbrev Word := BitVec 16

end Sys2Proof
end

