-- ==== Sys2Proof/Syntax.lean ====
section
/-! DEFINITION. The instructions: one constructor per mnemonic of spec/opcode_table.json (JMP has one per operation,
R300 and R301), whose operand carries the row's addressing mode (log 21). -/

namespace Sys2Proof

/-- The addressing modes with an effective address (40_addressing_modes.md R163 to R169). -/
inductive MemMode where
  | zp | zpx | zpy | abs | abx | aby | izx | izy
  deriving DecidableEq, Repr

/-- A memory operand: its mode and its parameter bytes, assembled as in R126. -/
inductive MemOperand where
  /-- Zero-page, `$nn` (R163). -/
  | zp (a : Byte)
  /-- Zero-page-X, `$nn,X` (R164). -/
  | zpx (a : Byte)
  /-- Zero-page-Y, `$nn,Y` (R165). -/
  | zpy (a : Byte)
  /-- Absolute, `$nnnn` (R166). -/
  | abs (w : Word)
  /-- Absolute-X, `$nnnn,X` (R167). -/
  | abx (w : Word)
  /-- Absolute-Y, `$nnnn,Y` (R167). -/
  | aby (w : Word)
  /-- Indexed indirect, `($nn,X)` (R168). -/
  | izx (a : Byte)
  /-- Indirect indexed, `($nn),Y` (R169). -/
  | izy (a : Byte)
  deriving DecidableEq, Repr

/-- The mode of a memory operand. -/
def MemOperand.mode : MemOperand → MemMode
  | .zp _ => .zp | .zpx _ => .zpx | .zpy _ => .zpy
  | .abs _ => .abs | .abx _ => .abx | .aby _ => .aby
  | .izx _ => .izx | .izy _ => .izy

/-- The operand of a read-class instruction (R173): an immediate (R162) or a memory operand. -/
inductive Operand where
  | imm (v : Byte)
  | mem (m : MemOperand)
  deriving DecidableEq, Repr

/-- The operand of a shift or rotate: the accumulator (R161) or a memory operand. -/
inductive ShiftOperand where
  | acc
  | mem (m : MemOperand)
  deriving DecidableEq, Repr

/-- The instructions. A bound instruction is a template with its operand bytes (R120); here both are in the term. -/
inductive Instr where
  -- 41_load_store_transfer.md
  | lda (o : Operand) | ldx (o : Operand) | ldy (o : Operand)
  | sta (m : MemOperand) | stx (m : MemOperand) | sty (m : MemOperand)
  | tax | tay | txa | tya | tsx | txs
  -- 42_logic_arith_compare.md
  | and (o : Operand) | ora (o : Operand) | eor (o : Operand) | bit (m : MemOperand)
  | adc (o : Operand) | sbc (o : Operand)
  | cmp (o : Operand) | cpx (o : Operand) | cpy (o : Operand)
  -- 43_shift_rmw.md
  | asl (o : ShiftOperand) | lsr (o : ShiftOperand) | rol (o : ShiftOperand) | ror (o : ShiftOperand)
  | inc (m : MemOperand) | dec (m : MemOperand)
  | inx | iny | dex | dey
  -- 44_stack_flags.md
  | pha | php | pla | plp
  | clc | sec | cli | sei | cld | sed | clv
  -- 45_control_transfer.md
  | jmpAbs (target : Word) | jmpInd (ptr : Word) | jsr (target : Word) | rts
  | bpl (off : Byte) | bmi (off : Byte) | bvc (off : Byte) | bvs (off : Byte)
  | bcc (off : Byte) | bcs (off : Byte) | bne (off : Byte) | beq (off : Byte)
  -- 46_system_undefined_jam.md
  | brk | rti | nop
  /-- The undefined instruction (R128, R333): its opcode byte and the parameter bytes it consumes. -/
  | undef (op : Byte) (params : List Byte)
  /-- The jam (R129, R334). -/
  | jam
  deriving DecidableEq, Repr

end Sys2Proof
end

