-- ==== Sys2Proof/Config.lean ====
section
/-! DEFINITION. The configuration of the machine: the types in which the parameters of 00_scope.md R9 and a platform
(`MEMMAP`) are written down. Every parameter of R9 is a field of `Params` or of `Platform`, which `Machine.State` carries
unchanged (log 1, log 10, log 12); the values that R9 takes are in Machine/Parameters.lean. -/

namespace Sys2Proof

/-- An instruction template (R120): the instruction it binds, with its operand bytes still 0 (mnemonic and addressing
mode), its byte length, its base cycle count, and `page_penalty` (R134). -/
structure Template where
  instr : Instr
  length : Nat
  cycles : Nat
  pagePenalty : Bool
  deriving DecidableEq, Repr

/-- One row of the table of R128: undefined opcodes that share `UNDEF_LEN` and `UNDEF_CYC`. -/
structure UndefRow where
  ops : List Byte
  len : Nat
  cyc : Nat
  deriving DecidableEq, Repr

/-- `DecimalArith` (R9, R226): what ADC and SBC do while `P.D` = 1. -/
inductive DecimalArith where
  /-- R226 (a): such a step is refused. -/
  | refuse
  /-- R226 (b): the decimal algorithm of the NMOS 6502. -/
  | nmos6502
  deriving DecidableEq, Repr

/-- The two interrupt lines (R29). -/
inductive Line where
  | nmi
  | irq
  deriving DecidableEq, Repr

/-- `IntTimeOK` (R9, R355): the cycle-count part of the eligibility predicate. -/
inductive IntTime where
  /-- Constantly true, the value R9 takes. -/
  | always
  /-- Any other predicate: the function `Config.intTimeOK`, of which nothing is known (log 11). -/
  | windowed
  deriving DecidableEq, Repr

/-- `ARCH` (R9, D1): the instruction catalogue. R9 takes one, and no other is specified. -/
inductive Arch where
  | mos6502NmosDocumented
  deriving DecidableEq, Repr

/-- `DATA_W` (R9): the byte width; the source gives one value. -/
inductive DataWidth where
  | eight
  deriving DecidableEq, Repr

/-- `ADDR_W` (R9, D2): the address width; R9 takes one value, and the rules are written for it. -/
inductive AddrWidth where
  | sixteen
  deriving DecidableEq, Repr

/-- `ENDIAN` (R9): the byte order of values of several bytes; the source gives one value. -/
inductive Endian where
  | little
  deriving DecidableEq, Repr

/-- The number of bits that a byte width stands for. -/
def DataWidth.bits : DataWidth → Nat
  | .eight => 8

/-- The number of bits that an address width stands for. -/
def AddrWidth.bits : AddrWidth → Nat
  | .sixteen => 16

/-- A member of `PREFIXES` (R9, R121) with the level-1 table that it selects, written as the table of level 0 is. The
lengths of both tables count the prefix. -/
structure Prefix where
  byte : Byte
  opTable : List (Option Template)
  undefTable : List UndefRow
  deriving DecidableEq, Repr

/-- The parameters of R9. -/
structure Params where
  /-- `ARCH`. -/
  arch : Arch
  /-- `DATA_W`. -/
  dataW : DataWidth
  /-- `ADDR_W`. -/
  addrW : AddrWidth
  /-- `ENDIAN`. -/
  endian : Endian
  /-- `NLEVELS` (R121): the number of decode levels. -/
  nLevels : Nat
  /-- `PREFIXES` (R121). -/
  prefixes : List Prefix
  /-- `OPTABLE` at level 0: the populated entries of the 256, in the order of the opcode byte; `none` is an unpopulated
  entry (R128). The document's `PAGE_PENALTY` is the flag of each template (R134, D27). -/
  opTable : List (Option Template)
  /-- `UNDEF_LEN` and `UNDEF_CYC` (R128, D12). -/
  undefTable : List UndefRow
  /-- `JAMSET`: the opcodes that jam (R129, D13), at level 0 (DESIGN CHOICE, log 27). -/
  jamSet : List Byte
  /-- `JAM_CYCLES` (R334, D13). -/
  jamCycles : Nat
  /-- `STACK_BASE` (R78, D4): the first address of the Stack subset. -/
  stackBase : Word
  /-- `STACK_SIZE` (R78, D4). -/
  stackSize : Nat
  /-- `VEC_NMI` (R351, D5). -/
  vecNmi : Word
  /-- `VEC_RESET` (R400, D5). -/
  vecReset : Word
  /-- `VEC_IRQ` (R351, D5), shared by BRK (R330). -/
  vecIrq : Word
  /-- `INT_CYCLES` (R364, D6). -/
  intCycles : Nat
  /-- `IntTimeOK` (R355, D10). -/
  intTime : IntTime
  /-- `NMI_SETS_I`: whether NMI service sets the I flag (R360, D7). -/
  nmiSetsI : Bool
  /-- `JAM_BLOCKS_INTERRUPTS`: whether a jammed CPU ignores interrupt requests (R130, D14). -/
  jamBlocksInterrupts : Bool
  /-- `DecimalArith` (R226, D15). -/
  decimalArith : DecimalArith
  deriving DecidableEq, Repr

/-- Position of a storage in the list of storages. -/
abbrev StorageId := Nat
/-- Position of a subset in the platform's list of subsets. -/
abbrev SubsetId := Nat
/-- Position of a chip in the platform's list of chips; the same identity is the chip's as a notifier and as an
observer (R94). -/
abbrev ChipId := Nat

/-- A physical storage (R62): its length and its contents as a list of (index, byte) in canonical form: indexes
strictly rising, no byte equal to what an unlisted index reads as (`Machine.blankByte`, log 4). -/
structure Storage where
  size : Nat
  cells : List Host.Cell
  deriving DecidableEq, Repr

/-- The three kinds of subset (R63). -/
inductive SubsetKind where
  /-- Reads and writes the storage (R66, R67); the Stack subset is one of these (R78). -/
  | plain
  /-- A plain subset over a ROM storage: writes are discarded (R67). -/
  | readonly
  /-- Owned by a chip, whose handlers answer the accesses (R68, R69). -/
  | register (owner : ChipId)
  deriving DecidableEq, Repr

/-- A subset (R63): a named view into a storage, (storage, offset, base, size), its kind, and whether the platform's
initial configuration activates it (R37). -/
structure Subset where
  name : String
  kind : SubsetKind
  storage : StorageId
  offset : Nat
  base : Nat
  size : Nat
  startsActive : Bool
  deriving DecidableEq, Repr

/-- An event (R93): an integer id and an optional payload (log 8). -/
structure Event where
  id : Int
  payload : Option Nat
  deriving DecidableEq, Repr

/-- A member of `EVENT_IDS` (R9, R93, D34): an event id, and whether its events carry a payload. -/
structure EventKind where
  id : Int
  payload : Bool
  deriving DecidableEq, Repr

/-- The private state of a chip (R33), as plain data (log 8). -/
inductive DevState where
  /-- The state of chip CFG of test platform TP2 (95_test_vectors.md section 2.10). -/
  | bankSwitch (bank : Bool) (last rdcount : Byte) (oneshot : Bool)
  /-- The trace of an observer of TP2: the events it was given, oldest first. -/
  | recorder (trace : List (ChipId × Event))
  /-- Any other chip's state, as a list of numbers. -/
  | words (l : List Nat)
  deriving DecidableEq, Repr

/-- Which behaviour a chip has. -/
inductive ChipModel where
  /-- Chip CFG of TP2; it activates `winA` while its bank bit is 0 and `winB` while it is 1. -/
  | bankSwitch (winA winB : SubsetId)
  /-- OBS1, OBS2 of TP2: appends each event to its trace. -/
  | recorder
  /-- A chip of which the spec gives nothing (R376): its handlers are the opaque functions of
  Machine/Chips.lean (log 6). -/
  | external
  deriving DecidableEq, Repr

/-- A chip of the platform: its behaviour, its state as `initialize` leaves it (R37), the names of the register
subsets `initialize` binds it to (R102). -/
structure Chip where
  model : ChipModel
  init : DevState
  binds : List String
  deriving DecidableEq, Repr

/-- A platform: `MEMMAP` (R9, R105) and the parameters that go with it. -/
structure Platform where
  params : Params
  /-- The storages with their images (ROM) or power-on contents (RAM) (R37). -/
  storages : List Storage
  subsets : List Subset
  /-- The Stack subset Memory holds a reference to (R78, R82). -/
  stackSubset : SubsetId
  chips : List Chip
  /-- The wiring done at assembly time, in order: (observer, notifier) (R94). -/
  wiring : List (ChipId × ChipId)
  /-- `EVENT_IDS` (R9, D34): the events that the platform's chips raise (log 8). -/
  eventIds : List EventKind
  deriving DecidableEq, Repr

end Sys2Proof
end

