-- ==== Sys2Proof/Machine/OpTable.lean ====
section
/-! DEFINITION. The populated entries of the opcode table: the documented cells of the map of 30_encoding.md R127, with
the lengths, cycle counts and page penalties of spec/opcode_table.json. -/

namespace Sys2Proof

/-- The number of parameter bytes of a memory mode (R124). -/
def paramCount : MemMode → Nat
  | .zp | .zpx | .zpy | .izx | .izy => 1
  | .abs | .abx | .aby => 2

/-- The operand of a mode before its parameter bytes are bound (R120). -/
def unboundOperand : MemMode → MemOperand
  | .zp => .zp 0#8
  | .zpx => .zpx 0#8
  | .zpy => .zpy 0#8
  | .abs => .abs 0#16
  | .abx => .abx 0#16
  | .aby => .aby 0#16
  | .izx => .izx 0#8
  | .izy => .izy 0#8

/-- The modes in which a read-class opcode pays for a crossed page: `PAGE_PENALTY` (R9, R134, D27). -/
def penaltyMode : MemMode → Bool
  | .abx | .aby | .izy => true
  | .zp | .zpx | .zpy | .abs | .izx => false

namespace OpTable

/-- A cell of mode `imp`. -/
def imp (i : Instr) (cycles : Nat) : Option Template := some ⟨i, 1, cycles, false⟩
/-- A cell of mode `acc`. -/
def acc (f : ShiftOperand → Instr) (cycles : Nat) : Option Template := some ⟨f .acc, 1, cycles, false⟩
/-- A cell of mode `imm`. -/
def imm (f : Operand → Instr) (cycles : Nat) : Option Template := some ⟨f (.imm 0#8), 2, cycles, false⟩
/-- A cell whose operand is in memory and pays no penalty: store-class, read-modify-write, BIT. -/
def mem (f : MemOperand → Instr) (m : MemMode) (cycles : Nat) : Option Template :=
  some ⟨f (unboundOperand m), 1 + paramCount m, cycles, false⟩
/-- A memory cell of a read-class instruction that also has an immediate form. -/
def rd (f : Operand → Instr) (m : MemMode) (cycles : Nat) : Option Template :=
  some ⟨f (.mem (unboundOperand m)), 1 + paramCount m, cycles, penaltyMode m⟩
/-- A memory cell of a shift or rotate. -/
def sh (f : ShiftOperand → Instr) (m : MemMode) (cycles : Nat) : Option Template := mem (fun o => f (.mem o)) m cycles
/-- A cell of mode `rel`. -/
def rel (f : Byte → Instr) (cycles : Nat) : Option Template := some ⟨f 0#8, 2, cycles, false⟩
/-- A cell of JMP or JSR: modes `abs` and `ind`. -/
def adr (f : Word → Instr) (cycles : Nat) : Option Template := some ⟨f 0#16, 3, cycles, false⟩

/-- Row 0x of the map of R127, columns x0 to xF. -/
def row0 : List (Option Template) := [
  imp .brk 7, rd .ora .izx 6, none, none,
  none, rd .ora .zp 3, sh .asl .zp 5, none,
  imp .php 3, imm .ora 2, acc .asl 2, none,
  none, rd .ora .abs 4, sh .asl .abs 6, none]

/-- Row 1x of the map of R127, columns x0 to xF. -/
def row1 : List (Option Template) := [
  rel .bpl 2, rd .ora .izy 5, none, none,
  none, rd .ora .zpx 4, sh .asl .zpx 6, none,
  imp .clc 2, rd .ora .aby 4, none, none,
  none, rd .ora .abx 4, sh .asl .abx 7, none]

/-- Row 2x of the map of R127, columns x0 to xF. -/
def row2 : List (Option Template) := [
  adr .jsr 6, rd .and .izx 6, none, none,
  mem .bit .zp 3, rd .and .zp 3, sh .rol .zp 5, none,
  imp .plp 4, imm .and 2, acc .rol 2, none,
  mem .bit .abs 4, rd .and .abs 4, sh .rol .abs 6, none]

/-- Row 3x of the map of R127, columns x0 to xF. -/
def row3 : List (Option Template) := [
  rel .bmi 2, rd .and .izy 5, none, none,
  none, rd .and .zpx 4, sh .rol .zpx 6, none,
  imp .sec 2, rd .and .aby 4, none, none,
  none, rd .and .abx 4, sh .rol .abx 7, none]

/-- Row 4x of the map of R127, columns x0 to xF. -/
def row4 : List (Option Template) := [
  imp .rti 6, rd .eor .izx 6, none, none,
  none, rd .eor .zp 3, sh .lsr .zp 5, none,
  imp .pha 3, imm .eor 2, acc .lsr 2, none,
  adr .jmpAbs 3, rd .eor .abs 4, sh .lsr .abs 6, none]

/-- Row 5x of the map of R127, columns x0 to xF. -/
def row5 : List (Option Template) := [
  rel .bvc 2, rd .eor .izy 5, none, none,
  none, rd .eor .zpx 4, sh .lsr .zpx 6, none,
  imp .cli 2, rd .eor .aby 4, none, none,
  none, rd .eor .abx 4, sh .lsr .abx 7, none]

/-- Row 6x of the map of R127, columns x0 to xF. -/
def row6 : List (Option Template) := [
  imp .rts 6, rd .adc .izx 6, none, none,
  none, rd .adc .zp 3, sh .ror .zp 5, none,
  imp .pla 4, imm .adc 2, acc .ror 2, none,
  adr .jmpInd 5, rd .adc .abs 4, sh .ror .abs 6, none]

/-- Row 7x of the map of R127, columns x0 to xF. -/
def row7 : List (Option Template) := [
  rel .bvs 2, rd .adc .izy 5, none, none,
  none, rd .adc .zpx 4, sh .ror .zpx 6, none,
  imp .sei 2, rd .adc .aby 4, none, none,
  none, rd .adc .abx 4, sh .ror .abx 7, none]

/-- Row 8x of the map of R127, columns x0 to xF. -/
def row8 : List (Option Template) := [
  none, mem .sta .izx 6, none, none,
  mem .sty .zp 3, mem .sta .zp 3, mem .stx .zp 3, none,
  imp .dey 2, none, imp .txa 2, none,
  mem .sty .abs 4, mem .sta .abs 4, mem .stx .abs 4, none]

/-- Row 9x of the map of R127, columns x0 to xF. -/
def row9 : List (Option Template) := [
  rel .bcc 2, mem .sta .izy 6, none, none,
  mem .sty .zpx 4, mem .sta .zpx 4, mem .stx .zpy 4, none,
  imp .tya 2, mem .sta .aby 5, imp .txs 2, none,
  none, mem .sta .abx 5, none, none]

/-- Row Ax of the map of R127, columns x0 to xF. -/
def rowA : List (Option Template) := [
  imm .ldy 2, rd .lda .izx 6, imm .ldx 2, none,
  rd .ldy .zp 3, rd .lda .zp 3, rd .ldx .zp 3, none,
  imp .tay 2, imm .lda 2, imp .tax 2, none,
  rd .ldy .abs 4, rd .lda .abs 4, rd .ldx .abs 4, none]

/-- Row Bx of the map of R127, columns x0 to xF. -/
def rowB : List (Option Template) := [
  rel .bcs 2, rd .lda .izy 5, none, none,
  rd .ldy .zpx 4, rd .lda .zpx 4, rd .ldx .zpy 4, none,
  imp .clv 2, rd .lda .aby 4, imp .tsx 2, none,
  rd .ldy .abx 4, rd .lda .abx 4, rd .ldx .aby 4, none]

/-- Row Cx of the map of R127, columns x0 to xF. -/
def rowC : List (Option Template) := [
  imm .cpy 2, rd .cmp .izx 6, none, none,
  rd .cpy .zp 3, rd .cmp .zp 3, mem .dec .zp 5, none,
  imp .iny 2, imm .cmp 2, imp .dex 2, none,
  rd .cpy .abs 4, rd .cmp .abs 4, mem .dec .abs 6, none]

/-- Row Dx of the map of R127, columns x0 to xF. -/
def rowD : List (Option Template) := [
  rel .bne 2, rd .cmp .izy 5, none, none,
  none, rd .cmp .zpx 4, mem .dec .zpx 6, none,
  imp .cld 2, rd .cmp .aby 4, none, none,
  none, rd .cmp .abx 4, mem .dec .abx 7, none]

/-- Row Ex of the map of R127, columns x0 to xF. -/
def rowE : List (Option Template) := [
  imm .cpx 2, rd .sbc .izx 6, none, none,
  rd .cpx .zp 3, rd .sbc .zp 3, mem .inc .zp 5, none,
  imp .inx 2, imm .sbc 2, imp .nop 2, none,
  rd .cpx .abs 4, rd .sbc .abs 4, mem .inc .abs 6, none]

/-- Row Fx of the map of R127, columns x0 to xF. -/
def rowF : List (Option Template) := [
  rel .beq 2, rd .sbc .izy 5, none, none,
  none, rd .sbc .zpx 4, mem .inc .zpx 6, none,
  imp .sed 2, rd .sbc .aby 4, none, none,
  none, rd .sbc .abx 4, mem .inc .abx 7, none]

/-- The map of R127, entry by entry: `OPTABLE` (R9). -/
def entries : List (Option Template) :=
  row0 ++ row1 ++ row2 ++ row3 ++ row4 ++ row5 ++ row6 ++ row7 ++
    row8 ++ row9 ++ rowA ++ rowB ++ rowC ++ rowD ++ rowE ++ rowF

end OpTable

end Sys2Proof
end

