-- ==== Sys2Proof/Machine/Parameters.lean ====
section
/-! DEFINITION. The values of the parameters of 00_scope.md R9 (column "value taken"), and test platform TP1. -/

namespace Sys2Proof

/-- `UNDEF_LEN` and `UNDEF_CYC` (R9), the table of R128 row by row. -/
def Config.undefTable : List UndefRow := [
  ⟨[0x02#8, 0x12#8, 0x22#8, 0x32#8, 0x42#8, 0x52#8, 0x62#8, 0x72#8, 0x92#8, 0xB2#8, 0xD2#8, 0xF2#8], 1, 2⟩,
  ⟨[0x1A#8, 0x3A#8, 0x5A#8, 0x7A#8, 0xDA#8, 0xFA#8], 1, 2⟩,
  ⟨[0x80#8, 0x82#8, 0x89#8, 0xC2#8, 0xE2#8], 2, 2⟩,
  ⟨[0x04#8, 0x44#8, 0x64#8], 2, 3⟩,
  ⟨[0x14#8, 0x34#8, 0x54#8, 0x74#8, 0xD4#8, 0xF4#8], 2, 4⟩,
  ⟨[0x0C#8], 3, 4⟩,
  ⟨[0x1C#8, 0x3C#8, 0x5C#8, 0x7C#8, 0xDC#8, 0xFC#8], 3, 4⟩,
  ⟨[0x03#8, 0x23#8, 0x43#8, 0x63#8, 0xC3#8, 0xE3#8], 2, 8⟩,
  ⟨[0x13#8, 0x33#8, 0x53#8, 0x73#8, 0xD3#8, 0xF3#8], 2, 8⟩,
  ⟨[0x07#8, 0x27#8, 0x47#8, 0x67#8, 0xC7#8, 0xE7#8], 2, 5⟩,
  ⟨[0x17#8, 0x37#8, 0x57#8, 0x77#8, 0xD7#8, 0xF7#8], 2, 6⟩,
  ⟨[0x0F#8, 0x2F#8, 0x4F#8, 0x6F#8, 0xCF#8, 0xEF#8], 3, 6⟩,
  ⟨[0x1F#8, 0x3F#8, 0x5F#8, 0x7F#8, 0xDF#8], 3, 7⟩,
  ⟨[0x1B#8, 0x3B#8, 0x5B#8, 0x7B#8, 0xDB#8, 0xFB#8], 3, 7⟩,
  ⟨[0x0B#8, 0x2B#8, 0x4B#8, 0x6B#8, 0x8B#8, 0xAB#8, 0xCB#8, 0xEB#8], 2, 2⟩,
  ⟨[0x83#8], 2, 6⟩, ⟨[0x87#8], 2, 3⟩, ⟨[0x8F#8], 3, 4⟩, ⟨[0x97#8], 2, 4⟩,
  ⟨[0xA3#8], 2, 6⟩, ⟨[0xA7#8], 2, 3⟩, ⟨[0xAF#8], 3, 4⟩, ⟨[0xB7#8], 2, 4⟩,
  ⟨[0xB3#8], 2, 5⟩,
  ⟨[0xBF#8, 0xBB#8], 3, 4⟩,
  ⟨[0x93#8], 2, 6⟩, ⟨[0x9F#8], 3, 5⟩,
  ⟨[0x9B#8, 0x9C#8, 0x9E#8], 3, 5⟩]

/-- `OPTABLE` of an instruction catalogue (R9, D1). -/
def Arch.opTable : Arch → List (Option Template)
  | .mos6502NmosDocumented => OpTable.entries

/-- The parameters' values of R9; `DecimalArith`, which R9 leaves open, is the NMOS algorithm (log 10). -/
def Params.default : Params where
  arch := .mos6502NmosDocumented
  dataW := .eight
  addrW := .sixteen
  endian := .little
  nLevels := 1
  prefixes := []
  opTable := Arch.opTable .mos6502NmosDocumented
  undefTable := Config.undefTable
  jamSet := [0xFF#8]
  jamCycles := 2
  stackBase := 0x0100#16
  stackSize := 0x100
  vecNmi := 0xFFFA#16
  vecReset := 0xFFFC#16
  vecIrq := 0xFFFE#16
  intCycles := 7
  intTime := .always
  nmiSetsI := false
  jamBlocksInterrupts := true
  decimalArith := .nmos6502

/-- The row that lists an opcode, if one does. -/
def undefRowOf (rows : List UndefRow) (op : Byte) : Option UndefRow := rows.find? (fun r => r.ops.contains op)

/-- The row of the table of R128 that lists an opcode, if one does. -/
def Params.undefRow (pr : Params) (op : Byte) : Option UndefRow := undefRowOf pr.undefTable op

/-- `UNDEF_LEN(op)` (R9, R128); 1 for an opcode that no row lists (log 12). -/
def Params.undefLen (pr : Params) (op : Byte) : Nat := ((pr.undefRow op).map UndefRow.len).getD 1

/-- `UNDEF_CYC(op)` (R9, R128); 2 for an opcode that no row lists (log 12). -/
def Params.undefCyc (pr : Params) (op : Byte) : Nat := ((pr.undefRow op).map UndefRow.cyc).getD 2

/-- The populated entry of an opcode (R121). -/
def Params.entry (pr : Params) (op : Byte) : Option Template := pr.opTable.getD op.toNat none

/-- Does the opcode jam (R129)? -/
def Params.jams (pr : Params) (op : Byte) : Bool := pr.jamSet.contains op

/-- The level-1 table that the byte at `PC` selects, if it is a prefix (R121): there is a second level, and the byte is in
`PREFIXES`. A byte that is in `JAMSET` too is taken as the jam (log 27). -/
def Params.prefixOf (pr : Params) (op : Byte) : Option Prefix :=
  if pr.jams op || decide (pr.nLevels < 2) then none else pr.prefixes.find? (fun x => x.byte == op)

/-- Does the opcode decode to the undefined instruction (R128): neither in `JAMSET` nor populated? -/
def Params.isUndef (pr : Params) (op : Byte) : Bool := !pr.jams op && (pr.entry op).isNone

/-- Test platform TP1 (95_test_vectors.md): one plain subset over one 64 KiB storage, no chips (log 1). -/
def Platform.tp1 : Platform where
  params := Params.default
  storages := [{ size := 65536, cells := [] }]
  subsets := [{ name := "ram", kind := .plain, storage := 0, offset := 0, base := 0, size := 65536, startsActive := true }]
  stackSubset := 0
  chips := []
  wiring := []
  eventIds := []

end Sys2Proof
end

