-- ==== Sys2Proof/WellFormed.lean ====
section
/-! DEFINITION. Which terms of `Instr` have an encoding: the modes each mnemonic's rule lists under "Encodings"
(files 41 to 46 of spec/), and for the undefined instruction the opcodes and lengths of R128. -/

namespace Sys2Proof

/-- An operand whose immediate form exists when `imm` says so and whose memory form is one of `modes`. -/
def Operand.within (imm : Bool) (modes : List MemMode) : Operand → Bool
  | .imm _ => imm
  | .mem m => modes.contains m.mode

/-- A memory operand in one of the modes. -/
def MemOperand.within (modes : List MemMode) (m : MemOperand) : Bool := modes.contains m.mode

/-- The accumulator, or a memory operand in one of the modes. -/
def ShiftOperand.within (modes : List MemMode) : ShiftOperand → Bool
  | .acc => true
  | .mem m => modes.contains m.mode

/-- The memory modes of LDA, STA, AND, ORA, EOR, ADC, SBC, CMP (R190, R193, R224 to R229, R232). -/
def accumulatorModes : List MemMode := [.zp, .zpx, .abs, .abx, .aby, .izx, .izy]

/-- The memory modes of the read-modify-write instructions (R260). -/
def rmwModes : List MemMode := [.zp, .zpx, .abs, .abx]

/-- Has the instruction an encoding? -/
def WellFormed : Instr → Bool
  | .lda o => o.within true accumulatorModes
  | .ldx o => o.within true [.zp, .zpy, .abs, .aby]
  | .ldy o => o.within true [.zp, .zpx, .abs, .abx]
  | .sta m => m.within accumulatorModes
  | .stx m => m.within [.zp, .zpy, .abs]
  | .sty m => m.within [.zp, .zpx, .abs]
  | .tax => true | .tay => true | .txa => true | .tya => true | .tsx => true | .txs => true
  | .and o => o.within true accumulatorModes
  | .ora o => o.within true accumulatorModes
  | .eor o => o.within true accumulatorModes
  | .bit m => m.within [.zp, .abs]
  | .adc o => o.within true accumulatorModes
  | .sbc o => o.within true accumulatorModes
  | .cmp o => o.within true accumulatorModes
  | .cpx o => o.within true [.zp, .abs]
  | .cpy o => o.within true [.zp, .abs]
  | .asl o => o.within rmwModes | .lsr o => o.within rmwModes
  | .rol o => o.within rmwModes | .ror o => o.within rmwModes
  | .inc m => m.within rmwModes | .dec m => m.within rmwModes
  | .inx => true | .iny => true | .dex => true | .dey => true
  | .pha => true | .php => true | .pla => true | .plp => true
  | .clc => true | .sec => true | .cli => true | .sei => true | .cld => true | .sed => true | .clv => true
  | .jmpAbs _ => true | .jmpInd _ => true | .jsr _ => true | .rts => true
  | .bpl _ => true | .bmi _ => true | .bvc _ => true | .bvs _ => true
  | .bcc _ => true | .bcs _ => true | .bne _ => true | .beq _ => true
  | .brk => true | .rti => true | .nop => true
  | .undef op ps => Params.default.isUndef op && ps.length + 1 == Params.default.undefLen op
  | .jam => true

end Sys2Proof
end

