-- ==== Sys2Proof/Decode.lean ====
section
/-! DEFINITION. The decoder that an opcode table gives (30_encoding.md R121 to R124, R128, R129), and after it an encoder
written from the "Encodings" sentences of files 41 to 46 of spec/. Also the byte-order and extension helpers of R10 and
R126. -/

namespace Sys2Proof

/-- Bits 7..0 of a word (R10). -/
def loByte (w : Word) : Byte := w.extractLsb' 0 8

/-- Bits 15..8 of a word (R10); its page number (00_scope.md section 7). -/
def hiByte (w : Word) : Byte := w.extractLsb' 8 8

/-- The word `hi ++ lo` (R10); with `hi = p[2]`, `lo = p[1]` the 16-bit operand of R126. -/
def wordOf (hi lo : Byte) : Word := hi ++ lo

/-- `zext_16` (R10). -/
def zext16 (b : Byte) : Word := b.setWidth 16

/-- `sext_16` (R10). -/
def sext16 (b : Byte) : Word := b.signExtend 16

/-! ## Templates and binding -/

/-- A memory operand with its parameter bytes `p1`, `p2` bound (R122, R126). -/
def MemOperand.bind (p1 p2 : Byte) : MemOperand → MemOperand
  | .zp _ => .zp p1
  | .zpx _ => .zpx p1
  | .zpy _ => .zpy p1
  | .abs _ => .abs (wordOf p2 p1)
  | .abx _ => .abx (wordOf p2 p1)
  | .aby _ => .aby (wordOf p2 p1)
  | .izx _ => .izx p1
  | .izy _ => .izy p1

/-- An operand with its parameter bytes bound (R126, R162). -/
def Operand.bind (p1 p2 : Byte) : Operand → Operand
  | .imm _ => .imm p1
  | .mem m => .mem (m.bind p1 p2)

/-- A shift operand with its parameter bytes bound (R126, R161). -/
def ShiftOperand.bind (p1 p2 : Byte) : ShiftOperand → ShiftOperand
  | .acc => .acc
  | .mem m => .mem (m.bind p1 p2)

/-- A template's instruction with its parameter bytes bound (R122, R126); the undefined instruction takes all its
bytes. -/
def Instr.bind (params : List Byte) (i : Instr) : Instr :=
  let p1 := params.getD 0 0#8
  let p2 := params.getD 1 0#8
  match i with
  | .lda o => .lda (o.bind p1 p2)
  | .ldx o => .ldx (o.bind p1 p2)
  | .ldy o => .ldy (o.bind p1 p2)
  | .sta m => .sta (m.bind p1 p2)
  | .stx m => .stx (m.bind p1 p2)
  | .sty m => .sty (m.bind p1 p2)
  | .tax => .tax
  | .tay => .tay
  | .txa => .txa
  | .tya => .tya
  | .tsx => .tsx
  | .txs => .txs
  | .and o => .and (o.bind p1 p2)
  | .ora o => .ora (o.bind p1 p2)
  | .eor o => .eor (o.bind p1 p2)
  | .bit m => .bit (m.bind p1 p2)
  | .adc o => .adc (o.bind p1 p2)
  | .sbc o => .sbc (o.bind p1 p2)
  | .cmp o => .cmp (o.bind p1 p2)
  | .cpx o => .cpx (o.bind p1 p2)
  | .cpy o => .cpy (o.bind p1 p2)
  | .asl o => .asl (o.bind p1 p2)
  | .lsr o => .lsr (o.bind p1 p2)
  | .rol o => .rol (o.bind p1 p2)
  | .ror o => .ror (o.bind p1 p2)
  | .inc m => .inc (m.bind p1 p2)
  | .dec m => .dec (m.bind p1 p2)
  | .inx => .inx
  | .iny => .iny
  | .dex => .dex
  | .dey => .dey
  | .pha => .pha
  | .php => .php
  | .pla => .pla
  | .plp => .plp
  | .clc => .clc
  | .sec => .sec
  | .cli => .cli
  | .sei => .sei
  | .cld => .cld
  | .sed => .sed
  | .clv => .clv
  | .jmpAbs _ => .jmpAbs (wordOf p2 p1)
  | .jmpInd _ => .jmpInd (wordOf p2 p1)
  | .jsr _ => .jsr (wordOf p2 p1)
  | .rts => .rts
  | .bpl _ => .bpl p1
  | .bmi _ => .bmi p1
  | .bvc _ => .bvc p1
  | .bvs _ => .bvs p1
  | .bcc _ => .bcc p1
  | .bcs _ => .bcs p1
  | .bne _ => .bne p1
  | .beq _ => .beq p1
  | .brk => .brk
  | .rti => .rti
  | .nop => .nop
  | .undef op _ => .undef op params
  | .jam => .jam

/-- The template that an opcode byte selects (R122, total by R128): the jam for a member of `JAMSET` (R129), the
populated entry, or the undefined instruction (R128). -/
def optable (pr : Params) (op : Byte) : Template :=
  if pr.jams op then ⟨.jam, 1, pr.jamCycles, false⟩
  else match pr.entry op with
    | some t => t
    | none => ⟨.undef op [], pr.undefLen op, pr.undefCyc op, false⟩

/-- The template that a byte selects in the level-1 table of a prefix (R121), total as R128 asks of the table. `JAMSET` is
taken to be of level 0 only and is not looked at here: R121 and R129 do not say whether a byte after a prefix jams (DESIGN
CHOICE, log 27). Where the prefix's rows do not list an unpopulated opcode, the prefix and the opcode are all of it, with
2 cycles (DESIGN CHOICE, log 27). -/
def Prefix.template (x : Prefix) (op : Byte) : Template :=
  match x.opTable.getD op.toNat none with
  | some t => t
  | none =>
    ⟨.undef op [], ((undefRowOf x.undefTable op).map UndefRow.len).getD 2,
      ((undefRowOf x.undefTable op).map UndefRow.cyc).getD 2, false⟩

/-- The template that raw bytes select (R121, R122): by the first byte, or by the second where the first is a prefix. -/
def templateOf (pr : Params) (bytes : List Byte) : Template :=
  match pr.prefixOf (bytes.headD 0#8) with
  | none => optable pr (bytes.headD 0#8)
  | some x => x.template (bytes.tail.headD 0#8)

/-! ## The decoder -/

/-- Why bytes are not an instruction. Every opcode byte is one (R135), so the only reason is that bytes are missing. -/
inductive DecodeError where
  /-- There is no opcode byte. -/
  | noOpcode
  /-- The opcode's parameter bytes are not all there. -/
  | truncated (op : Byte)
  deriving DecidableEq, Repr

/-- The template's instruction for the parameter bytes fetched (R122). -/
def bindParams (t : Template) (ps : List Byte) : Instr := t.instr.bind ps

/-- Bind the parameters of template `t`, which follow the `n` bytes that selected it (R122); `op` is the first byte. -/
def takeParams (op : Byte) (t : Template) (n : Nat) (ps : List Byte) : Except DecodeError (Instr × List Byte) :=
  if ps.length + n < t.length then .error (.truncated op)
  else .ok (bindParams t (ps.take (t.length - n)), ps.drop (t.length - n))

/-- Decode (R121, R123): a function of the opcode tables and the raw bytes; answers the instruction and the bytes after
it. -/
def decodeWith (pr : Params) : List Byte → Except DecodeError (Instr × List Byte)
  | [] => .error .noOpcode
  | op :: ps =>
    match pr.prefixOf op with
    | none => takeParams op (optable pr op) 1 ps
    | some x =>
      match ps with
      | [] => .error (.truncated op)
      | op1 :: qs => takeParams op (x.template op1) 2 qs

/-- Decode with the opcode table of R127. -/
def decode (bytes : List Byte) : Except DecodeError (Instr × List Byte) := decodeWith Params.default bytes

/-- The host's view of the decoder: the three bytes of the number `w` (below bit `nbits`), byte 0 first. -/
def wordBytes (nbits w : Nat) : List Byte :=
  let v := w % 2 ^ nbits
  [BitVec.ofNat 8 v, BitVec.ofNat 8 (v / 256), BitVec.ofNat 8 (v / 65536)]

/-- The instruction the decoder reads from an instruction whose bits are `w`. -/
def decodeTableWord (nbits w : Nat) : Option Instr :=
  match decode (wordBytes nbits w) with
  | .ok (i, _) => some i
  | .error _ => none

/-! ## The encoder -/

/-- The parameter bytes of a memory operand, in ascending address order (R124, R126). -/
def memParams : MemOperand → List Byte
  | .zp a | .zpx a | .zpy a | .izx a | .izy a => [a]
  | .abs w | .abx w | .aby w => [loByte w, hiByte w]

/-- The code of a memory operand: the opcode that `table` lists for its mode, then its parameters. -/
def encodeMem (table : List (MemMode × Byte)) (m : MemOperand) : List Byte :=
  match table.lookup m.mode with
  | some op => op :: memParams m
  | none => []

/-- The code of a read-class operand: `immOp` is the opcode of the immediate form. -/
def encodeRead (immOp : Byte) (table : List (MemMode × Byte)) : Operand → List Byte
  | .imm v => [immOp, v]
  | .mem m => encodeMem table m

/-- The code of a shift operand: `accOp` is the opcode of the accumulator form. -/
def encodeShift (accOp : Byte) (table : List (MemMode × Byte)) : ShiftOperand → List Byte
  | .acc => [accOp]
  | .mem m => encodeMem table m

/-- The bytes of a well-formed instruction, from the Encodings sentence of its rule (nothing for an ill-formed one). -/
def encode : Instr → List Byte
  | .lda o =>
      encodeRead 0xA9#8 [(.zp, 0xA5#8), (.zpx, 0xB5#8), (.abs, 0xAD#8), (.abx, 0xBD#8), (.aby, 0xB9#8), (.izx, 0xA1#8), (.izy, 0xB1#8)] o
  | .ldx o => encodeRead 0xA2#8 [(.zp, 0xA6#8), (.zpy, 0xB6#8), (.abs, 0xAE#8), (.aby, 0xBE#8)] o
  | .ldy o => encodeRead 0xA0#8 [(.zp, 0xA4#8), (.zpx, 0xB4#8), (.abs, 0xAC#8), (.abx, 0xBC#8)] o
  | .sta m =>
      encodeMem [(.zp, 0x85#8), (.zpx, 0x95#8), (.abs, 0x8D#8), (.abx, 0x9D#8), (.aby, 0x99#8), (.izx, 0x81#8), (.izy, 0x91#8)] m
  | .stx m => encodeMem [(.zp, 0x86#8), (.zpy, 0x96#8), (.abs, 0x8E#8)] m
  | .sty m => encodeMem [(.zp, 0x84#8), (.zpx, 0x94#8), (.abs, 0x8C#8)] m
  | .tax => [0xAA#8]
  | .tay => [0xA8#8]
  | .txa => [0x8A#8]
  | .tya => [0x98#8]
  | .tsx => [0xBA#8]
  | .txs => [0x9A#8]
  | .and o =>
      encodeRead 0x29#8 [(.zp, 0x25#8), (.zpx, 0x35#8), (.abs, 0x2D#8), (.abx, 0x3D#8), (.aby, 0x39#8), (.izx, 0x21#8), (.izy, 0x31#8)] o
  | .ora o =>
      encodeRead 0x09#8 [(.zp, 0x05#8), (.zpx, 0x15#8), (.abs, 0x0D#8), (.abx, 0x1D#8), (.aby, 0x19#8), (.izx, 0x01#8), (.izy, 0x11#8)] o
  | .eor o =>
      encodeRead 0x49#8 [(.zp, 0x45#8), (.zpx, 0x55#8), (.abs, 0x4D#8), (.abx, 0x5D#8), (.aby, 0x59#8), (.izx, 0x41#8), (.izy, 0x51#8)] o
  | .bit m => encodeMem [(.zp, 0x24#8), (.abs, 0x2C#8)] m
  | .adc o =>
      encodeRead 0x69#8 [(.zp, 0x65#8), (.zpx, 0x75#8), (.abs, 0x6D#8), (.abx, 0x7D#8), (.aby, 0x79#8), (.izx, 0x61#8), (.izy, 0x71#8)] o
  | .sbc o =>
      encodeRead 0xE9#8 [(.zp, 0xE5#8), (.zpx, 0xF5#8), (.abs, 0xED#8), (.abx, 0xFD#8), (.aby, 0xF9#8), (.izx, 0xE1#8), (.izy, 0xF1#8)] o
  | .cmp o =>
      encodeRead 0xC9#8 [(.zp, 0xC5#8), (.zpx, 0xD5#8), (.abs, 0xCD#8), (.abx, 0xDD#8), (.aby, 0xD9#8), (.izx, 0xC1#8), (.izy, 0xD1#8)] o
  | .cpx o => encodeRead 0xE0#8 [(.zp, 0xE4#8), (.abs, 0xEC#8)] o
  | .cpy o => encodeRead 0xC0#8 [(.zp, 0xC4#8), (.abs, 0xCC#8)] o
  | .asl o => encodeShift 0x0A#8 [(.zp, 0x06#8), (.zpx, 0x16#8), (.abs, 0x0E#8), (.abx, 0x1E#8)] o
  | .lsr o => encodeShift 0x4A#8 [(.zp, 0x46#8), (.zpx, 0x56#8), (.abs, 0x4E#8), (.abx, 0x5E#8)] o
  | .rol o => encodeShift 0x2A#8 [(.zp, 0x26#8), (.zpx, 0x36#8), (.abs, 0x2E#8), (.abx, 0x3E#8)] o
  | .ror o => encodeShift 0x6A#8 [(.zp, 0x66#8), (.zpx, 0x76#8), (.abs, 0x6E#8), (.abx, 0x7E#8)] o
  | .inc m => encodeMem [(.zp, 0xE6#8), (.zpx, 0xF6#8), (.abs, 0xEE#8), (.abx, 0xFE#8)] m
  | .dec m => encodeMem [(.zp, 0xC6#8), (.zpx, 0xD6#8), (.abs, 0xCE#8), (.abx, 0xDE#8)] m
  | .inx => [0xE8#8]
  | .iny => [0xC8#8]
  | .dex => [0xCA#8]
  | .dey => [0x88#8]
  | .pha => [0x48#8]
  | .php => [0x08#8]
  | .pla => [0x68#8]
  | .plp => [0x28#8]
  | .clc => [0x18#8]
  | .sec => [0x38#8]
  | .cli => [0x58#8]
  | .sei => [0x78#8]
  | .cld => [0xD8#8]
  | .sed => [0xF8#8]
  | .clv => [0xB8#8]
  | .jmpAbs t => [0x4C#8, loByte t, hiByte t]
  | .jmpInd t => [0x6C#8, loByte t, hiByte t]
  | .jsr t => [0x20#8, loByte t, hiByte t]
  | .rts => [0x60#8]
  | .bpl off => [0x10#8, off]
  | .bmi off => [0x30#8, off]
  | .bvc off => [0x50#8, off]
  | .bvs off => [0x70#8, off]
  | .bcc off => [0x90#8, off]
  | .bcs off => [0xB0#8, off]
  | .bne off => [0xD0#8, off]
  | .beq off => [0xF0#8, off]
  | .brk => [0x00#8]
  | .rti => [0x40#8]
  | .nop => [0xEA#8]
  | .undef op ps => op :: ps
  | .jam => [0xFF#8]

end Sys2Proof
end

