-- ==== Sys2Proof/Machine/State.lean ====
section
/-! DEFINITION. The state of the machine, 10_state.md R38, as plain data; why a step can stop; the state after reset
(R37). -/

namespace Sys2Proof.Machine

/-- What the chips' handlers act on: the world `W` of 20_memory.md R105. -/
structure World where
  /-- `storage`: the physical storages (R32, R62). -/
  storages : List Storage
  /-- `active`: the active configuration, one bit per subset of the platform (R32, R64). -/
  active : List Bool
  /-- `dev`: the chips' private states (R33). -/
  dev : List DevState
  /-- `observers`: for each notifier its observers, in registration order (R33, R94). -/
  observers : List (List ChipId)
  /-- `nmi_req`: line NMI is Requested (R29). -/
  nmiReq : Bool
  /-- `irq_req`: line IRQ is Requested (R29). -/
  irqReq : Bool
  deriving DecidableEq, Repr

/-- The machine state (R38), the transient values of one step (R130), and the platform the machine was assembled
with. -/
structure State where
  /-- The accumulator `A` (R20). -/
  a : Byte
  /-- The index register `X` (R20). -/
  x : Byte
  /-- The index register `Y` (R20). -/
  y : Byte
  /-- The stack pointer `SP` (R21). -/
  sp : Byte
  /-- The program counter `PC` (R22). -/
  pc : Word
  /-- The status register `P` (R24): N V 1 B D I Z C from bit 7 to bit 0. -/
  p : Byte
  /-- `stack_anomaly` (R31). -/
  stackAnomaly : Bool
  /-- `clk`, the cycles of every step since reset (R30). -/
  clk : Nat
  /-- `cycles` of R130: the count of the step in progress, and afterwards the value the step returned (R7; log 14). -/
  cycles : Nat
  /-- `jam_now` of R130: the step in progress executed a jam; false between steps (log 14). -/
  jamNow : Bool
  /-- `T.page_penalty` of the template in execution (R134, R173); false between steps (R34; log 14). -/
  pagePenalty : Bool
  /-- Storage, configuration, chips, observers and interrupt latches. -/
  world : World
  /-- The configuration of R38 that is fixed for the life of the machine (R34; log 1). -/
  plat : Platform
  deriving DecidableEq, Repr

/-- Why the machine stops with a fault: the spec names the failure (R13 (b), R369). -/
inductive Fault where
  /-- `Fault(NoSubset a)` (20_memory.md R74): raised by any memory access that no active subset answers. The spec's
  own outcome; safe. -/
  | noSubset (a : Word)
  /-- A chip's `simulate` returned false (R103, R369 (b)): raised by the driver's loop, never by a step. The spec's
  own outcome; safe. -/
  | chipError (c : ChipId)
  deriving DecidableEq, Repr

/-- Why the model gives a step no meaning (R13 (c)). Each is safe: nothing can be proved of a run that meets it. -/
inductive Refusal where
  /-- An instruction without a meaning; raised by an arm of `exec` only (none is left). Safe. -/
  | notModelled (mnemonic : String)
  /-- `refuse(AmbiguousOverlap a)` (R75): raised by a memory access that two active subsets answer. The spec's own
  outcome; safe. -/
  | ambiguousOverlap (a : Word)
  /-- `refuse(DecimalMode)` (R226 (a)): raised by ADC and SBC with `P.D` = 1 on a platform whose `DecimalArith` is
  `refuse`. The spec's own outcome; safe. -/
  | decimalMode
  /-- Handlers nest inside one another without end, "a hang of the machine, not a defined behaviour", which R97 has a model
  refuse (log 7): raised by an access, a fetch or a `simulate` that would never return. Nesting that ends, however deep, is
  no such case. The spec's own outcome; safe. -/
  | handlerNesting
  /-- A plain or read-only subset that is no view into its storage (the requirement of R63; log 13): raised by an
  access through it. Safe. -/
  | subsetOutsideStorage (a : Word)
  /-- A chip's handler reaches for storage that is not behind a register subset of its own (R101; log 20). Safe. -/
  | foreignStorage (c : ChipId)
  /-- A handler switches to a configuration with two active subsets over one address (R75, D18) or with another subset
  than the Stack subset in the stack's range (R82, D28): raised by the switch (log 17). The spec's own outcome; safe. -/
  | inadmissibleConfiguration
  /-- A chip raises an event that is not in the platform's `EVENT_IDS` (R9, R93; log 8): raised by a handler's
  `Notify`. Safe. -/
  | undeclaredEvent (e : Event)
  /-- The assembled `MEMMAP` is not one the spec admits (R63, R75, R82, R102; log 17): raised by the driver's launch,
  never by a step. Safe. -/
  | rejectedMemmap (why : String)
  deriving DecidableEq, Repr

/-- The world of platform TP1 at power-on (R37; log 1, log 4): its storage with nothing listed, its one subset
active, no chips, both lines Idle. -/
def World.reset : World where
  storages := Platform.tp1.storages
  active := [true]
  dev := []
  observers := []
  nmiReq := false
  irqReq := false

/-- The machine right after reset (R37, R400) on platform TP1. `P.I` = 1 and bit 5 reads 1; the registers and flags
the spec leaves unspecified are 0 (log 2, log 3); `PC` is the word at `VEC_RESET`, which in this memory is 0x0000
(log 5). -/
def State.reset : State where
  a := 0x00#8
  x := 0x00#8
  y := 0x00#8
  sp := 0x00#8
  pc := 0x0000#16
  p := 0x24#8
  stackAnomaly := false
  clk := 0
  cycles := 0
  jamNow := false
  pagePenalty := false
  world := World.reset
  plat := Platform.tp1

end Sys2Proof.Machine
end

