-- ==== Sys2Proof/Machine/Memory.lean ====
section
/-! DEFINITION. Physical storages (20_memory.md R62): reading and writing one byte of a storage kept as a list of
cells in canonical form. -/

namespace Sys2Proof.Machine

/-- What a storage index that is not listed reads as (log 4). -/
def blankByte : Byte := 0x00#8

/-- The byte that a list of cells gives at an index. -/
def cellAt : List Host.Cell → Nat → Byte
  | [], _ => blankByte
  | e :: t, k => if e.1 = k then e.2 else cellAt t k

/-- The cells without those of an index. -/
def dropCell (cells : List Host.Cell) (k : Nat) : List Host.Cell := cells.filter (fun e => e.1 != k)

/-- The cells with one more, in rising order of indexes. -/
def insertCell : List Host.Cell → Nat → Byte → List Host.Cell
  | [], k, v => [(k, v)]
  | e :: t, k, v => if k < e.1 then (k, v) :: e :: t else e :: insertCell t k v

/-- The cells after the byte at an index becomes `v`; a blank byte is not listed. -/
def putCell (cells : List Host.Cell) (k : Nat) (v : Byte) : List Host.Cell :=
  if v = blankByte then dropCell cells k else insertCell (dropCell cells k) k v

/-- A storage after the byte at an index becomes `v` (R67). -/
def putByte (st : Storage) (k : Nat) (v : Byte) : Storage := { st with cells := putCell st.cells k v }

/-- The byte at index `k` of storage `id`, if there is such a byte (R62). -/
def storageByte (w : World) (id : StorageId) (k : Nat) : Option Byte :=
  match w.storages[id]? with
  | some st => if k < st.size then some (cellAt st.cells k) else none
  | none => none

/-- The world after the byte at index `k` of storage `id` becomes `v`. -/
def putStorage (w : World) (id : StorageId) (k : Nat) (v : Byte) : World :=
  { w with storages := w.storages.modify id (fun st => putByte st k v) }

/-- Are the indexes of the cells strictly rising? -/
def rising : List Host.Cell → Bool
  | [] => true
  | [_] => true
  | e :: f :: t => e.1 < f.1 && rising (f :: t)

/-- The canonical form of one storage: indexes strictly rising and inside the storage, no blank byte listed. -/
def storageWf (st : Storage) : Bool :=
  rising st.cells && st.cells.all (fun e => e.1 < st.size && e.2 != blankByte)

/-- The canonical form of the memory: every storage has it. -/
def Memory.wf (w : World) : Bool := w.storages.all storageWf

end Sys2Proof.Machine
end

