-- ==== Sys2Proof/Machine/Chips.lean ====
section
/-! DEFINITION. Chips: what a handler may do (20_memory.md R101), written as a program, and the handler functions of
R105 for the chips of test platform TP2 and, opaque, for every other chip. -/

namespace Sys2Proof.Machine

/-- A handler of a chip, as the program of its actions; `α` is what it returns (R105). It may look at the world, and
change only what R101 admits: nothing here can reach a CPU register. Nothing here reads one either: D23's "handlers and
`simulate` may read CPU state" is met by the view that `SimulateH` is given; the register and event handlers get none,
as in the signatures of R105 and as R363 has it of `PC` (DESIGN CHOICE, log 24). -/
inductive Handler (α : Type) where
  /-- Return. -/
  | ret (v : α)
  /-- Go on as the world `W` says (R105: a handler is a function of `W`). -/
  | look (k : World → Handler α)
  /-- Change the chip's own state. -/
  | setOwn (d : DevState) (k : Handler α)
  /-- Switch the active configuration (R69, R76): the bits of these subsets, all at once. -/
  | switch (changes : List (SubsetId × Bool)) (k : Handler α)
  /-- Store a byte in the storage behind a register subset of the chip's own, at an offset of that subset (R69;
  log 20). -/
  | backing (u : SubsetId) (offset : Nat) (v : Byte) (k : Handler α)
  /-- `MemRead` through Memory's routing (R101, R105). -/
  | load (a : Word) (k : Byte → Handler α)
  /-- `MemWrite` through Memory's routing (R101, R105). -/
  | store (a : Word) (v : Byte) (k : Handler α)
  /-- `RequestInterrupt` (R101, 60_exceptions.md R352). -/
  | request (l : Line) (k : Handler α)
  /-- `Notify` on the chip's own notifier identity (R97). -/
  | notify (e : Event) (k : Handler α)
  /-- `observe(n)` (R94). -/
  | observe (n : ChipId) (k : Handler α)
  /-- Unregister from notifier `n` (R94). -/
  | unobserve (n : ChipId) (k : Handler α)
  deriving Inhabited

/-- The CPU state that `simulate` sees, read-only (R105, D23), whose contents the spec does not list (DESIGN CHOICE,
log 24): the registers, and the count the last step returned. `stack_anomaly` and `clk` are not in it: they are read
through the diagnostics port only (R31, R377). The request latches are in the world. -/
structure CpuView where
  a : Byte
  x : Byte
  y : Byte
  sp : Byte
  pc : Word
  p : Byte
  /-- The count the last step returned (R412: a chip may advance by it). -/
  cycles : Nat
  deriving DecidableEq, Repr

end Sys2Proof.Machine

namespace Sys2Proof

/-- `RegReadH` of a chip the spec does not describe (R68, R105, R376): any function of the chip, the offset and, by
`look`, the world, but not of the CPU state, which D23 lets handlers read (DESIGN CHOICE, log 24). No body: nothing is
known of it (log 6). -/
opaque Config.regReadH : ChipId → Nat → Machine.Handler Byte

/-- `RegWriteH` of such a chip (R69, R105; log 6); no view of the CPU state (DESIGN CHOICE, log 24). -/
opaque Config.regWriteH : ChipId → Nat → Byte → Machine.Handler Unit

/-- `EventH` of such a chip (R105; log 6): the observer, the event, the notifier; no view of the CPU state (DESIGN CHOICE,
log 24). -/
opaque Config.eventH : ChipId → Event → ChipId → Machine.Handler Unit

/-- `SimulateH` of such a chip (R103, R105; log 6), with its view of the CPU (log 24): false is an internal chip error. -/
opaque Config.simulateH : ChipId → Machine.CpuView → Machine.Handler Bool

/-- `IntTimeOK` of a platform that has timing windows (R9, R355): the line, `clk`, and the flag state `P`. No body:
nothing is known of it (log 11). -/
opaque Config.intTimeOK : Line → Nat → Byte → Bool

end Sys2Proof

namespace Sys2Proof.Machine

/-! ## Chip CFG of TP2 (95_test_vectors.md section 2.10) -/

/-- The fields of CFG's state; a state of another shape counts as CFG's state after `initialize`. -/
def cfgFields : DevState → Bool × Byte × Byte × Bool
  | .bankSwitch bank last rdcount oneshot => (bank, last, rdcount, oneshot)
  | _ => (false, 0#8, 0#8, false)

/-- CFG's read handler: offset 0 `last`; 1 `rdcount`, which then counts up; 2 `oneshot`, taken and consumed (R106);
3 zero. Section 2.10 ends at offset 3; a higher offset is taken as 3 (DESIGN CHOICE, log 9). -/
def cfgRead (me : ChipId) (offset : Nat) : Handler Byte :=
  .look fun w =>
    match cfgFields (w.dev.getD me (.words [])) with
    | (bank, last, rdcount, oneshot) =>
      match offset with
      | 0 => .ret last
      | 1 => .setOwn (.bankSwitch bank last (rdcount + 1#8) oneshot) (.ret rdcount)
      | 2 => .setOwn (.bankSwitch bank last rdcount false) (.ret (if oneshot then 1#8 else 0#8))
      | _ => .ret 0#8

/-- CFG's write handler: offset 0 sets `last` and the bank, switches the two windows and then notifies (event id 1,
payload the byte); 1 sets `rdcount`; 2 sets `oneshot`; 3 requests IRQ by bit 0 and NMI by bit 7. A higher offset,
which section 2.10 does not have, is taken as 3 (DESIGN CHOICE, log 9). -/
def cfgWrite (winA winB : SubsetId) (me : ChipId) (offset : Nat) (v : Byte) : Handler Unit :=
  .look fun w =>
    match cfgFields (w.dev.getD me (.words [])) with
    | (bank, last, rdcount, oneshot) =>
      match offset with
      | 0 =>
        .setOwn (.bankSwitch (v.getLsbD 0) v rdcount oneshot)
          (.switch [(winA, !v.getLsbD 0), (winB, v.getLsbD 0)] (.notify ⟨1, some v.toNat⟩ (.ret ())))
      | 1 => .setOwn (.bankSwitch bank last v oneshot) (.ret ())
      | 2 => .setOwn (.bankSwitch bank last rdcount (v != 0#8)) (.ret ())
      | _ =>
        let last : Handler Unit := if v.getLsbD 7 then .request .nmi (.ret ()) else .ret ()
        if v.getLsbD 0 then .request .irq last else last

/-- An observer of TP2 appends the event to its trace. -/
def recordEvent (me : ChipId) (e : Event) (n : ChipId) : Handler Unit :=
  .look fun w =>
    match w.dev.getD me (.words []) with
    | .recorder trace => .setOwn (.recorder (trace ++ [(n, e)])) (.ret ())
    | _ => .setOwn (.recorder [(n, e)]) (.ret ())

/-! ## The handler functions of a platform (R105) -/

/-- The chip of the platform; an identity the platform does not list is a chip of which nothing is known (log 6), without
private state and observer list (DESIGN CHOICE, log 29). -/
def chipModel (pl : Platform) (c : ChipId) : ChipModel := ((pl.chips[c]?).map Chip.model).getD .external

/-- `RegReadH` (R68, R105). A chip that observes only has no register: it answers 0. -/
def readHandler (pl : Platform) (c : ChipId) (offset : Nat) : Handler Byte :=
  match chipModel pl c with
  | .bankSwitch _ _ => cfgRead c offset
  | .recorder => .ret 0#8
  | .external => Config.regReadH c offset

/-- `RegWriteH` (R69, R105). -/
def writeHandler (pl : Platform) (c : ChipId) (offset : Nat) (v : Byte) : Handler Unit :=
  match chipModel pl c with
  | .bankSwitch winA winB => cfgWrite winA winB c offset v
  | .recorder => .ret ()
  | .external => Config.regWriteH c offset v

/-- `EventH` (R95, R105): observer `o` is given event `e` of notifier `n`. Section 2.10 gives CFG no event
handler; it ignores the event (DESIGN CHOICE, log 9). -/
def eventHandler (pl : Platform) (o : ChipId) (e : Event) (n : ChipId) : Handler Unit :=
  match chipModel pl o with
  | .bankSwitch _ _ => .ret ()
  | .recorder => recordEvent o e n
  | .external => Config.eventH o e n

/-- `SimulateH` (R103, R105); TP2's chips do nothing and return true. -/
def simulateHandler (pl : Platform) (c : ChipId) (v : CpuView) : Handler Bool :=
  match chipModel pl c with
  | .bankSwitch _ _ => .ret true
  | .recorder => .ret true
  | .external => Config.simulateH c v

end Sys2Proof.Machine
end

