-- ==== Sys2Proof/Machine/Bus.lean ====
section
/-! DEFINITION. The memory fabric over the world of R105: which subset answers an address (20_memory.md R63 to R65), what
an access does (R66 to R69, R74, R75), how a handler's program runs (R101) and how an event is delivered (R95 to
R100). -/

namespace Sys2Proof.Machine

/-- Why something has no next state (R13). -/
inductive Stop where
  | fault (f : Fault)
  | refusal (r : Refusal)
  deriving DecidableEq, Repr

/-- A result, or the reason there is none. -/
abbrev Res (α : Type) := Except Stop α

/-- Has the subset, with its bit of the active configuration, the address in its range? (R65) -/
def answers (a : Word) (e : Subset × Bool) : Bool :=
  e.2 && (decide (e.1.base ≤ a.toNat) && decide (a.toNat < e.1.base + e.1.size))

/-- The active subsets that contain an address, in the platform's order (the set `S` of R65). -/
def candidates (pl : Platform) (w : World) (a : Word) : List Subset :=
  ((pl.subsets.zip w.active).filter (answers a)).map Prod.fst

/-- `Resolve(a)` (R65): the one active subset that contains the address, afresh at every access; none is a fault
(R74), two or more are refused (R75). -/
def resolve (pl : Platform) (w : World) (a : Word) : Res Subset :=
  match candidates pl w a with
  | [] => .error (.fault (.noSubset a))
  | [u] => .ok u
  | _ => .error (.refusal (.ambiguousOverlap a))

/-- The index in its storage of the byte a subset shows at an address (R63, R65). -/
def viewIndex (u : Subset) (a : Word) : Nat := u.offset + (a.toNat - u.base)

/-- Reading a plain or read-only subset (R66). -/
def plainLoad (u : Subset) (a : Word) (w : World) : Res Byte :=
  match storageByte w u.storage (viewIndex u a) with
  | some v => .ok v
  | none => .error (.refusal (.subsetOutsideStorage a))

/-- Writing a plain subset (R67). -/
def plainStore (u : Subset) (a : Word) (v : Byte) (w : World) : Res World :=
  match storageByte w u.storage (viewIndex u a) with
  | some _ => .ok (putStorage w u.storage (viewIndex u a) v)
  | none => .error (.refusal (.subsetOutsideStorage a))

/-- The request latch of a line (R29). -/
def World.requested (w : World) : Line → Bool
  | .nmi => w.nmiReq
  | .irq => w.irqReq

/-- The world with the request latch of a line set to `b`: 1 by a request (R352), 0 by service (R360). -/
def World.setRequest (w : World) (l : Line) (b : Bool) : World :=
  match l with
  | .nmi => { w with nmiReq := b }
  | .irq => { w with irqReq := b }

/-- `observe(n)` by `o` (R94): appended to the list, once per relationship. A notifier that the platform does not list has
no observer list, and nothing happens (DESIGN CHOICE, log 29). -/
def World.observe (w : World) (n o : ChipId) : World :=
  { w with observers := w.observers.modify n (fun l => if l.contains o then l else l ++ [o]) }

/-- `o` unregisters from notifier `n`; the others keep their order (R94). A notifier that the platform does not list has
no observer list, and nothing happens (DESIGN CHOICE, log 29). -/
def World.unobserve (w : World) (n o : ChipId) : World :=
  { w with observers := w.observers.modify n (fun l => l.filter (fun o' => o' != o)) }

/-- A store to the storage behind a register subset `u` by chip `c`, at an offset inside the subset (R69); refused
where the subset is not the chip's own (R101; log 20). -/
def backingStore (pl : Platform) (c : ChipId) (u : SubsetId) (offset : Nat) (v : Byte) (w : World) : Res World :=
  match pl.subsets[u]? with
  | some s =>
    if s.kind = .register c ∧ offset < s.size ∧ (storageByte w s.storage (s.offset + offset)).isSome then
      .ok (putStorage w s.storage (s.offset + offset) v)
    else .error (.refusal (.foreignStorage c))
  | none => .error (.refusal (.foreignStorage c))

/-- Is the event in the platform's `EVENT_IDS` (R9, R93)? -/
def declared (pl : Platform) (e : Event) : Bool :=
  pl.eventIds.any (fun k => k.id == e.id && k.payload == e.payload.isSome)

/-! ## Admitted configurations (R75, R82) -/

/-- Do two subsets share no address? -/
def apart (u v : Subset) : Bool :=
  decide (u.base + u.size ≤ v.base) || decide (v.base + v.size ≤ u.base) || decide (u.size = 0) || decide (v.size = 0)

/-- No two active subsets share an address (R64, R75). -/
def overlapFree (pl : Platform) (w : World) : Bool :=
  decide (((pl.subsets.zip w.active).filter Prod.snd).Pairwise (fun e f => apart e.1 f.1 = true))

/-- The Stack subset is plain and the one subset that answers its whole range, `STACK_BASE` to `STACK_BASE` + 0xFF at
least (R78, R82, R405). -/
def stackRouted (pl : Platform) (w : World) : Bool :=
  match pl.subsets[pl.stackSubset]? with
  | some u =>
    u.kind == .plain &&
      (List.range (max 256 pl.params.stackSize)).all
        (fun k => candidates pl w (pl.params.stackBase + BitVec.ofNat 16 k) == [u])
  | none => false

/-- Is the configuration one that the spec gives a meaning (R75, D18; R82, D28)? -/
def admitted (pl : Platform) (w : World) : Bool := overlapFree pl w && stackRouted pl w

/-- The configuration with the bits of some subsets changed; a subset that the platform does not list has no bit, and
nothing happens (DESIGN CHOICE, log 29). -/
def setBits (active : List Bool) (changes : List (SubsetId × Bool)) : List Bool :=
  changes.foldl (fun l e => l.set e.1 e.2) active

/-- The world after a switch of the configuration (R69, R76): a changed configuration must be admitted, "under every
reachable configuration" (R82; log 17). -/
def World.switch (pl : Platform) (w : World) (changes : List (SubsetId × Bool)) : Res World :=
  let w' := { w with active := setBits w.active changes }
  if w'.active == w.active || admitted pl w' then .ok w' else .error (.refusal .inadmissibleConfiguration)

/-! ## Handlers -/

/-- The ways in which a handler reaches the rest of the machine: Memory's two accesses and the delivery of an event
of notifier `n`. -/
structure Ports where
  load : Word → World → Res (Byte × World)
  store : Word → Byte → World → Res World
  notify : ChipId → Event → World → Res World

/-- Run a handler of chip `c` to completion (R95: handlers run to completion; R101: what they may touch). An access
that fails ends it, nothing is rolled back (R99). A chip that the platform does not list has no private state: what it sets
of its own is dropped (DESIGN CHOICE, log 29). -/
def runHandler (pl : Platform) (io : Ports) (c : ChipId) {α : Type} : Handler α → World → Res (α × World)
  | .ret v, w => .ok (v, w)
  | .look k, w => runHandler pl io c (k w) w
  | .setOwn d k, w => runHandler pl io c k { w with dev := w.dev.set c d }
  | .switch changes k, w =>
    match w.switch pl changes with
    | .ok w' => runHandler pl io c k w'
    | .error e => .error e
  | .backing u offset v k, w =>
    match backingStore pl c u offset v w with
    | .ok w' => runHandler pl io c k w'
    | .error e => .error e
  | .load a k, w =>
    match io.load a w with
    | .ok (v, w') => runHandler pl io c (k v) w'
    | .error e => .error e
  | .store a v k, w =>
    match io.store a v w with
    | .ok w' => runHandler pl io c k w'
    | .error e => .error e
  | .request l k, w => runHandler pl io c k (w.setRequest l true)
  | .notify e k, w =>
    if declared pl e then
      match io.notify c e w with
      | .ok w' => runHandler pl io c k w'
      | .error e' => .error e'
    else .error (.refusal (.undeclaredEvent e))
  | .observe n k, w => runHandler pl io c k (w.observe n c)
  | .unobserve n k, w => runHandler pl io c k (w.unobserve n c)

/-- `MemRead(a, 1)` (R65): a register subset's owner answers (R68), with the offset of the address in the subset. -/
def routedLoad (pl : Platform) (io : Ports) (a : Word) (w : World) : Res (Byte × World) :=
  match resolve pl w a with
  | .error e => .error e
  | .ok u =>
    match u.kind with
    | .register c => runHandler pl io c (readHandler pl c (a.toNat - u.base)) w
    | .plain | .readonly =>
      match plainLoad u a w with
      | .ok v => .ok (v, w)
      | .error e => .error e

/-- `MemWrite(a, 1, v)` (R65): discarded by a read-only subset (R67), handled by a register subset's owner (R69). -/
def routedStore (pl : Platform) (io : Ports) (a : Word) (v : Byte) (w : World) : Res World :=
  match resolve pl w a with
  | .error e => .error e
  | .ok u =>
    match u.kind with
    | .register c =>
      match runHandler pl io c (writeHandler pl c (a.toNat - u.base) v) w with
      | .ok (_, w') => .ok w'
      | .error e => .error e
    | .readonly => .ok w
    | .plain => plainStore u a v w

/-- Deliver event `e` of notifier `n` to a list of observers, each handler to completion before the next (R95). -/
def deliver (pl : Platform) (io : Ports) (n : ChipId) (e : Event) : List ChipId → World → Res World
  | [], w => .ok w
  | o :: rest, w =>
    match runHandler pl io o (eventHandler pl o e n) w with
    | .ok (_, w') => deliver pl io n e rest w'
    | .error err => .error err

/-- `Notify(n, e)` (R95): to the observers registered when it begins (R98), in registration order; to none where the
platform does not list `n` (DESIGN CHOICE, log 29). -/
def notifyAll (pl : Platform) (io : Ports) (n : ChipId) (e : Event) (w : World) : Res World :=
  deliver pl io n e (w.observers.getD n []) w

/-- The ports of a handler below which at most `depth` more handlers are followed; none at depth 0 (R97; log 7). -/
def ports (pl : Platform) : Nat → Ports
  | 0 =>
    { load := fun _ _ => .error (.refusal .handlerNesting)
      store := fun _ _ _ => .error (.refusal .handlerNesting)
      notify := fun _ _ _ => .error (.refusal .handlerNesting) }
  | depth + 1 =>
    { load := routedLoad pl (ports pl depth)
      store := routedStore pl (ports pl depth)
      notify := notifyAll pl (ports pl depth) }

/-! ## Nesting to any depth (R97) -/

/-- Has a result been reached within the depth followed? -/
def reached {α : Type} : Res α → Bool
  | .error (.refusal .handlerNesting) => false
  | _ => true

/-- The first result reached as the depth grows from `depth` on; none where the nesting never ends. -/
def searchDepth {α : Type} (f : Nat → Res α) (depth : Nat) : Option (Res α) :=
  if reached (f depth) then some (f depth) else searchDepth f (depth + 1)
partial_fixpoint

/-- The result of `f` at a depth that is deep enough: R97 bounds the nesting nowhere. Nesting that never ends is refused
(R97). Depth 8 is looked at first, which only shortens an evaluation (`nested_of_reached`; log 7). -/
def nested {α : Type} (f : Nat → Res α) : Res α :=
  match f 8 with
  | .error (.refusal .handlerNesting) => (searchDepth f 9).getD (.error (.refusal .handlerNesting))
  | r => r

/-- `MemRead(a, 1)` (R65) in a world, its handlers nested as deep as they go. -/
def worldLoad (pl : Platform) (a : Word) (w : World) : Res (Byte × World) :=
  nested fun depth => routedLoad pl (ports pl depth) a w

/-- `MemWrite(a, 1, v)` (R65) in a world, its handlers nested as deep as they go. -/
def worldStore (pl : Platform) (a : Word) (v : Byte) (w : World) : Res World :=
  nested fun depth => routedStore pl (ports pl depth) a v w

/-- A handler of chip `c` that the driver runs (R103), other handlers nested in it as deep as they go. -/
def worldHandler (pl : Platform) (c : ChipId) {α : Type} (h : Handler α) (w : World) : Res (α × World) :=
  nested fun depth => runHandler pl (ports pl depth) c h w

/-! ## What memory shows -/

/-- The byte an address shows, where the access would have no side effect: no register subset (R66). It is a device
for saying what memory holds; no instruction uses it. -/
def peekByte (pl : Platform) (w : World) (a : Word) : Option Byte :=
  match resolve pl w a with
  | .ok u =>
    match u.kind with
    | .register _ => none
    | .plain | .readonly => storageByte w u.storage (viewIndex u a)
  | .error _ => none

/-- The storage byte behind an address, where the access would have no side effect: its storage and its index. Two
addresses show the same byte exactly when this is the same for both (R63: subsets are views). -/
def locate (pl : Platform) (w : World) (a : Word) : Option (StorageId × Nat) :=
  match resolve pl w a with
  | .ok u =>
    match u.kind with
    | .register _ => none
    | .plain | .readonly => some (u.storage, viewIndex u a)
  | .error _ => none

end Sys2Proof.Machine
end

