-- ==== Sys2Proof/Machine/Flags.lean ====
section
/-! DEFINITION. Register updates, the status register (10_state.md R24 to R28), and the ALU (00_scope.md R12,
42_logic_arith_compare.md R220 to R226, 43_shift_rmw.md R250 to R255). -/

namespace Sys2Proof.Machine

/-! ## Register updates -/

/-- `A <- v`. -/
def State.setA (s : State) (v : Byte) : State := { s with a := v }
/-- `X <- v`. -/
def State.setX (s : State) (v : Byte) : State := { s with x := v }
/-- `Y <- v`. -/
def State.setY (s : State) (v : Byte) : State := { s with y := v }
/-- `SP <- v`. -/
def State.setSp (s : State) (v : Byte) : State := { s with sp := v }
/-- `PC <- v`. -/
def State.setPc (s : State) (v : Word) : State := { s with pc := v }
/-- `stack_anomaly <- stack_anomaly or b` (R31: never cleared here). -/
def State.noteAnomaly (s : State) (b : Bool) : State := { s with stackAnomaly := s.stackAnomaly || b }
/-- `cycles += n` (R130). -/
def State.addCycles (s : State) (n : Nat) : State := { s with cycles := s.cycles + n }
/-- The state with another world. -/
def State.setWorld (s : State) (w : World) : State := { s with world := w }
/-- `jam_now <- true` (R334). -/
def State.setJam (s : State) : State := { s with jamNow := true }

/-! ## The status register -/

/-- The seven named flags (R24). -/
inductive Flag where
  | c | z | i | d | b | v | n
  deriving DecidableEq, Repr

/-- The bit of `P` that a flag occupies (R24). -/
def flagBit : Flag → Nat
  | .c => 0 | .z => 1 | .i => 2 | .d => 3 | .b => 4 | .v => 6 | .n => 7

/-- One flag of a status byte. -/
def getFlag (p : Byte) (f : Flag) : Bool := p.getLsbD (flagBit f)

/-- A status byte with one flag written alone (R24). -/
def putFlag (p : Byte) (f : Flag) (v : Bool) : Byte :=
  if v then p ||| (1#8 <<< flagBit f) else p &&& ~~~(1#8 <<< flagBit f)

/-- `P.f` (R11). -/
def State.flag (s : State) (f : Flag) : Bool := getFlag s.p f

/-- `P.f <- v` (R11). -/
def State.setFlag (s : State) (f : Flag) (v : Bool) : State := { s with p := putFlag s.p f v }

/-- `P <- v | 0x20`: the pulled byte, with bit 5 as it always reads (R27, R284, R331). -/
def State.loadStatus (s : State) (v : Byte) : State := { s with p := v ||| 0x20#8 }

/-- The status byte that PHP and BRK push: `P | 0x30` (R290, R330). -/
def pushedByProgram (p : Byte) : Byte := p ||| 0x30#8

/-- The status byte that interrupt service pushes: `(P and 0xEF) or 0x20` (R360). -/
def pushedByInterrupt (p : Byte) : Byte := (p &&& 0xEF#8) ||| 0x20#8

/-- `SetNZ(v)` (R26) on a status byte. -/
def putNZ (p : Byte) (v : Byte) : Byte := putFlag (putFlag p .n (v.getLsbD 7)) .z (v == 0#8)

/-- `SetNZ(v)` (R26). -/
def State.setNZ (s : State) (v : Byte) : State := { s with p := putNZ s.p v }

/-! ## Addition and subtraction -/

/-- What `ADD8` returns (R12). -/
structure AluResult where
  r : Byte
  carry : Bool
  overflow : Bool
  zero : Bool
  negative : Bool
  deriving DecidableEq, Repr

/-- `ADD8(a, b, c)` (R12): the exact 9-bit sum `t`, its low 8 bits `r`, and the four conditions. -/
def add8 (a b : Byte) (c : Bool) : AluResult :=
  let t := a.toNat + b.toNat + c.toNat
  let r := BitVec.ofNat 8 t
  { r := r
    carry := t.testBit 8
    overflow := ((~~~(a ^^^ b)) &&& (a ^^^ r)).getLsbD 7
    zero := r == 0#8
    negative := r.getLsbD 7 }

/-- `SUB8(a, b, c)` (R12): `a - b - (1 - c)`; carry 1 means no borrow. -/
def sub8 (a b : Byte) (c : Bool) : AluResult := add8 a (~~~b) c

/-- `ADC_decimal(m)` (R226 (b)). -/
def addDecimal (a m : Byte) (c : Bool) : AluResult :=
  let bin := a.toNat + m.toNat + c.toNat
  let low := a.toNat % 16 + m.toNat % 16 + c.toNat
  let al := if low ≥ 0x0A then (low + 0x06) % 16 + 0x10 else low
  let t := (a &&& 0xF0#8).toNat + (m &&& 0xF0#8).toNat + al
  let fixed := if t ≥ 0xA0 then t + 0x60 else t
  { r := BitVec.ofNat 8 fixed
    carry := decide (fixed ≥ 0x100)
    overflow := ((~~~(a ^^^ m)) &&& (a ^^^ BitVec.ofNat 8 t)).getLsbD 7
    zero := bin % 256 == 0
    negative := t.testBit 7 }

/-- `SBC_decimal(m)` (R226 (b)): the flags are those of binary SBC. -/
def subDecimal (a m : Byte) (c : Bool) : AluResult :=
  let low : Int := (a.toNat % 16 : Nat) - (m.toNat % 16 : Nat) + (c.toNat : Nat) - 1
  let al : Int := if low < 0 then (low - 0x06) % 16 - 0x10 else low
  let t : Int := ((a &&& 0xF0#8).toNat : Int) - ((m &&& 0xF0#8).toNat : Int) + al
  let fixed : Int := if t < 0 then t - 0x60 else t
  { sub8 a m c with r := BitVec.ofInt 8 fixed }

/-- The status byte after ADC or SBC: C, V, Z, N of the result (R225, R227). -/
def putArith (p : Byte) (r : AluResult) : Byte :=
  putFlag (putFlag (putFlag (putFlag p .c r.carry) .v r.overflow) .z r.zero) .n r.negative

/-- `A <- r` and the four flags (R225, R226, R227). -/
def State.setArith (s : State) (r : AluResult) : State := { s with a := r.r, p := putArith s.p r }

/-- The status byte after a comparison of register `r` with operand `m`: C, Z, N of `SUB8(r, m, 1)` (R229). -/
def putCompare (p : Byte) (r m : Byte) : Byte :=
  let t := sub8 r m true
  putFlag (putFlag (putFlag p .c t.carry) .z t.zero) .n t.negative

/-- A comparison (R229 to R231): flags only. -/
def State.compare (s : State) (r m : Byte) : State := { s with p := putCompare s.p r m }

/-- The status byte after BIT (R233): Z of `A & m`, N and V the bits 7 and 6 of the operand. -/
def putBit (p : Byte) (a m : Byte) : Byte :=
  putFlag (putFlag (putFlag p .z ((a &&& m) == 0#8)) .n (m.getLsbD 7)) .v (m.getLsbD 6)

/-! ## Functions of the read-modify-write instructions: the result, and the status byte after it -/

/-- ASL (R250). -/
def aslF (p v : Byte) : Byte × Byte :=
  let r := v <<< 1
  (r, putNZ (putFlag p .c (v.getLsbD 7)) r)

/-- LSR (R251). -/
def lsrF (p v : Byte) : Byte × Byte :=
  let r := v >>> 1
  (r, putNZ (putFlag p .c (v.getLsbD 0)) r)

/-- ROL (R252): the old carry enters at bit 0. -/
def rolF (p v : Byte) : Byte × Byte :=
  let r := (v <<< 1) ||| (if getFlag p .c then 0x01#8 else 0x00#8)
  (r, putNZ (putFlag p .c (v.getLsbD 7)) r)

/-- ROR (R253): the old carry enters at bit 7. -/
def rorF (p v : Byte) : Byte × Byte :=
  let r := (v >>> 1) ||| (if getFlag p .c then 0x80#8 else 0x00#8)
  (r, putNZ (putFlag p .c (v.getLsbD 0)) r)

/-- INC (R254). -/
def incF (p v : Byte) : Byte × Byte := (v + 1#8, putNZ p (v + 1#8))

/-- DEC (R255). -/
def decF (p v : Byte) : Byte × Byte := (v - 1#8, putNZ p (v - 1#8))

/-- `P <- p`, a status byte computed from `P` by one of the functions above. -/
def State.setP (s : State) (p : Byte) : State := { s with p := p }

end Sys2Proof.Machine
end

