-- ==== Sys2Proof/Machine/Ops.lean ====
section
/-! DEFINITION. The named operations of 00_scope.md R11 over the whole machine: memory accesses, the stack, entering an
exception and returning from one. -/

namespace Sys2Proof.Machine

/-! ## Memory (R65, R70, R71) -/

/-- `MemRead(a, 1)` (R65), with the side effects of R68. -/
def memRead (s : State) (a : Word) : Res (Byte × State) :=
  match worldLoad s.plat a s.world with
  | .ok (v, w) => .ok (v, s.setWorld w)
  | .error e => .error e

/-- `MemWrite(a, 1, v)` (R65), with the side effects of R69. -/
def memWrite (s : State) (a : Word) (v : Byte) : Res State :=
  match worldStore s.plat a v s.world with
  | .ok w => .ok (s.setWorld w)
  | .error e => .error e

/-- Two `MemRead`s, low byte first, then `hi ++ lo` (R71); the address of the high byte is the caller's. -/
def memReadPair (s : State) (aLo aHi : Word) : Res (Word × State) := do
  let (lo, s) ← memRead s aLo
  let (hi, s) ← memRead s aHi
  pure (wordOf hi lo, s)

/-- `MemRead(a, 2)` (R71). -/
def memRead2 (s : State) (a : Word) : Res (Word × State) := memReadPair s a (a + 1#16)

/-- `values(address, length)` (R70): single-byte reads in ascending order. -/
def memValues (s : State) (a : Word) : Nat → Res (List Byte × State)
  | 0 => .ok ([], s)
  | n + 1 => do
    let (v, s) ← memRead s a
    let (vs, s) ← memValues s (a + 1#16) n
    pure (v :: vs, s)

/-- `set(address, bytes)` (R70): single-byte writes in ascending order. -/
def memSet (s : State) (a : Word) : List Byte → Res State
  | [] => .ok s
  | v :: vs => do
    let s ← memWrite s a v
    memSet s (a + 1#16) vs

/-- What memory shows at an address without side effect; none at a register subset or where nothing answers. -/
def State.peek (s : State) (a : Word) : Option Byte := peekByte s.plat s.world a

/-- The storage byte behind an address of plain or read-only memory. -/
def State.locate (s : State) (a : Word) : Option (StorageId × Nat) := Machine.locate s.plat s.world a

/-! ## The stack (R78 to R83) -/

/-- `STACK_BASE + SP` (R21, R79). -/
def State.stackAddr (s : State) (sp : Byte) : Word := s.plat.params.stackBase + zext16 sp

/-- `Push8(v)` (R79). -/
def push8 (s : State) (v : Byte) : Res State := do
  let s ← memWrite s (s.stackAddr s.sp) v
  pure ((s.noteAnomaly (s.sp == 0x00#8)).setSp (s.sp - 1#8))

/-- `Pull8()` (R80). -/
def pull8 (s : State) : Res (Byte × State) :=
  let s := (s.noteAnomaly (s.sp == 0xFF#8)).setSp (s.sp + 1#8)
  memRead s (s.stackAddr s.sp)

/-- `Push16(w)` (R81): high byte first. -/
def push16 (s : State) (w : Word) : Res State := do
  let s ← push8 s (hiByte w)
  push8 s (loByte w)

/-- `Pull16()` (R81): low byte first. -/
def pull16 (s : State) : Res (Word × State) := do
  let (lo, s) ← pull8 s
  let (hi, s) ← pull8 s
  pure (wordOf hi lo, s)

/-! ## Exceptions (R330, R360 to R365, R331) -/

/-- Entering an exception (R360, R330, R361): push the return address, high byte first, then a status byte; set I if
`setI`; load `PC` from a vector, low byte first (R363). BRK, IRQ and NMI all enter so. -/
def enterException (s : State) (ret : Word) (status : Byte) (setI : Bool) (vector : Word) : Res State := do
  let s ← push16 s ret
  let s ← push8 s status
  let s := if setI then s.setFlag .i true else s
  let (target, s) ← memRead2 s vector
  pure (s.setPc target)

/-- Returning from an exception (R331, R366): pull the status, then the return address; no increment. -/
def returnFromException (s : State) : Res State := do
  let (v, s) ← pull8 s
  let s := s.loadStatus v
  let (target, s) ← pull16 s
  pure (s.setPc target)

/-! ## Outcomes -/

/-- What an instruction or a step answers. -/
abbrev Out := Host.Outcome State Fault Refusal

/-- The outcome of an instruction or a step (R13). -/
def outcome : Res State → Out
  | .ok s => .next s
  | .error (.fault f) => .fault f
  | .error (.refusal r) => .refused r

end Sys2Proof.Machine
end

