-- ==== Sys2Proof/Machine/Operands.lean ====
section
/-! DEFINITION. The addressing-mode resolver (40_addressing_modes.md R160 to R175) and the operand access classes
(R173, 43_shift_rmw.md R260). -/

namespace Sys2Proof.Machine

/-- An effective address with its `crossed` flag (R160). -/
structure EffAddr where
  addr : Word
  crossed : Bool
  deriving DecidableEq, Repr

/-- `base` indexed by the unsigned byte `r`: the sum modulo 65536, and whether it left the page of `base`
(R167, R172). -/
def indexed (base : Word) (r : Byte) : EffAddr :=
  { addr := base + zext16 r, crossed := hiByte base != hiByte (base + zext16 r) }

/-- The word at a zero-page pointer `z`, which wraps inside the zero page (R168, R169). -/
def zeroPagePointer (s : State) (z : Byte) : Res (Word × State) :=
  memReadPair s (zext16 z) (zext16 (z + 1#8))

/-- The mode accessor of a memory operand (R163 to R169). It changes no CPU register and writes no memory; the
indirect modes read memory. -/
def effAddr (s : State) : MemOperand → Res (EffAddr × State)
  | .zp a => .ok (⟨zext16 a, false⟩, s)
  | .zpx a => .ok (⟨zext16 (a + s.x), false⟩, s)
  | .zpy a => .ok (⟨zext16 (a + s.y), false⟩, s)
  | .abs w => .ok (⟨w, false⟩, s)
  | .abx w => .ok (indexed w s.x, s)
  | .aby w => .ok (indexed w s.y, s)
  | .izx a => do
    let (ea, s) ← zeroPagePointer s (a + s.x)
    pure (⟨ea, false⟩, s)
  | .izy a => do
    let (base, s) ← zeroPagePointer s a
    pure (indexed base s.y, s)

/-- `LoadOperand` for a memory operand (R173): the penalty cycle where the template pays it, then one `MemRead`. -/
def loadMem (s : State) (m : MemOperand) : Res (Byte × State) := do
  let (ea, s) ← effAddr s m
  let s := if ea.crossed && s.pagePenalty then s.addCycles 1 else s
  memRead s ea.addr

/-- `LoadOperand` of a read-class instruction (R173, R162). -/
def loadOperand (s : State) : Operand → Res (Byte × State)
  | .imm v => .ok (v, s)
  | .mem m => loadMem s m

/-- `StoreOperand` of a store-class instruction (R173): exactly one `MemWrite`. -/
def storeOperand (s : State) (m : MemOperand) (v : Byte) : Res State := do
  let (ea, s) ← effAddr s m
  memWrite s ea.addr v

/-- `RMW` (R260): one read, the function on the value and the status byte, one write of the result. -/
def modifyMem (s : State) (m : MemOperand) (f : Byte → Byte → Byte × Byte) : Res State := do
  let (ea, s) ← effAddr s m
  let (v, s) ← memRead s ea.addr
  let r := f s.p v
  memWrite (s.setP r.2) ea.addr r.1

/-- A shift or rotate in place (R260): the accumulator form touches no memory. -/
def modifyShift (s : State) (f : Byte → Byte → Byte × Byte) : ShiftOperand → Res State
  | .acc => .ok ((s.setA (f s.p s.a).1).setP (f s.p s.a).2)
  | .mem m => modifyMem s m f

/-- The target of mode `ind` (R171): the high byte is read from the page of the pointer. -/
def indirectTarget (s : State) (ptr : Word) : Res (Word × State) :=
  memReadPair s ptr (wordOf (hiByte ptr) (loByte ptr + 1#8))

/-- The target of mode `rel` (R170); `PC` is the address of the next instruction. -/
def relTarget (pc : Word) (off : Byte) : Word := pc + sext16 off

end Sys2Proof.Machine
end

