-- ==== Sys2Proof/Machine/Arithmetic.lean ====
section
/-! DEFINITION. Logic, arithmetic and compare instructions (42_logic_arith_compare.md). -/

namespace Sys2Proof.Machine

/-- AND (R224). -/
def execAnd (o : Operand) (s : State) : Out := outcome do
  let (m, s) ← loadOperand s o
  pure ((s.setA (s.a &&& m)).setNZ (s.a &&& m))

/-- ORA (R228). -/
def execOra (o : Operand) (s : State) : Out := outcome do
  let (m, s) ← loadOperand s o
  pure ((s.setA (s.a ||| m)).setNZ (s.a ||| m))

/-- EOR (R232). -/
def execEor (o : Operand) (s : State) : Out := outcome do
  let (m, s) ← loadOperand s o
  pure ((s.setA (s.a ^^^ m)).setNZ (s.a ^^^ m))

/-- BIT (R233): flags only; N and V come from the operand, not from the result. -/
def execBit (o : MemOperand) (s : State) : Out := outcome do
  let (m, s) ← loadMem s o
  pure (s.setP (putBit s.p s.a m))

/-- ADC (R225); with `P.D` = 1 as `DecimalArith` says (R226). -/
def execAdc (o : Operand) (s : State) : Out := outcome do
  let (m, s) ← loadOperand s o
  if s.flag .d then
    match s.plat.params.decimalArith with
    | .refuse => .error (.refusal .decimalMode)
    | .nmos6502 => pure (s.setArith (addDecimal s.a m (s.flag .c)))
  else pure (s.setArith (add8 s.a m (s.flag .c)))

/-- SBC (R227); with `P.D` = 1 as `DecimalArith` says (R226). -/
def execSbc (o : Operand) (s : State) : Out := outcome do
  let (m, s) ← loadOperand s o
  if s.flag .d then
    match s.plat.params.decimalArith with
    | .refuse => .error (.refusal .decimalMode)
    | .nmos6502 => pure (s.setArith (subDecimal s.a m (s.flag .c)))
  else pure (s.setArith (sub8 s.a m (s.flag .c)))

/-- CMP (R229): flags only; `P.C` on entry and `P.D` are ignored. -/
def execCmp (o : Operand) (s : State) : Out := outcome do
  let (m, s) ← loadOperand s o
  pure (s.compare s.a m)

/-- CPX (R230): flags only; `P.C` on entry and `P.D` are ignored. -/
def execCpx (o : Operand) (s : State) : Out := outcome do
  let (m, s) ← loadOperand s o
  pure (s.compare s.x m)

/-- CPY (R231): flags only; `P.C` on entry and `P.D` are ignored. -/
def execCpy (o : Operand) (s : State) : Out := outcome do
  let (m, s) ← loadOperand s o
  pure (s.compare s.y m)

end Sys2Proof.Machine
end

