-- ==== Sys2Proof/Machine/Control.lean ====
section
/-! DEFINITION. Control transfer (45_control_transfer.md). -/

namespace Sys2Proof.Machine

/-- JMP absolute (R300). -/
def execJmpAbs (target : Word) (s : State) : Out := .next (s.setPc target)

/-- JMP indirect (R301, R171). -/
def execJmpInd (ptr : Word) (s : State) : Out := outcome do
  let (target, s) ← indirectTarget s ptr
  pure (s.setPc target)

/-- JSR (R302): pushes the address of its own last byte. -/
def execJsr (target : Word) (s : State) : Out := outcome do
  let s ← push16 s (s.pc - 1#16)
  pure (s.setPc target)

/-- RTS (R303). -/
def execRts (s : State) : Out := outcome do
  let (w, s) ← pull16 s
  pure (s.setPc (w + 1#16))

/-- The common rule of the eight branches (R304): one cycle for being taken, one more for leaving the page of the next
instruction. -/
def branch (s : State) (cond : Bool) (off : Byte) : State :=
  if cond then
    let target := relTarget s.pc off
    let s := s.addCycles 1
    let s := if hiByte target != hiByte s.pc then s.addCycles 1 else s
    s.setPc target
  else s

/-- BPL (R305). -/
def execBpl (off : Byte) (s : State) : Out := .next (branch s (!s.flag .n) off)

/-- BMI (R306). -/
def execBmi (off : Byte) (s : State) : Out := .next (branch s (s.flag .n) off)

/-- BVC (R307). -/
def execBvc (off : Byte) (s : State) : Out := .next (branch s (!s.flag .v) off)

/-- BVS (R308). -/
def execBvs (off : Byte) (s : State) : Out := .next (branch s (s.flag .v) off)

/-- BCC (R309). -/
def execBcc (off : Byte) (s : State) : Out := .next (branch s (!s.flag .c) off)

/-- BCS (R310). -/
def execBcs (off : Byte) (s : State) : Out := .next (branch s (s.flag .c) off)

/-- BNE (R311). -/
def execBne (off : Byte) (s : State) : Out := .next (branch s (!s.flag .z) off)

/-- BEQ (R312). -/
def execBeq (off : Byte) (s : State) : Out := .next (branch s (s.flag .z) off)

end Sys2Proof.Machine
end

