-- ==== Sys2Proof/Machine/LoadStore.lean ====
section
/-! DEFINITION. Loads, stores and register transfers (41_load_store_transfer.md). -/

namespace Sys2Proof.Machine

/-- LDA (R190). -/
def execLda (o : Operand) (s : State) : Out := outcome do
  let (v, s) ← loadOperand s o
  pure ((s.setA v).setNZ v)

/-- LDX (R191). -/
def execLdx (o : Operand) (s : State) : Out := outcome do
  let (v, s) ← loadOperand s o
  pure ((s.setX v).setNZ v)

/-- LDY (R192). -/
def execLdy (o : Operand) (s : State) : Out := outcome do
  let (v, s) ← loadOperand s o
  pure ((s.setY v).setNZ v)

/-- STA (R193): one write; the old byte is not read, no flag changes. -/
def execSta (m : MemOperand) (s : State) : Out := outcome (storeOperand s m s.a)

/-- STX (R194): one write; the old byte is not read, no flag changes. -/
def execStx (m : MemOperand) (s : State) : Out := outcome (storeOperand s m s.x)

/-- STY (R195): one write; the old byte is not read, no flag changes. -/
def execSty (m : MemOperand) (s : State) : Out := outcome (storeOperand s m s.y)

/-- TAX (R196). -/
def execTax (s : State) : Out := .next ((s.setX s.a).setNZ s.a)

/-- TAY (R197). -/
def execTay (s : State) : Out := .next ((s.setY s.a).setNZ s.a)

/-- TXA (R198). -/
def execTxa (s : State) : Out := .next ((s.setA s.x).setNZ s.x)

/-- TYA (R199). -/
def execTya (s : State) : Out := .next ((s.setA s.y).setNZ s.y)

/-- TSX (R200). -/
def execTsx (s : State) : Out := .next ((s.setX s.sp).setNZ s.sp)

/-- TXS (R201): no flag changes, and it is no push or pull. -/
def execTxs (s : State) : Out := .next (s.setSp s.x)

end Sys2Proof.Machine
end

