-- ==== Sys2Proof/Machine/Shift.lean ====
section
/-! DEFINITION. Shifts, rotates, increments and decrements (43_shift_rmw.md). -/

namespace Sys2Proof.Machine

/-- ASL (R250, R260). -/
def execAsl (o : ShiftOperand) (s : State) : Out := outcome (modifyShift s aslF o)

/-- LSR (R251, R260). -/
def execLsr (o : ShiftOperand) (s : State) : Out := outcome (modifyShift s lsrF o)

/-- ROL (R252, R260). -/
def execRol (o : ShiftOperand) (s : State) : Out := outcome (modifyShift s rolF o)

/-- ROR (R253, R260). -/
def execRor (o : ShiftOperand) (s : State) : Out := outcome (modifyShift s rorF o)

/-- INC (R254, R260). -/
def execInc (m : MemOperand) (s : State) : Out := outcome (modifyMem s m incF)

/-- DEC (R255, R260). -/
def execDec (m : MemOperand) (s : State) : Out := outcome (modifyMem s m decF)

/-- INX (R256). -/
def execInx (s : State) : Out := .next ((s.setX (s.x + 1#8)).setNZ (s.x + 1#8))

/-- INY (R257). -/
def execIny (s : State) : Out := .next ((s.setY (s.y + 1#8)).setNZ (s.y + 1#8))

/-- DEX (R258). -/
def execDex (s : State) : Out := .next ((s.setX (s.x - 1#8)).setNZ (s.x - 1#8))

/-- DEY (R259). -/
def execDey (s : State) : Out := .next ((s.setY (s.y - 1#8)).setNZ (s.y - 1#8))

end Sys2Proof.Machine
end

