-- ==== Sys2Proof/Machine/StackFlags.lean ====
section
/-! DEFINITION. Stack and flag instructions (44_stack_flags.md). -/

namespace Sys2Proof.Machine

/-- PHA (R282). -/
def execPha (s : State) : Out := outcome (push8 s s.a)

/-- PHP (R290): the pushed copy has bits 5 and 4 set, `P` does not change. -/
def execPhp (s : State) : Out := outcome (push8 s (pushedByProgram s.p))

/-- PLA (R283). -/
def execPla (s : State) : Out := outcome do
  let (v, s) ← pull8 s
  pure ((s.setA v).setNZ v)

/-- PLP (R284): every named flag from the pulled byte, the stored Break bit among them (R28). -/
def execPlp (s : State) : Out := outcome do
  let (v, s) ← pull8 s
  pure (s.loadStatus v)

/-- CLC (R280). -/
def execClc (s : State) : Out := .next (s.setFlag .c false)

/-- SEC (R281). -/
def execSec (s : State) : Out := .next (s.setFlag .c true)

/-- CLI (R285). -/
def execCli (s : State) : Out := .next (s.setFlag .i false)

/-- SEI (R286). -/
def execSei (s : State) : Out := .next (s.setFlag .i true)

/-- CLD (R287). -/
def execCld (s : State) : Out := .next (s.setFlag .d false)

/-- SED (R288). -/
def execSed (s : State) : Out := .next (s.setFlag .d true)

/-- CLV (R289). -/
def execClv (s : State) : Out := .next (s.setFlag .v false)

end Sys2Proof.Machine
end

