-- ==== Sys2Proof/Machine/System.lean ====
section
/-! DEFINITION. System instructions, the undefined instruction, the jam (46_system_undefined_jam.md). -/

namespace Sys2Proof.Machine

/-- BRK (R330): enters an exception through `VEC_IRQ`; the return address skips the byte after it. -/
def execBrk (s : State) : Out :=
  outcome (enterException s (s.pc + 1#16) (pushedByProgram s.p) true s.plat.params.vecIrq)

/-- RTI (R331). -/
def execRti (s : State) : Out := outcome (returnFromException s)

/-- NOP (R332). -/
def execNop (s : State) : Out := .next s

/-- The undefined instruction (R333): the fetch has consumed its bytes, nothing else happens. -/
def execUndef (_op : Byte) (_params : List Byte) (s : State) : Out := .next s

/-- The jam (R334): back to the jam byte, and the step learns that it jammed. -/
def execJam (s : State) : Out := .next ((s.setPc (s.pc - 1#16)).setJam)

end Sys2Proof.Machine
end

