-- ==== Sys2Proof/Machine/Interrupt.lean ====
section
/-! DEFINITION. Interrupt service and the poll (60_exceptions.md R352 to R365). -/

namespace Sys2Proof.Machine

/-- The vector of a line (R351). -/
def lineVector (pr : Params) : Line → Word
  | .nmi => pr.vecNmi
  | .irq => pr.vecIrq

/-- `IntTimeOK` (R9, R355). -/
def inTime (s : State) (l : Line) : Bool :=
  match s.plat.params.intTime with
  | .always => true
  | .windowed => Config.intTimeOK l s.clk s.p

/-- `Eligible(line)` (R355): requested, unmasked (NMI always is), and in time. -/
def eligible (s : State) (l : Line) : Bool :=
  s.world.requested l && (l == .nmi || !s.flag .i) && inTime s l

/-- `Service(line)` (R360): the context save and the vector, then the line is Idle again, and the cycles (R364). -/
def service (s : State) (l : Line) : Res State := do
  let s ← enterException s s.pc (pushedByInterrupt s.p) (l == .irq || s.plat.params.nmiSetsI) (lineVector s.plat.params l)
  pure ((s.setWorld (s.world.setRequest l false)).addCycles s.plat.params.intCycles)

/-- `PollInterrupts()` (R357): at most one line, NMI before IRQ. -/
def pollInterrupts (s : State) : Res State :=
  if eligible s .nmi then service s .nmi
  else if eligible s .irq then service s .irq
  else .ok s

end Sys2Proof.Machine
end

