-- ==== Sys2Proof/Machine/Fetch.lean ====
section
/-! DEFINITION. The parts of a CPU step around `Execute` (30_encoding.md R122, R130), and the loading of an instruction
where the next step fetches it. -/

namespace Sys2Proof.Machine

/-- The parameter bytes of template `t`, which `n` bytes at `PC` selected, in ascending order (R122). -/
def fetchParams (s : State) (t : Template) (n : Nat) : Res ((Template × List Byte) × State) := do
  let (ps, s) ← memValues s (s.pc + BitVec.ofNat 16 n) (t.length - n)
  pure ((t, ps), s)

/-- `Fetch()` (R122): the opcode, or a prefix and the opcode (R121), then the parameter bytes in ascending order; answers
the template and the parameter bytes. `PC` does not move. -/
def fetch (s : State) : Res ((Template × List Byte) × State) := do
  let (op, s) ← memRead s s.pc
  match s.plat.params.prefixOf op with
  | none => fetchParams s (optable s.plat.params op) 1
  | some x => do
    let (op1, s) ← memRead s (s.pc + 1#16)
    fetchParams s (x.template op1) 2

/-- The state in which `Execute` begins (R130, R22): `PC` past the instruction, its base cycles counted, no
jam; and the template's `page_penalty`, which `LoadOperand` looks at (R173). -/
def beginExecute (s : State) (t : Template) : State :=
  { s with
    pc := s.pc + BitVec.ofNat 16 t.length
    cycles := t.cycles
    jamNow := false
    pagePenalty := t.pagePenalty }

/-- The state that a step leaves (R130): `clk` has grown by the step's cycles, and nothing of the bound instruction is
left (R34), nor of the jam it may have been (R35: the jam is not stored). -/
def State.closeStep (s : State) : State :=
  { s with
    clk := s.clk + s.cycles
    jamNow := false
    pagePenalty := false }

/-- The end of a step (R130): the poll, but not after a jam that blocks it; then the clock. -/
def endStep (s : State) : Res State := do
  let s ← (if s.jamNow && s.plat.params.jamBlocksInterrupts then .ok s else pollInterrupts s)
  pure s.closeStep

/-- What a step answers once `Execute` has answered (R13, R130). -/
def finishStep : Out → Out
  | .next s => outcome (endStep s)
  | .fault f => .fault f
  | .refused r => .refused r

/-- The world with a byte placed in the storage behind an address of plain or read-only memory. -/
def placeByte (s : State) (a : Word) (v : Byte) : State :=
  match s.locate a with
  | some (id, k) => s.setWorld (putStorage s.world id k v)
  | none => s

/-- Bytes placed at ascending addresses. -/
def placeBytes (s : State) (a : Word) : List Byte → State
  | [] => s
  | v :: vs => placeBytes (placeByte s a v) (a + 1#16) vs

end Sys2Proof.Machine
end

