-- ==== Sys2Proof/Machine/Step.lean ====
section
/-! DEFINITION. One CPU step, `executeInstruction()` (30_encoding.md R130). -/

namespace Sys2Proof.Machine

/-- `Step()` (R130): fetch, advance `PC`, execute, poll. -/
def step (s : State) : Host.Outcome State Fault Refusal :=
  match fetch s with
  | .ok ((t, ps), s') => finishStep (exec (bindParams t ps) (beginExecute s' t))
  | .error e => outcome (.error e)

/-- The state with the instruction whose bits are `w` stored where `step` fetches its next instruction. -/
def State.withFetchWord (s : State) (nbits w : Nat) : State := placeBytes s s.pc (wordBytes nbits w)

end Sys2Proof.Machine
end

