-- ==== Sys2Proof/Machine/Driver.lean ====
section
/-! DEFINITION. What the driver can do to the machine between steps (70_reset_and_hazards.md R400 to R406, R414, R415;
20_memory.md R102, R103, R107; 60_exceptions.md R352, R377), and runs (R416). -/

namespace Sys2Proof.Machine

/-- `RequestInterrupt(kind)` (R352): `Idle → Requested`; a second request changes nothing. -/
def requestInterrupt (s : State) (l : Line) : State := s.setWorld (s.world.setRequest l true)

/-- The memory-load interface (R107): `set(address, bytes)` through the same routing as a CPU store. -/
def memoryLoad (s : State) (a : Word) (bytes : List Byte) : Res State := memSet s a bytes

/-! ## Reset -/

/-- The values that reset leaves unspecified (R402): of `p` only N V B D Z C are taken. -/
structure ResetDraw where
  a : Byte
  x : Byte
  y : Byte
  sp : Byte
  p : Byte
  deriving DecidableEq, Repr

/-- `Reset()` (R400) for one draw of the unspecified values; writes no memory, pushes nothing, leaves chips and
configuration alone (R401). -/
def resetMachine (s : State) (d : ResetDraw) : Res State := do
  let s : State :=
    { s with
      a := d.a, x := d.x, y := d.y, sp := d.sp
      p := putFlag (d.p ||| 0x20#8) .i true
      stackAnomaly := false, clk := 0, cycles := 0, jamNow := false, pagePenalty := false
      world := { s.world with nmiReq := false, irqReq := false } }
  let (target, s) ← memRead2 s s.plat.params.vecReset
  pure (s.setPc target)

/-! ## Assembly (R63, R75, R82, R102, R405) -/

/-- Does the subset lie inside its storage and inside the address space (R63)? A register subset may have no storage, as
TP2's (95_test_vectors.md section 2.10). -/
def viewFits (pl : Platform) (u : Subset) : Bool :=
  decide (u.base + u.size ≤ 2 ^ pl.params.addrW.bits) &&
    match pl.storages[u.storage]?, u.kind with
    | some st, _ => decide (u.offset + u.size ≤ st.size)
    | none, .register _ => true
    | none, _ => false

/-- `initialize()` of chip `c` (R102): every register subset it expects is there and its own. -/
def initializeChip (pl : Platform) (c : ChipId) (ch : Chip) : Bool :=
  ch.binds.all (fun n => pl.subsets.any (fun u => u.name == n && u.kind == .register c))

/-- The chips of the platform with their identities, in the platform's order (R103). -/
def chipList (pl : Platform) : List (Chip × ChipId) := pl.chips.zipIdx

/-- The world as assembly and `initialize` leave it (R37, R94, R105): a private state and an observer list for each chip
that the platform lists, and for no other (DESIGN CHOICE, log 29). -/
def initialWorld (pl : Platform) : World :=
  pl.wiring.foldl (fun w e => w.observe e.2 e.1)
    { storages := pl.storages
      active := pl.subsets.map Subset.startsActive
      dev := pl.chips.map Chip.init
      observers := pl.chips.map (fun _ => [])
      nmiReq := false
      irqReq := false }

/-- A machine on the platform, assembled but not reset (R405, R415); a `MEMMAP` the spec does not admit is refused. That
chips and subsets named in the platform are in its lists is not checked (DESIGN CHOICE, log 29). -/
def assemble (pl : Platform) : Res State :=
  if !pl.subsets.all (viewFits pl) then .error (.refusal (.rejectedMemmap "subset outside its storage"))
  else if !(chipList pl).all (fun e => initializeChip pl e.2 e.1) then .error (.refusal (.rejectedMemmap "initialize"))
  else if !overlapFree pl (initialWorld pl) then .error (.refusal (.rejectedMemmap "overlap"))
  else if !stackRouted pl (initialWorld pl) then .error (.refusal (.rejectedMemmap "stack subset"))
  else .ok { State.reset with world := initialWorld pl, plat := pl }

/-- Memory loads, in order (R107, R405). -/
def memoryLoads (s : State) : List (Word × List Byte) → Res State
  | [] => .ok s
  | e :: rest => do
    let s ← memoryLoad s e.1 e.2
    memoryLoads s rest

/-- The launch state of a run (R405, R406, R415): assemble, load images, `Reset`. -/
def launch (pl : Platform) (images : List (Word × List Byte)) (d : ResetDraw) : Res State := do
  let s ← assemble pl
  let s ← memoryLoads s images
  resetMachine s d

/-! ## Chips after the step, and the loop -/

/-- The read-only view of the CPU that `simulate` gets (R105; what is in it: DESIGN CHOICE, log 24). -/
def State.view (s : State) : CpuView :=
  { a := s.a, x := s.x, y := s.y, sp := s.sp, pc := s.pc, p := s.p, cycles := s.cycles }

/-- `simulate` of one chip (R103); a false answer is fatal for the run (R369). -/
def simulateChip (s : State) (c : ChipId) : Res State :=
  match worldHandler s.plat c (simulateHandler s.plat c s.view) s.world with
  | .ok (true, w) => .ok (s.setWorld w)
  | .ok (false, _) => .error (.fault (.chipError c))
  | .error e => .error e

/-- `simulate` of chips in a list, in order (R103). -/
def simulateChips (s : State) : List ChipId → Res State
  | [] => .ok s
  | c :: rest => do
    let s ← simulateChip s c
    simulateChips s rest

/-- One turn of the canonical loop (R415): a CPU step, then every chip in the platform's order. -/
def loopOnce (s : State) : Out :=
  match step s with
  | .next s' => outcome (simulateChips s' ((chipList s'.plat).map Prod.snd))
  | .fault f => .fault f
  | .refused r => .refused r

/-! ## Runs (R416) -/

/-- `Jammed(s)` (R35): the byte Memory resolves at `PC` is in `JAMSET`. It is the byte that the next fetch reads, from a
register subset too (R92), where it is the byte of `RegReadH` in the world as it stands (R105); the predicate looks at that
byte only and changes no state. Where no byte resolves, it is false (log 25). -/
def jammed (s : State) : Bool :=
  match memRead s s.pc with
  | .ok (op, _) => s.plat.params.jams op
  | .error _ => false

/-- Does a run end at this boundary whatever steps are left (R416 (b))? -/
def runEnds (s : State) : Bool := jammed s && s.plat.params.jamBlocksInterrupts

/-- A run of at most `n` turns of the canonical loop (R415, R416): it ends at the first boundary between steps at which
`n` turns are done or the CPU is jammed; a run that faults has no end state. The start state counts as such a boundary
here, so that a run from a jammed state takes no turn: the spec does not say (DESIGN CHOICE, log 28). -/
def run : Nat → State → Out
  | 0, s => .next s
  | n + 1, s =>
    if runEnds s then .next s
    else match loopOnce s with
      | .next t => run n t
      | .fault f => .fault f
      | .refused r => .refused r

/-! ## Diagnostics (R377) -/

/-- The generic nested name-value structure of R377. -/
inductive Info where
  | value (name : String) (n : Nat)
  | group (name : String) (fields : List Info)

/-- A bit, as a value. -/
def Info.bit (name : String) (b : Bool) : Info := .value name b.toNat

/-- The CPU's structure: the state names of R38 (D32). -/
def cpuInfo (s : State) : Info :=
  .group "CPU" [
    .value "A" s.a.toNat, .value "X" s.x.toNat, .value "Y" s.y.toNat, .value "SP" s.sp.toNat, .value "PC" s.pc.toNat,
    .value "P" s.p.toNat, .bit "P.N" (s.flag .n), .bit "P.V" (s.flag .v), .bit "P.B" (s.flag .b), .bit "P.D" (s.flag .d),
    .bit "P.I" (s.flag .i), .bit "P.Z" (s.flag .z), .bit "P.C" (s.flag .c), .bit "nmi_req" s.world.nmiReq,
    .bit "irq_req" s.world.irqReq, .value "clk" s.clk, .bit "stack_anomaly" s.stackAnomaly]

/-- The Memory's structure: `storage` and `active` of R38, under names the spec leaves open (log 26). -/
def memoryInfo (s : State) : Info :=
  .group "Memory" [
    .group "storage" (s.world.storages.zipIdx.map (fun e =>
      .group (toString e.2) (.value "length" e.1.size ::
        e.1.cells.map (fun c => .value (toString c.1) c.2.toNat)))),
    .group "active" ((s.plat.subsets.zip s.world.active).map (fun e => .bit e.1.name e.2))]

/-- The fields of a chip's private state (log 26). -/
def devInfo : DevState → List Info
  | .bankSwitch bank last rdcount oneshot =>
    [.bit "bank" bank, .value "last" last.toNat, .value "rdcount" rdcount.toNat, .bit "oneshot" oneshot]
  | .recorder trace =>
    trace.map (fun e => .group "event" [
      .value "notifier" e.1, .value (if e.2.id < 0 then "-id" else "id") e.2.id.natAbs,
      .group "payload" (match e.2.payload with | some v => [.value "value" v] | none => [])])
  | .words l => l.zipIdx.map (fun e => .value (toString e.2) e.1)

/-- The chips' structure: `dev` and `observers` of R38, chip by chip (log 26). -/
def chipsInfo (s : State) : Info :=
  .group "Chips" (s.world.dev.zipIdx.map (fun e =>
    .group (toString e.2) [
      .group "dev" (devInfo e.1),
      .group "observers" ((s.world.observers.getD e.2 []).map (fun o => .value "observer" o))]))

/-- `getInfoStructure()` on the CPU, Memory and the chips (R377): it reads only. -/
def infoStructure (s : State) : List Info := [cpuInfo s, memoryInfo s, chipsInfo s]

end Sys2Proof.Machine
end

