-- ==== Sys2Proof/Safety.lean ====
section
/-! DEFINITION. The terms in which claims about runs are stated: the invariant of the machine, ordinary memory, the jam,
what an instruction leaves alone, and the arithmetic and timing tables in numbers. -/

namespace Sys2Proof.Safety

open Sys2Proof.Machine

/-- `Jammed(s)` (10_state.md R35): the byte Memory resolves at `PC` is in `JAMSET` (`Machine.jammed`, log 25). -/
abbrev Jammed (s : State) : Prop := jammed s = true

/-- Every observer list names an observer once (R94: "once per relationship"). -/
def observersOnce (w : World) : Bool := w.observers.all (fun l => decide l.Nodup)

/-- What holds in every reachable state: bit 5 of `P` reads 1 (R27, R38), the memory is in its canonical form,
each observer is registered once (R94), the configuration is one the spec gives a meaning (R75, R82), and nothing of a
bound instruction or of a jam is left (R34, R35). -/
structure Inv (s : State) : Prop where
  bit5 : s.p.getLsbD 5 = true
  memory : Memory.wf s.world = true
  observers : observersOnce s.world = true
  configuration : admitted s.plat s.world = true
  transient : s.jamNow = false ∧ s.pagePenalty = false

/-- Address `a` is ordinary memory in `s`: one active subset answers, it is plain or read-only, and it shows a byte of
its storage. -/
abbrev Ordinary (s : State) (a : Word) : Prop := (s.peek a).isSome = true

/-- All of memory is ordinary: the configuration is valid in the sense of R64 and no register subset answers. -/
abbrev AllOrdinary (s : State) : Prop := ∀ a : Word, Ordinary s a

/-- The configuration is valid (R64): every address resolves to exactly one active subset. -/
abbrev ValidConfiguration (pl : Platform) (w : World) : Prop := ∀ a : Word, (candidates pl w a).length = 1

/-- Address `a` is ordinary memory that a store changes: the one subset that answers is plain. -/
abbrev Writable (s : State) (a : Word) : Prop :=
  ∃ u, resolve s.plat s.world a = .ok u ∧ u.kind = .plain ∧
    (storageByte s.world u.storage (viewIndex u a)).isSome = true

/-- Address `a` is ordinary memory that discards stores: the one subset that answers is read-only (R67). -/
abbrev Discards (s : State) (a : Word) : Prop :=
  ∃ u, resolve s.plat s.world a = .ok u ∧ u.kind = .readonly ∧
    (storageByte s.world u.storage (viewIndex u a)).isSome = true

/-- Address `a` is answered by a register subset of chip `c`, at offset `k` of it (R68, R69). -/
abbrev RegisterAt (s : State) (a : Word) (c : ChipId) (k : Nat) : Prop :=
  ∃ u, resolve s.plat s.world a = .ok u ∧ u.kind = .register c ∧ a.toNat = u.base + k

/-- Subset `u`, at position `j` of the platform's list, is active and has address `a` in its range (the set `S` of
R65). -/
abbrev Contains (pl : Platform) (w : World) (a : Word) (j : SubsetId) (u : Subset) : Prop :=
  pl.subsets[j]? = some u ∧ w.active[j]? = some true ∧ u.base ≤ a.toNat ∧ a.toNat < u.base + u.size

/-- The stack range is as R82 requires: plain memory, and different stack addresses show different bytes of storage
(R63). The launch of a run sees to it (`Machine.assemble`). -/
structure StackReady (s : State) : Prop where
  plain : ∀ sp : Byte, Writable s (s.stackAddr sp)
  separate : ∀ sp sp' : Byte, s.locate (s.stackAddr sp) = s.locate (s.stackAddr sp') → sp = sp'

/-- A memory operand whose address is found without a side effect and is ordinary memory. -/
abbrev OrdinaryOperand (s : State) (m : MemOperand) : Prop :=
  ∃ e, effAddr s m = .ok (e, s) ∧ Ordinary s e.addr

/-- An operand that can be read without a side effect. -/
def ReadsOrdinary (s : State) : Operand → Prop
  | .imm _ => True
  | .mem m => OrdinaryOperand s m

/-! ## What an instruction leaves alone -/

/-- The CPU's byte registers (R20, R21). -/
inductive Reg where
  | a | x | y | sp
  deriving DecidableEq, Repr

/-- The contents of a byte register. -/
def regOf (s : State) : Reg → Byte
  | .a => s.a
  | .x => s.x
  | .y => s.y
  | .sp => s.sp

/-- From `s` to `t` the CPU keeps every register outside `regs`, every flag outside `flags`, bit 5 of `P`, its
request latches, its clock and the step's `jam_now` and page penalty; `wrap` says whether a push or a pull wrapped (R83). -/
structure CpuKept (s t : State) (regs : List Reg) (flags : List Flag) (wrap : Bool) : Prop where
  regs : ∀ r, r ∉ regs → regOf t r = regOf s r
  flags : ∀ f, f ∉ flags → t.flag f = s.flag f
  bit5 : t.p.getLsbD 5 = s.p.getLsbD 5
  anomaly : t.stackAnomaly = (s.stackAnomaly || wrap)
  latches : ∀ l, t.world.requested l = s.world.requested l
  clk : t.clk = s.clk
  jamNow : t.jamNow = s.jamNow
  pagePenalty : t.pagePenalty = s.pagePenalty
  plat : t.plat = s.plat

/-- From `s` to `t` every byte of storage stays but those behind the addresses `stored`, whether the configuration shows
it or not (R32, R62), so that every other address reads as before; all storages stay if nothing is stored; and the
configuration, the chips and the observer lists stay. -/
structure MemKept (s t : State) (stored : List Word) : Prop where
  bytes : ∀ b, (∀ a ∈ stored, s.locate b ≠ s.locate a) → t.peek b = s.peek b
  storage : ∀ id k, (∀ a ∈ stored, s.locate a ≠ some (id, k)) → storageByte t.world id k = storageByte s.world id k
  storages : stored = [] → t.world.storages = s.world.storages
  active : t.world.active = s.world.active
  dev : t.world.dev = s.world.dev
  observers : t.world.observers = s.world.observers

/-- The frame of an instruction that touches registers and flags only. -/
structure RegisterFrame (s t : State) (regs : List Reg) (flags : List Flag) : Prop where
  cpu : CpuKept s t regs flags false
  pc : t.pc = s.pc
  cycles : t.cycles = s.cycles
  world : t.world = s.world
  memory : MemKept s t []

/-- The frame of a read-class instruction (R173) whose operand `o` was read from `s`, leaving `s1`: nothing but the
read touches memory, and where the operand is ordinary the read does not either. -/
structure ReadFrame (s s1 t : State) (o : Operand) (regs : List Reg) (flags : List Flag) : Prop where
  cpuRegs : ∀ r, r ∉ regs → regOf t r = regOf s r
  cpuFlags : ∀ f, f ∉ flags → t.flag f = s.flag f
  bit5 : t.p.getLsbD 5 = s.p.getLsbD 5
  anomaly : t.stackAnomaly = s.stackAnomaly
  clk : t.clk = s.clk
  jamNow : t.jamNow = s.jamNow
  pagePenalty : t.pagePenalty = s.pagePenalty
  plat : t.plat = s.plat
  pc : t.pc = s.pc
  cycles : t.cycles = s1.cycles
  world : t.world = s1.world
  ordinary : ReadsOrdinary s o → MemKept s t [] ∧ ∀ l, t.world.requested l = s.world.requested l

/-- Instruction `i` stores byte `v` at the effective address of `m` (R173) and does nothing else: with one store,
whatever answers it; to plain memory; to read-only memory (R67). `s1` is the state after the address is found. -/
def StoresByte (i : Instr) (v : Byte) (m : MemOperand) (s : State) : Prop :=
  ∀ e s1, effAddr s m = .ok (e, s1) →
    (∀ t, memWrite s1 e.addr v = .ok t → exec i s = .next t ∧ t.p = s.p ∧ (∀ r, regOf t r = regOf s r) ∧
      t.stackAnomaly = s.stackAnomaly ∧ t.clk = s.clk ∧ t.jamNow = s.jamNow ∧ t.pagePenalty = s.pagePenalty ∧
      t.plat = s.plat ∧ t.pc = s.pc ∧ t.cycles = s.cycles) ∧
    (Writable s1 e.addr → ∃ t, exec i s = .next t ∧ t.peek e.addr = some v ∧ CpuKept s1 t [] [] false ∧
      t.pc = s.pc ∧ t.cycles = s.cycles ∧ MemKept s1 t [e.addr]) ∧
    (Discards s1 e.addr → exec i s = .next s1)

/-- The result of a conditional branch (R304) with the condition `taken` and offset byte `off`. -/
structure BranchResult (s t : State) (taken : Bool) (off : Byte) : Prop where
  pc : t.pc = if taken then BitVec.ofInt 16 ((s.pc.toNat : Int) + off.toInt) else s.pc
  cycles : t.cycles = s.cycles +
    (if taken then 1 + (if t.pc.toNat / 256 ≠ s.pc.toNat / 256 then 1 else 0) else 0)
  cpu : CpuKept s t [] [] false
  memory : MemKept s t []

/-! ## The read-modify-write functions, in numbers -/

/-- The six read-modify-write operations (R250 to R255). -/
inductive RmwOp where
  | asl | lsr | rol | ror | inc | dec
  deriving DecidableEq, Repr

/-- The memory form of an operation. -/
def rmwInstr (m : MemOperand) : RmwOp → Instr
  | .asl => .asl (.mem m)
  | .lsr => .lsr (.mem m)
  | .rol => .rol (.mem m)
  | .ror => .ror (.mem m)
  | .inc => .inc m
  | .dec => .dec m

/-- The result `r` for operand `v` and carry-in `c`. -/
def rmwResult (v : Byte) (c : Bool) : RmwOp → Byte
  | .asl => BitVec.ofNat 8 (2 * v.toNat)
  | .lsr => BitVec.ofNat 8 (v.toNat / 2)
  | .rol => BitVec.ofNat 8 (2 * v.toNat + c.toNat)
  | .ror => BitVec.ofNat 8 (v.toNat / 2 + 128 * c.toNat)
  | .inc => BitVec.ofNat 8 (v.toNat + 1)
  | .dec => BitVec.ofNat 8 (v.toNat + 255)

/-- `P.C` after the operation. -/
def rmwCarry (v : Byte) (c : Bool) : RmwOp → Bool
  | .asl => decide (128 ≤ v.toNat)
  | .lsr => decide (v.toNat % 2 = 1)
  | .rol => decide (128 ≤ v.toNat)
  | .ror => decide (v.toNat % 2 = 1)
  | .inc => c
  | .dec => c

/-- The number that the two digits of a byte denote in binary-coded decimal (R226). -/
def bcdValue (b : Byte) : Nat := 10 * (b.toNat / 16) + b.toNat % 16

/-- Both digits are 0 to 9. -/
abbrev ValidBcd (b : Byte) : Prop := b.toNat / 16 ≤ 9 ∧ b.toNat % 16 ≤ 9

/-- The CPU registers agree: what R101 says no handler may touch, and the CPU's own bookkeeping. -/
structure SameCpu (s t : State) : Prop where
  a : t.a = s.a
  x : t.x = s.x
  y : t.y = s.y
  sp : t.sp = s.sp
  pc : t.pc = s.pc
  p : t.p = s.p
  stackAnomaly : t.stackAnomaly = s.stackAnomaly
  clk : t.clk = s.clk
  cycles : t.cycles = s.cycles
  jamNow : t.jamNow = s.jamNow
  pagePenalty : t.pagePenalty = s.pagePenalty
  plat : t.plat = s.plat

/-! ## Decimal arithmetic, in numbers (R226 (b)) -/

/-- `al` of `ADC_decimal`: the adjusted sum of the low digits, with the carry into the high digit as 16. -/
def decimalLow (a m : Byte) (c : Bool) : Nat :=
  if a.toNat % 16 + m.toNat % 16 + c.toNat < 10 then a.toNat % 16 + m.toNat % 16 + c.toNat
  else (a.toNat % 16 + m.toNat % 16 + c.toNat + 6) % 16 + 16

/-- `t` of `ADC_decimal`, before its correction by 0x60. -/
def decimalSum (a m : Byte) (c : Bool) : Nat := 16 * (a.toNat / 16) + 16 * (m.toNat / 16) + decimalLow a m c

/-- The difference of the low digits in `SBC_decimal`, with the borrow. -/
def lowDifference (a m : Byte) (c : Bool) : Int :=
  ((a.toNat % 16 : Nat) : Int) - ((m.toNat % 16 : Nat) : Int) + (c.toNat : Int) - 1

/-- `t` of `SBC_decimal`, before its correction by 0x60. -/
def decimalDifference (a m : Byte) (c : Bool) : Int :=
  16 * ((a.toNat / 16 : Nat) : Int) - 16 * ((m.toNat / 16 : Nat) : Int) +
    (if lowDifference a m c < 0 then (lowDifference a m c - 6) % 16 - 16 else lowDifference a m c)

/-! ## Base cycle counts, by class and mode (R134, R136) -/

/-- Read-class, in memory. -/
def readCycles : MemMode → Nat
  | .zp => 3
  | .zpx | .zpy | .abs | .abx | .aby => 4
  | .izx => 6
  | .izy => 5

/-- Store-class. -/
def storeCycles : MemMode → Nat
  | .zp => 3
  | .zpx | .zpy | .abs => 4
  | .abx | .aby => 5
  | .izx | .izy => 6

/-- Read-modify-write class, in memory; it has no indirect mode. -/
def rmwCycles : MemMode → Nat
  | .zp => 5
  | .zpx | .zpy | .abs => 6
  | .abx | .aby => 7
  | .izx | .izy => 0

/-- A read-class operand: the immediate form takes 2. -/
def operandCycles : Operand → Nat
  | .imm _ => 2
  | .mem m => readCycles m.mode

/-- A shift or rotate: the accumulator form takes 2. -/
def shiftCycles : ShiftOperand → Nat
  | .acc => 2
  | .mem m => rmwCycles m.mode

/-- The base cycle count of a documented instruction, and of the jam (`JAM_CYCLES`). -/
def baseCycles : Instr → Nat
  | .lda o | .ldx o | .ldy o | .and o | .ora o | .eor o | .adc o | .sbc o | .cmp o | .cpx o | .cpy o => operandCycles o
  | .bit m => readCycles m.mode
  | .sta m | .stx m | .sty m => storeCycles m.mode
  | .asl o | .lsr o | .rol o | .ror o => shiftCycles o
  | .inc m | .dec m => rmwCycles m.mode
  | .tax | .tay | .txa | .tya | .tsx | .txs | .inx | .iny | .dex | .dey => 2
  | .clc | .sec | .cli | .sei | .cld | .sed | .clv | .nop => 2
  | .pha | .php => 3
  | .pla | .plp => 4
  | .jmpAbs _ => 3
  | .jmpInd _ => 5
  | .jsr _ | .rts | .rti => 6
  | .brk => 7
  | .bpl _ | .bmi _ | .bvc _ | .bvs _ | .bcc _ | .bcs _ | .bne _ | .beq _ => 2
  | .jam => 2
  | .undef _ _ => 0

/-- Does the instruction pay for a crossed page (R134): read-class in absolute-X, absolute-Y or indirect indexed? -/
def paysPenalty : Instr → Bool
  | .lda (.mem m) | .ldx (.mem m) | .ldy (.mem m) | .adc (.mem m) | .sbc (.mem m) | .and (.mem m) | .ora (.mem m)
  | .eor (.mem m) | .cmp (.mem m) => m.mode == .abx || m.mode == .aby || m.mode == .izy
  | _ => false

end Sys2Proof.Safety
end

