-- ==== Sys2Proof/Certificates/Slice0/Obligations.lean ====
section
/-! DEFINITION. The statements for the provers: what the numbered rules of spec/ say of this machine. -/

open Sys2Proof Sys2Proof.Machine Sys2Proof.Safety

/-! ## Encoding -/

/-- Words written out from the encodings of spec/ decode to their instructions (R122, R124, R126, R127; the examples of
R166, R190, R230, R301, R311, R333). -/
def Obligations.OpcodeWordsDecode : Prop :=
  decode [0xA9#8, 0xFF#8] = .ok (.lda (.imm 0xFF#8), []) ∧
  decode [0xAD#8, 0x34#8, 0x12#8] = .ok (.lda (.mem (.abs 0x1234#16)), []) ∧
  decode [0x96#8, 0x10#8] = .ok (.stx (.zpy 0x10#8), []) ∧
  decode [0xE0#8, 0xFF#8] = .ok (.cpx (.imm 0xFF#8), []) ∧
  decode [0x7E#8, 0x00#8, 0x30#8] = .ok (.ror (.mem (.abx 0x3000#16)), []) ∧
  decode [0x28#8] = .ok (.plp, []) ∧
  decode [0x6C#8, 0xFF#8, 0x12#8] = .ok (.jmpInd 0x12FF#16, []) ∧
  decode [0xD0#8, 0x03#8] = .ok (.bne 0x03#8, []) ∧
  decode [0x0C#8, 0x34#8, 0x12#8] = .ok (.undef 0x0C#8 [0x34#8, 0x12#8], []) ∧
  decode [0xFF#8] = .ok (.jam, [])

/-- Decoding the code of a well-formed instruction gives the instruction back, whatever bytes follow (R122, R124, R126,
R127, R128). -/
def Obligations.DecodeOfEncode : Prop :=
  ∀ (i : Instr) (rest : List Byte), WellFormed i = true → decode (encode i ++ rest) = .ok (i, rest)

/-- What the decoder answers is well formed, and the bytes it consumed are its code: no two byte sequences decode to one
instruction (R122, R124, R127). -/
def Obligations.EncodeOfDecode : Prop :=
  ∀ (bytes : List Byte) (i : Instr) (rest : List Byte), decode bytes = .ok (i, rest) →
    WellFormed i = true ∧ bytes = encode i ++ rest

/-- Every opcode byte decodes: with the parameters of R9, to the jam if it is 0xFF, to the undefined instruction with
the length and cycles of R128 if it is one of the 104 bytes of R128, to a documented instruction otherwise; the opcode
byte alone tells the length (R127, R128, R129, R133, R135). With any parameters, a member of `JAMSET` selects the jam and
an unpopulated entry the undefined instruction with `UNDEF_LEN` and `UNDEF_CYC` (R128, R129). With one level the byte at
`PC` selects the template; with two, a prefix that is no jam has the next byte select it in the prefix's table, and the
template's length counts the prefix (R121). That `JAMSET` comes before the prefixes and does not apply to the byte after a
prefix is the model's choice (log 27). -/
def Obligations.EveryOpcodeByteDecodes : Prop :=
  (∀ op p1 p2 : Byte, ∃ i n, decode [op, p1, p2] = .ok (i, [op, p1, p2].drop n) ∧
    n = (optable Params.default op).length ∧ 1 ≤ n ∧ n ≤ 3 ∧ (i = .jam ↔ op = 0xFF#8) ∧
    (Params.default.isUndef op = true ↔ ∃ r ∈ Config.undefTable, op ∈ r.ops) ∧
    (Params.default.isUndef op = true → i = .undef op ([p1, p2].take (n - 1)) ∧
      ∃ r ∈ Config.undefTable, op ∈ r.ops ∧ n = r.len ∧ (optable Params.default op).cycles = r.cyc) ∧
    (Params.default.isUndef op = false → ∀ o ps, i ≠ .undef o ps)) ∧
  (∀ (pr : Params) (op : Byte) (ps : List Byte),
    (op ∈ pr.jamSet → optable pr op = ⟨.jam, 1, pr.jamCycles, false⟩) ∧
    (op ∉ pr.jamSet → (∀ T, pr.opTable[op.toNat]? = some (some T) → optable pr op = T)) ∧
    (op ∉ pr.jamSet → (∀ T, pr.opTable[op.toNat]? ≠ some (some T)) →
      bindParams (optable pr op) ps = .undef op ps ∧ (optable pr op).length = pr.undefLen op ∧
        (optable pr op).cycles = pr.undefCyc op)) ∧
  (∀ (pr : Params) (op op1 : Byte) (ps : List Byte) (x : Prefix) (T : Template),
    (pr.nLevels = 1 → templateOf pr (op :: ps) = optable pr op) ∧
    (2 ≤ pr.nLevels → op ∉ pr.jamSet → pr.prefixes.find? (fun y => y.byte == op) = some x →
      x.opTable[op1.toNat]? = some (some T) → T.length = ps.length + 2 →
      templateOf pr (op :: op1 :: ps) = T ∧ decodeWith pr (op :: op1 :: ps) = .ok (bindParams T ps, [])))

/-- The base cycle count, the page penalty and the length of every documented opcode, by class and mode (R134, R136),
and of the jam. -/
def Obligations.BaseCyclesByClassAndMode : Prop :=
  ∀ (i : Instr) (op : Byte) (ps : List Byte), WellFormed i = true → (∀ o l, i ≠ .undef o l) → encode i = op :: ps →
    (optable Params.default op).cycles = baseCycles i ∧ (optable Params.default op).pagePenalty = paysPenalty i ∧
      (optable Params.default op).length = ps.length + 1

/-! ## Memory and the fabric -/

/-- Resolution (R65): the one active subset that contains the address; none is a fault (R74), two are refused (R75). -/
def Obligations.ResolveFindsTheOneSubset : Prop :=
  ∀ (pl : Platform) (w : World) (a : Word),
    ((∀ j u, ¬ Contains pl w a j u) → resolve pl w a = .error (.fault (.noSubset a))) ∧
    (∀ j u, Contains pl w a j u → (∀ k v, Contains pl w a k v → k = j) → resolve pl w a = .ok u) ∧
    (∀ j k u v, Contains pl w a j u → Contains pl w a k v → j ≠ k →
      resolve pl w a = .error (.refusal (.ambiguousOverlap a)))

/-- Reading a plain or read-only subset returns the stored byte and changes nothing, so that a second read, with nothing
in between that changed the world, returns the same byte (R66; the second part is the spec's own inference from R65). -/
def Obligations.PlainReadReturnsStoredByte : Prop :=
  ∀ (s : State) (a : Word) (u : Subset) (v : Byte), resolve s.plat s.world a = .ok u →
    (u.kind = .plain ∨ u.kind = .readonly) →
    storageByte s.world u.storage (u.offset + (a.toNat - u.base)) = some v →
    memRead s a = .ok (v, s) ∧
    ∀ t : State, t.world = s.world → t.plat = s.plat → memRead t a = .ok (v, t)

/-- Writing a plain subset replaces the stored byte, which every address that views the same storage byte then shows, and
no other does, and no register and no step value changes; a write to a read-only subset is discarded (R67). -/
def Obligations.PlainWriteReplacesStoredByte : Prop :=
  ∀ (s : State) (a : Word) (v : Byte),
    (Writable s a → ∃ t, memWrite s a v = .ok t ∧
      (∀ b, s.locate b = s.locate a → memRead t b = .ok (v, t)) ∧ CpuKept s t [] [] false ∧
      t.pc = s.pc ∧ t.cycles = s.cycles ∧ MemKept s t [a]) ∧
    (Discards s a → memWrite s a v = .ok s)

/-- An access to an address that no active subset contains is a fault: a load, a store, and the fetch of a step (R74). -/
def Obligations.HoleAccessFaults : Prop :=
  ∀ (s : State) (a : Word) (v : Byte), (∀ j u, ¬ Contains s.plat s.world a j u) →
    memRead s a = .error (.fault (.noSubset a)) ∧ memWrite s a v = .error (.fault (.noSubset a)) ∧
    (s.pc = a → step s = .fault (.noSubset a))

/-- A write of `v` to the bank-select register of platform TP2's chip CFG (95_test_vectors.md section 2.10) changes the
configuration before the event is delivered and before the write returns (R69, R95, R100), and, where the observers leave
the world's configuration and storages alone, the next access in the window sees the newly selected bank (R76). A changed
configuration that is not admitted is refused at the switch, before any event (R75, R82; log 17). The observers' handlers
may nest to any depth (R97). -/
def Obligations.BankSelectTakesEffectAtOnce : Prop :=
  ∀ (s : State) (a : Word) (v : Byte) (c : ChipId) (winA winB : SubsetId) (bank : Bool)
    (last rdcount : Byte) (oneshot : Bool) (w0 : World),
    RegisterAt s a c 0 → chipModel s.plat c = .bankSwitch winA winB →
    s.world.dev[c]? = some (.bankSwitch bank last rdcount oneshot) →
    declared s.plat ⟨1, some v.toNat⟩ = true →
    w0 = { s.world with
      dev := s.world.dev.set c (.bankSwitch (v.getLsbD 0) v rdcount oneshot)
      active := (s.world.active.set winA (!v.getLsbD 0)).set winB (v.getLsbD 0) } →
    (w0.active ≠ s.world.active → admitted s.plat w0 = false →
      memWrite s a v = .error (.refusal .inadmissibleConfiguration)) ∧
    ∀ (w : World) (depth : Nat), (w0.active = s.world.active ∨ admitted s.plat w0 = true) →
      notifyAll s.plat (ports s.plat depth) c ⟨1, some v.toNat⟩ w0 = .ok w →
      memWrite s a v = .ok (s.setWorld w) ∧
      ((∀ o ∈ s.world.observers.getD c [], chipModel s.plat o = .recorder) →
        ∀ (b : Word) (u : Subset) (x : Byte), Contains s.plat w0 b (if v.getLsbD 0 then winB else winA) u →
          (∀ k u', Contains s.plat w0 b k u' → k = if v.getLsbD 0 then winB else winA) →
          (u.kind = .plain ∨ u.kind = .readonly) →
          storageByte s.world u.storage (u.offset + (b.toNat - u.base)) = some x →
          memRead (s.setWorld w) b = .ok (x, s.setWorld w))

/-- The one-shot flag of CFG is taken by the read: the first read returns it, the next returns 0 (R106;
95_test_vectors.md section 2.10); and a write to CFG's request register sets the lines its bits 0 and 7 name (R69, R352). -/
def Obligations.DeviceRegisterSideEffects : Prop :=
  ∀ (s : State) (a : Word) (c : ChipId) (winA winB : SubsetId) (bank : Bool) (last rdcount : Byte) (oneshot : Bool),
    chipModel s.plat c = .bankSwitch winA winB →
    s.world.dev[c]? = some (.bankSwitch bank last rdcount oneshot) →
    (RegisterAt s a c 2 → ∃ t, memRead s a = .ok (if oneshot then 1#8 else 0#8, t) ∧ memRead t a = .ok (0#8, t)) ∧
    (RegisterAt s a c 3 → ∀ v : Byte, ∃ t, memWrite s a v = .ok t ∧
      t.world.irqReq = (s.world.irqReq || v.getLsbD 0) ∧ t.world.nmiReq = (s.world.nmiReq || v.getLsbD 7) ∧
      MemKept s t [])

/-- `Notify(n, e)` runs the event handlers of the observers that `observers[n]` lists when it begins, in list order, each
to completion before the next (R95, R98); a handler that faults ends it (R99). Handlers nest to any depth: what an
access answers or stops in with nesting followed to some depth, it answers or stops in; so it is refused for its nesting
only if no depth is enough (R97). That a notifier the platform does not list has no list, so that its `Notify` reaches no observer, is the model's
choice (log 29). -/
def Obligations.NotifyRunsObserversInOrder : Prop :=
  (∀ (pl : Platform) (io : Ports) (n : ChipId) (e : Event) (w : World),
    notifyAll pl io n e w =
      (w.observers.getD n []).foldlM
        (fun w' o => (runHandler pl io o (eventHandler pl o e n) w').map Prod.snd) w) ∧
  (∀ (s : State) (a : Word) (v x : Byte) (w : World) (depth : Nat),
    (routedLoad s.plat (ports s.plat depth) a s.world = .ok (x, w) → memRead s a = .ok (x, s.setWorld w)) ∧
    (routedStore s.plat (ports s.plat depth) a v s.world = .ok w → memWrite s a v = .ok (s.setWorld w)) ∧
    (∀ e, e ≠ .refusal .handlerNesting →
      (routedLoad s.plat (ports s.plat depth) a s.world = .error e → memRead s a = .error e) ∧
      (routedStore s.plat (ports s.plat depth) a v s.world = .error e → memWrite s a v = .error e)))

/-- An event reaches each of several recording observers exactly once and no other chip (R96). -/
def Obligations.EventReachesEachObserverOnce : Prop :=
  ∀ (pl : Platform) (io : Ports) (n : ChipId) (e : Event) (w : World) (l : List ChipId),
    w.observers[n]? = some l → l.Nodup →
    (∀ o ∈ l, chipModel pl o = .recorder ∧ ∃ trace, w.dev[o]? = some (.recorder trace)) →
    ∃ w', notifyAll pl io n e w = .ok w' ∧
      (∀ o ∈ l, ∀ trace, w.dev[o]? = some (.recorder trace) → w'.dev[o]? = some (.recorder (trace ++ [(n, e)]))) ∧
      (∀ o, o ∉ l → w'.dev[o]? = w.dev[o]?) ∧
      w' = { w with dev := w'.dev }

/-- Registration (R94): appended at the end, once per relationship; removal keeps the order of the others. -/
def Obligations.ObserverRegistration : Prop :=
  ∀ (w : World) (n o : ChipId) (l : List ChipId), w.observers[n]? = some l →
    (o ∉ l → (w.observe n o).observers[n]? = some (l ++ [o])) ∧
    (o ∈ l → w.observe n o = w) ∧
    (w.unobserve n o).observers[n]? = some (l.filter (fun o' => decide (o' ≠ o))) ∧
    (∀ m, m ≠ n → (w.observe n o).observers[m]? = w.observers[m]? ∧
      (w.unobserve n o).observers[m]? = w.observers[m]?)

/-- No access changes a CPU register, whatever handlers it runs on whatever platform (R101), and neither do an
addressing-mode accessor (R160) and the fetch of an instruction (R123). -/
def Obligations.AccessesKeepCpuRegisters : Prop :=
  (∀ (s t : State) (a : Word) (v : Byte), memRead s a = .ok (v, t) → SameCpu s t) ∧
  (∀ (s t : State) (a : Word) (v : Byte), memWrite s a v = .ok t → SameCpu s t) ∧
  (∀ (s t : State) (m : MemOperand) (e : EffAddr), effAddr s m = .ok (e, t) → SameCpu s t) ∧
  (∀ (s t : State) (x : Template × List Byte), fetch s = .ok (x, t) → SameCpu s t)

/-! ## The stack -/

/-- `Push8` (R79): the store at `STACK_BASE + SP`, the anomaly if `SP` was 0x00, then `SP - 1`; `PC` and the step's cycles
stay. -/
def Obligations.PushStoresThenDecrements : Prop :=
  ∀ (s : State) (v : Byte),
    (s.stackAddr s.sp).toNat = (s.plat.params.stackBase.toNat + s.sp.toNat) % 65536 ∧
    (s.plat.params.stackBase = Params.default.stackBase → (s.stackAddr s.sp).toNat = 0x0100 + s.sp.toNat) ∧
    (∀ t, memWrite s (s.stackAddr s.sp) v = .ok t → push8 s v =
      .ok { t with stackAnomaly := s.stackAnomaly || decide (s.sp = 0x00#8), sp := s.sp - 1#8 }) ∧
    (Writable s (s.stackAddr s.sp) → ∃ t, push8 s v = .ok t ∧ t.sp = s.sp - 1#8 ∧
      t.peek (s.stackAddr s.sp) = some v ∧ CpuKept s t [.sp] [] (decide (s.sp = 0x00#8)) ∧
      t.pc = s.pc ∧ t.cycles = s.cycles ∧ MemKept s t [s.stackAddr s.sp])

/-- `Pull8` (R80): the anomaly if `SP` was 0xFF, `SP + 1`, then the load at `STACK_BASE + SP`; the byte stays in
memory, and `PC` and the step's cycles stay. -/
def Obligations.PullIncrementsThenLoads : Prop :=
  ∀ (s : State),
    (∀ r, memRead { s with stackAnomaly := s.stackAnomaly || decide (s.sp = 0xFF#8), sp := s.sp + 1#8 }
      (s.stackAddr (s.sp + 1#8)) = r → pull8 s = r) ∧
    (∀ v, s.peek (s.stackAddr (s.sp + 1#8)) = some v → ∃ t, pull8 s = .ok (v, t) ∧ t.sp = s.sp + 1#8 ∧
      CpuKept s t [.sp] [] (decide (s.sp = 0xFF#8)) ∧ t.pc = s.pc ∧ t.cycles = s.cycles ∧ MemKept s t [])

/-- `Pull16` after `Push16(w)` returns `w` and restores `SP`, for every `w` and every `SP`; the high byte is pushed first
(R81). -/
def Obligations.PushedWordIsPulledBack : Prop :=
  ∀ (s : State) (x : Word), StackReady s →
    ∃ t u, push16 s x = .ok t ∧ t.sp = s.sp - 2#8 ∧
      t.peek (s.stackAddr s.sp) = some (hiByte x) ∧ t.peek (s.stackAddr (s.sp - 1#8)) = some (loByte x) ∧
      pull16 t = .ok (x, u) ∧ u.sp = s.sp

/-- On a machine that `assemble` accepts, the whole stack range is plain memory, a different byte of storage at each
address (R63, R82, R405). -/
def Obligations.AssembledStackIsReady : Prop :=
  ∀ (pl : Platform) (s : State), assemble pl = .ok s → StackReady s

/-! ## Operands -/

/-- The effective addresses of the direct modes, in numbers (R163 to R167): no state changes. -/
def Obligations.DirectModesEffectiveAddress : Prop :=
  ∀ (s : State),
    (∀ z : Byte, effAddr s (.zp z) = .ok (⟨BitVec.ofNat 16 z.toNat, false⟩, s)) ∧
    (∀ z : Byte, effAddr s (.zpx z) = .ok (⟨BitVec.ofNat 16 ((z.toNat + s.x.toNat) % 256), false⟩, s)) ∧
    (∀ z : Byte, effAddr s (.zpy z) = .ok (⟨BitVec.ofNat 16 ((z.toNat + s.y.toNat) % 256), false⟩, s)) ∧
    (∀ p1 p2 : Byte, effAddr s (.abs (wordOf p2 p1)) =
      .ok (⟨BitVec.ofNat 16 (256 * p2.toNat + p1.toNat), false⟩, s)) ∧
    (∀ base : Word, effAddr s (.abx base) = .ok (⟨BitVec.ofNat 16 ((base.toNat + s.x.toNat) % 65536),
      decide (base.toNat / 256 ≠ (base.toNat + s.x.toNat) % 65536 / 256)⟩, s)) ∧
    (∀ base : Word, effAddr s (.aby base) = .ok (⟨BitVec.ofNat 16 ((base.toNat + s.y.toNat) % 65536),
      decide (base.toNat / 256 ≠ (base.toNat + s.y.toNat) % 65536 / 256)⟩, s))

/-- The effective addresses of the indirect modes (R168, R169), where the pointer lies in ordinary memory: both pointer
bytes come from the zero page, and no state changes. -/
def Obligations.IndirectModesEffectiveAddress : Prop :=
  ∀ (s : State) (z lo hi : Byte),
    (s.peek (BitVec.ofNat 16 ((z.toNat + s.x.toNat) % 256)) = some lo →
      s.peek (BitVec.ofNat 16 ((z.toNat + s.x.toNat + 1) % 256)) = some hi →
      effAddr s (.izx z) = .ok (⟨BitVec.ofNat 16 (256 * hi.toNat + lo.toNat), false⟩, s)) ∧
    (s.peek (BitVec.ofNat 16 z.toNat) = some lo → s.peek (BitVec.ofNat 16 ((z.toNat + 1) % 256)) = some hi →
      effAddr s (.izy z) =
        .ok (⟨BitVec.ofNat 16 ((256 * hi.toNat + lo.toNat + s.y.toNat) % 65536),
          decide (hi.toNat ≠ (256 * hi.toNat + lo.toNat + s.y.toNat) % 65536 / 256)⟩, s))

/-- `LoadOperand` (R162, R173): the immediate; or one load at the effective address, with a cycle more where the address
crossed a page and the template in execution has `page_penalty` (R134, R172). -/
def Obligations.ReadOperand : Prop :=
  ∀ (s s1 : State) (m : MemOperand) (e : EffAddr),
    (∀ v, loadOperand s (.imm v) = .ok (v, s)) ∧
    (effAddr s m = .ok (e, s1) →
      loadOperand s (.mem m) = memRead
        { s1 with cycles := s1.cycles +
            (if e.crossed = true ∧ s.pagePenalty = true then 1 else 0) } e.addr)

/-! ## Loads, stores, transfers -/

/-- LDA, LDX, LDY (R190, R191, R192), for every operand that can be read. -/
def Obligations.LoadInstructions : Prop :=
  ∀ (o : Operand) (s s1 : State) (v : Byte), loadOperand s o = .ok (v, s1) →
    (∃ t, exec (.lda o) s = .next t ∧ t.a = v ∧ t.flag .n = v.getLsbD 7 ∧ t.flag .z = decide (v = 0#8) ∧
      ReadFrame s s1 t o [.a] [.n, .z]) ∧
    (∃ t, exec (.ldx o) s = .next t ∧ t.x = v ∧ t.flag .n = v.getLsbD 7 ∧ t.flag .z = decide (v = 0#8) ∧
      ReadFrame s s1 t o [.x] [.n, .z]) ∧
    (∃ t, exec (.ldy o) s = .next t ∧ t.y = v ∧ t.flag .n = v.getLsbD 7 ∧ t.flag .z = decide (v = 0#8) ∧
      ReadFrame s s1 t o [.y] [.n, .z])

/-- STA, STX, STY (R193, R194, R195): exactly one store of the register at the effective address. -/
def Obligations.StoreInstructions : Prop :=
  ∀ (m : MemOperand) (s : State),
    StoresByte (.sta m) s.a m s ∧ StoresByte (.stx m) s.x m s ∧ StoresByte (.sty m) s.y m s

/-- TAX, TAY, TXA, TYA, TSX, TXS (R196 to R201): TXS alone changes no flag. -/
def Obligations.TransferInstructions : Prop :=
  ∀ (s : State),
    (∃ t, exec .tax s = .next t ∧ t.x = s.a ∧ t.flag .n = s.a.getLsbD 7 ∧ t.flag .z = decide (s.a = 0#8) ∧
      RegisterFrame s t [.x] [.n, .z]) ∧
    (∃ t, exec .tay s = .next t ∧ t.y = s.a ∧ t.flag .n = s.a.getLsbD 7 ∧ t.flag .z = decide (s.a = 0#8) ∧
      RegisterFrame s t [.y] [.n, .z]) ∧
    (∃ t, exec .txa s = .next t ∧ t.a = s.x ∧ t.flag .n = s.x.getLsbD 7 ∧ t.flag .z = decide (s.x = 0#8) ∧
      RegisterFrame s t [.a] [.n, .z]) ∧
    (∃ t, exec .tya s = .next t ∧ t.a = s.y ∧ t.flag .n = s.y.getLsbD 7 ∧ t.flag .z = decide (s.y = 0#8) ∧
      RegisterFrame s t [.a] [.n, .z]) ∧
    (∃ t, exec .tsx s = .next t ∧ t.x = s.sp ∧ t.flag .n = s.sp.getLsbD 7 ∧ t.flag .z = decide (s.sp = 0#8) ∧
      RegisterFrame s t [.x] [.n, .z]) ∧
    (∃ t, exec .txs s = .next t ∧ t.sp = s.x ∧ RegisterFrame s t [.sp] [])

/-! ## Logic, arithmetic, compare -/

/-- AND, ORA, EOR (R224, R228, R232): bit by bit; C and V stay (R223). -/
def Obligations.LogicInstructions : Prop :=
  ∀ (o : Operand) (s s1 : State) (m : Byte), loadOperand s o = .ok (m, s1) →
    (∃ t, exec (.and o) s = .next t ∧ (∀ k, t.a.getLsbD k = (s.a.getLsbD k && m.getLsbD k)) ∧
      t.flag .n = t.a.getLsbD 7 ∧ t.flag .z = decide (t.a = 0#8) ∧ ReadFrame s s1 t o [.a] [.n, .z]) ∧
    (∃ t, exec (.ora o) s = .next t ∧ (∀ k, t.a.getLsbD k = (s.a.getLsbD k || m.getLsbD k)) ∧
      t.flag .n = t.a.getLsbD 7 ∧ t.flag .z = decide (t.a = 0#8) ∧ ReadFrame s s1 t o [.a] [.n, .z]) ∧
    (∃ t, exec (.eor o) s = .next t ∧ (∀ k, t.a.getLsbD k = (s.a.getLsbD k != m.getLsbD k)) ∧
      t.flag .n = t.a.getLsbD 7 ∧ t.flag .z = decide (t.a = 0#8) ∧ ReadFrame s s1 t o [.a] [.n, .z])

/-- BIT (R233): Z of `A & m`; N and V are bits 7 and 6 of the operand. -/
def Obligations.BitTestInstruction : Prop :=
  ∀ (m : MemOperand) (s s1 : State) (v : Byte), loadOperand s (.mem m) = .ok (v, s1) →
    ∃ t, exec (.bit m) s = .next t ∧ t.flag .z = decide (s.a &&& v = 0#8) ∧ t.flag .n = v.getLsbD 7 ∧
      t.flag .v = v.getLsbD 6 ∧ ReadFrame s s1 t (.mem m) [] [.n, .v, .z]

/-- ADC with `P.D` = 0 (R225) in integers: the sum modulo 256, carry by R221, overflow exactly when the signed sum is
outside -128..127 (R222). -/
def Obligations.BinaryAddition : Prop :=
  ∀ (o : Operand) (s s1 : State) (m : Byte), loadOperand s o = .ok (m, s1) → s.flag .d = false →
    ∃ t, exec (.adc o) s = .next t ∧
      t.a.toNat = (s.a.toNat + m.toNat + (s.flag .c).toNat) % 256 ∧
      t.flag .c = decide (256 ≤ s.a.toNat + m.toNat + (s.flag .c).toNat) ∧
      t.flag .v = decide (s.a.toInt + m.toInt + ((s.flag .c).toNat : Int) < -128 ∨
        127 < s.a.toInt + m.toInt + ((s.flag .c).toNat : Int)) ∧
      t.flag .z = decide (t.a = 0#8) ∧ t.flag .n = t.a.getLsbD 7 ∧ ReadFrame s s1 t o [.a] [.n, .v, .z, .c]

/-- SBC with `P.D` = 0 (R227) in integers: `A - m - (1 - C)` modulo 256, carry exactly when there is no borrow (R221),
overflow exactly when the signed difference is outside -128..127 (R222). -/
def Obligations.BinarySubtraction : Prop :=
  ∀ (o : Operand) (s s1 : State) (m : Byte), loadOperand s o = .ok (m, s1) → s.flag .d = false →
    ∃ t, exec (.sbc o) s = .next t ∧
      (t.a.toNat : Int) = ((s.a.toNat : Int) - (m.toNat : Int) - (1 - ((s.flag .c).toNat : Int))) % 256 ∧
      t.flag .c = decide (0 ≤ (s.a.toNat : Int) - (m.toNat : Int) - (1 - ((s.flag .c).toNat : Int))) ∧
      t.flag .v = decide (s.a.toInt - m.toInt - (1 - ((s.flag .c).toNat : Int)) < -128 ∨
        127 < s.a.toInt - m.toInt - (1 - ((s.flag .c).toNat : Int))) ∧
      t.flag .z = decide (t.a = 0#8) ∧ t.flag .n = t.a.getLsbD 7 ∧ ReadFrame s s1 t o [.a] [.n, .v, .z, .c]

/-- ADC in decimal mode with `DecimalArith` = `nmos6502` (R226 (b)) runs on every operand: Z is that of the binary sum,
N and V those of the sum before its correction, A and C those of the corrected sum, for digits above 9 as well;
and for valid binary-coded decimals `A` and C are the decimal sum and its carry. That reset selects this value of the
parameter is the model's choice (log 10); the statement takes it as a hypothesis. -/
def Obligations.DecimalAddition : Prop :=
  ∀ (o : Operand) (s s1 : State) (m : Byte), loadOperand s o = .ok (m, s1) → s.flag .d = true →
    s.plat.params.decimalArith = .nmos6502 →
    ∃ t, exec (.adc o) s = .next t ∧
      t.flag .z = decide ((s.a.toNat + m.toNat + (s.flag .c).toNat) % 256 = 0) ∧
      t.flag .n = decide (128 ≤ decimalSum s.a m (s.flag .c) % 256) ∧
      t.flag .v = decide (s.a.toNat / 128 = m.toNat / 128 ∧
        decimalSum s.a m (s.flag .c) % 256 / 128 ≠ s.a.toNat / 128) ∧
      t.flag .c = decide (160 ≤ decimalSum s.a m (s.flag .c)) ∧
      t.a = BitVec.ofNat 8 (if 160 ≤ decimalSum s.a m (s.flag .c) then decimalSum s.a m (s.flag .c) + 96
        else decimalSum s.a m (s.flag .c)) ∧
      (ValidBcd s.a → ValidBcd m → ValidBcd t.a ∧
        bcdValue t.a = (bcdValue s.a + bcdValue m + (s.flag .c).toNat) % 100 ∧
        t.flag .c = decide (100 ≤ bcdValue s.a + bcdValue m + (s.flag .c).toNat)) ∧
      ReadFrame s s1 t o [.a] [.n, .v, .z, .c]

/-- SBC in decimal mode with `DecimalArith` = `nmos6502` (R226 (b)) runs on every operand; its flags are those of binary
SBC, `A` is the corrected difference, for digits above 9 as well, and for valid binary-coded decimals it is the decimal
difference (`DecimalArith`: log 10). -/
def Obligations.DecimalSubtraction : Prop :=
  ∀ (o : Operand) (s s1 : State) (m : Byte), loadOperand s o = .ok (m, s1) → s.flag .d = true →
    s.plat.params.decimalArith = .nmos6502 →
    ∃ t b, exec (.sbc o) s = .next t ∧ exec (.sbc o) (s.setFlag .d false) = .next b ∧
      (∀ f, f ≠ .d → t.flag f = b.flag f) ∧
      t.a = BitVec.ofInt 8 (if decimalDifference s.a m (s.flag .c) < 0 then decimalDifference s.a m (s.flag .c) - 96
        else decimalDifference s.a m (s.flag .c)) ∧
      (ValidBcd s.a → ValidBcd m → ValidBcd t.a ∧
        (bcdValue t.a : Int) =
          ((bcdValue s.a : Int) - (bcdValue m : Int) - (1 - ((s.flag .c).toNat : Int))) % 100 ∧
        t.flag .c = decide (0 ≤ (bcdValue s.a : Int) - (bcdValue m : Int) - (1 - ((s.flag .c).toNat : Int)))) ∧
      ReadFrame s s1 t o [.a] [.n, .v, .z, .c]

/-- With `DecimalArith` = `refuse`, ADC and SBC with `P.D` = 1 end in `refuse(DecimalMode)` (R226 (a)). -/
def Obligations.DecimalModeRefused : Prop :=
  ∀ (o : Operand) (s s1 : State) (m : Byte), loadOperand s o = .ok (m, s1) → s.flag .d = true →
    s.plat.params.decimalArith = .refuse →
    exec (.adc o) s = .refused .decimalMode ∧ exec (.sbc o) s = .refused .decimalMode

/-- CMP, CPX, CPY (R229, R230, R231): C when the register is not below the operand, Z when they are equal, N bit 7 of the
difference modulo 256; the register, V, the incoming C and D play no part. -/
def Obligations.CompareInstructions : Prop :=
  ∀ (o : Operand) (s s1 : State) (m : Byte), loadOperand s o = .ok (m, s1) →
    (∃ t, exec (.cmp o) s = .next t ∧ t.flag .c = decide (m.toNat ≤ s.a.toNat) ∧ t.flag .z = decide (s.a = m) ∧
      t.flag .n = decide (128 ≤ (s.a.toNat + 256 - m.toNat) % 256) ∧ ReadFrame s s1 t o [] [.n, .z, .c]) ∧
    (∃ t, exec (.cpx o) s = .next t ∧ t.flag .c = decide (m.toNat ≤ s.x.toNat) ∧ t.flag .z = decide (s.x = m) ∧
      t.flag .n = decide (128 ≤ (s.x.toNat + 256 - m.toNat) % 256) ∧ ReadFrame s s1 t o [] [.n, .z, .c]) ∧
    (∃ t, exec (.cpy o) s = .next t ∧ t.flag .c = decide (m.toNat ≤ s.y.toNat) ∧ t.flag .z = decide (s.y = m) ∧
      t.flag .n = decide (128 ≤ (s.y.toNat + 256 - m.toNat) % 256) ∧ ReadFrame s s1 t o [] [.n, .z, .c])

/-! ## Shifts, rotates, increments -/

/-- ASL, LSR, ROL, ROR on the accumulator (R250 to R253, R260): no memory is touched. -/
def Obligations.AccumulatorShifts : Prop :=
  ∀ (s : State),
    (∃ t, exec (.asl .acc) s = .next t ∧ t.a = rmwResult s.a (s.flag .c) .asl ∧
      t.flag .c = rmwCarry s.a (s.flag .c) .asl ∧ t.flag .n = t.a.getLsbD 7 ∧ t.flag .z = decide (t.a = 0#8) ∧
      RegisterFrame s t [.a] [.n, .z, .c]) ∧
    (∃ t, exec (.lsr .acc) s = .next t ∧ t.a = rmwResult s.a (s.flag .c) .lsr ∧
      t.flag .c = rmwCarry s.a (s.flag .c) .lsr ∧ t.flag .n = false ∧ t.flag .z = decide (t.a = 0#8) ∧
      RegisterFrame s t [.a] [.n, .z, .c]) ∧
    (∃ t, exec (.rol .acc) s = .next t ∧ t.a = rmwResult s.a (s.flag .c) .rol ∧
      t.flag .c = rmwCarry s.a (s.flag .c) .rol ∧ t.flag .n = t.a.getLsbD 7 ∧ t.flag .z = decide (t.a = 0#8) ∧
      RegisterFrame s t [.a] [.n, .z, .c]) ∧
    (∃ t, exec (.ror .acc) s = .next t ∧ t.a = rmwResult s.a (s.flag .c) .ror ∧
      t.flag .c = rmwCarry s.a (s.flag .c) .ror ∧ t.flag .n = s.flag .c ∧ t.flag .z = decide (t.a = 0#8) ∧
      RegisterFrame s t [.a] [.n, .z, .c])

/-- The memory forms of ASL, LSR, ROL, ROR and INC, DEC (R250 to R255, R260): one read, then one write of the result at
the same address, whatever answers it; on ordinary memory the byte becomes the result, or, if the memory is read-only,
stays, and the flags are set in both cases. INC and DEC keep C. `s1` is the state after the address is found. -/
def Obligations.ReadModifyWriteMemory : Prop :=
  ∀ (op : RmwOp) (m : MemOperand) (s s1 : State) (e : EffAddr) (v : Byte), effAddr s m = .ok (e, s1) →
    (∀ s2 t, memRead s1 e.addr = .ok (v, s2) →
      memWrite
        { s2 with p := putNZ (putFlag s.p .c (rmwCarry v (s.flag .c) op)) (rmwResult v (s.flag .c) op) }
        e.addr (rmwResult v (s.flag .c) op) = .ok t →
      exec (rmwInstr m op) s = .next t) ∧
    (s1.peek e.addr = some v →
      ∃ t, exec (rmwInstr m op) s = .next t ∧
        (Writable s1 e.addr → t.peek e.addr = some (rmwResult v (s.flag .c) op)) ∧
        (Discards s1 e.addr → t.peek e.addr = some v) ∧
        t.flag .c = rmwCarry v (s.flag .c) op ∧
        t.flag .n = (rmwResult v (s.flag .c) op).getLsbD 7 ∧
        t.flag .z = decide (rmwResult v (s.flag .c) op = 0#8) ∧
        CpuKept s1 t [] [.n, .z, .c] false ∧ t.pc = s.pc ∧ t.cycles = s.cycles ∧ MemKept s1 t [e.addr])

/-- INX, INY, DEX, DEY (R256 to R259): C and V stay. -/
def Obligations.IndexRegisterSteps : Prop :=
  ∀ (s : State),
    (∃ t, exec .inx s = .next t ∧ t.x.toNat = (s.x.toNat + 1) % 256 ∧ t.flag .n = t.x.getLsbD 7 ∧
      t.flag .z = decide (t.x = 0#8) ∧ RegisterFrame s t [.x] [.n, .z]) ∧
    (∃ t, exec .iny s = .next t ∧ t.y.toNat = (s.y.toNat + 1) % 256 ∧ t.flag .n = t.y.getLsbD 7 ∧
      t.flag .z = decide (t.y = 0#8) ∧ RegisterFrame s t [.y] [.n, .z]) ∧
    (∃ t, exec .dex s = .next t ∧ t.x.toNat = (s.x.toNat + 255) % 256 ∧ t.flag .n = t.x.getLsbD 7 ∧
      t.flag .z = decide (t.x = 0#8) ∧ RegisterFrame s t [.x] [.n, .z]) ∧
    (∃ t, exec .dey s = .next t ∧ t.y.toNat = (s.y.toNat + 255) % 256 ∧ t.flag .n = t.y.getLsbD 7 ∧
      t.flag .z = decide (t.y = 0#8) ∧ RegisterFrame s t [.y] [.n, .z])

/-! ## Stack and flag instructions -/

/-- PHA and PHP (R282, R290): the byte at `STACK_BASE + SP`, bits 5 and 4 set in the pushed status. -/
def Obligations.PushInstructions : Prop :=
  ∀ (s : State), Writable s (s.stackAddr s.sp) →
    (∃ t, exec .pha s = .next t ∧ t.peek (s.stackAddr s.sp) = some s.a ∧ t.sp = s.sp - 1#8 ∧
      CpuKept s t [.sp] [] (decide (s.sp = 0x00#8)) ∧ t.pc = s.pc ∧ t.cycles = s.cycles ∧
      MemKept s t [s.stackAddr s.sp]) ∧
    (∃ t, exec .php s = .next t ∧ t.peek (s.stackAddr s.sp) = some (s.p ||| 0x30#8) ∧ t.sp = s.sp - 1#8 ∧
      CpuKept s t [.sp] [] (decide (s.sp = 0x00#8)) ∧ t.pc = s.pc ∧ t.cycles = s.cycles ∧
      MemKept s t [s.stackAddr s.sp])

/-- PLA and PLP (R283, R284): every named flag comes from the byte PLP pulls, and bit 5 reads 1 (R27). -/
def Obligations.PullInstructions : Prop :=
  ∀ (s : State) (v : Byte), s.peek (s.stackAddr (s.sp + 1#8)) = some v →
    (∃ t, exec .pla s = .next t ∧ t.a = v ∧ t.sp = s.sp + 1#8 ∧ t.flag .n = v.getLsbD 7 ∧
      t.flag .z = decide (v = 0#8) ∧ CpuKept s t [.a, .sp] [.n, .z] (decide (s.sp = 0xFF#8)) ∧ t.pc = s.pc ∧
      t.cycles = s.cycles ∧ MemKept s t []) ∧
    (∃ t, exec .plp s = .next t ∧ t.p = v ||| 0x20#8 ∧ t.sp = s.sp + 1#8 ∧
      (∀ r, r ≠ .sp → regOf t r = regOf s r) ∧ t.stackAnomaly = (s.stackAnomaly || decide (s.sp = 0xFF#8)) ∧
      (∀ l, t.world.requested l = s.world.requested l) ∧ t.clk = s.clk ∧ t.jamNow = s.jamNow ∧
      t.pagePenalty = s.pagePenalty ∧ t.plat = s.plat ∧ t.pc = s.pc ∧
      t.cycles = s.cycles ∧ MemKept s t [])

/-- PLA after PHA restores `A` and `SP`; PLP after PHP restores `P` with the Break bit set (R28, R282, R283, R284,
R290). -/
def Obligations.PushThenPullRestores : Prop :=
  ∀ (s : State), Writable s (s.stackAddr s.sp) →
    (∃ t u, exec .pha s = .next t ∧ exec .pla t = .next u ∧ u.a = s.a ∧ u.sp = s.sp) ∧
    (∃ t u, exec .php s = .next t ∧ exec .plp t = .next u ∧ u.p = s.p ||| 0x30#8 ∧ u.sp = s.sp)

/-- CLC, SEC, CLI, SEI, CLD, SED, CLV (R280, R281, R285 to R289): each changes one flag and nothing else. -/
def Obligations.FlagInstructions : Prop :=
  ∀ (s : State),
    (∃ t, exec .clc s = .next t ∧ t.flag .c = false ∧ RegisterFrame s t [] [.c]) ∧
    (∃ t, exec .sec s = .next t ∧ t.flag .c = true ∧ RegisterFrame s t [] [.c]) ∧
    (∃ t, exec .cli s = .next t ∧ t.flag .i = false ∧ RegisterFrame s t [] [.i]) ∧
    (∃ t, exec .sei s = .next t ∧ t.flag .i = true ∧ RegisterFrame s t [] [.i]) ∧
    (∃ t, exec .cld s = .next t ∧ t.flag .d = false ∧ RegisterFrame s t [] [.d]) ∧
    (∃ t, exec .sed s = .next t ∧ t.flag .d = true ∧ RegisterFrame s t [] [.d]) ∧
    (∃ t, exec .clv s = .next t ∧ t.flag .v = false ∧ RegisterFrame s t [] [.v])

/-! ## Control transfer -/

/-- JMP absolute and indirect (R300, R301): the indirect target's high byte is read from the page of the pointer
(R171). -/
def Obligations.JumpInstructions : Prop :=
  ∀ (s : State) (x : Word),
    (∃ t, exec (.jmpAbs x) s = .next t ∧ t.pc = x ∧ t.cycles = s.cycles ∧ CpuKept s t [] [] false ∧
      MemKept s t []) ∧
    (∀ lo hi, s.peek x = some lo → s.peek (BitVec.ofNat 16 (x.toNat / 256 * 256 + (x.toNat + 1) % 256)) = some hi →
      ∃ t, exec (.jmpInd x) s = .next t ∧ t.pc = BitVec.ofNat 16 (256 * hi.toNat + lo.toNat) ∧
        t.cycles = s.cycles ∧ CpuKept s t [] [] false ∧ MemKept s t [])

/-- JSR (R302) and RTS (R303). `PC` in `s` is the address of the next instruction, so JSR pushes the address of its own
last byte, and RTS goes to the address after the one it pulls. -/
def Obligations.SubroutineInstructions : Prop :=
  ∀ (s : State),
    (∀ x : Word, StackReady s →
      ∃ t, exec (.jsr x) s = .next t ∧ t.pc = x ∧ t.sp = s.sp - 2#8 ∧
        t.peek (s.stackAddr s.sp) = some (hiByte (s.pc - 1#16)) ∧
        t.peek (s.stackAddr (s.sp - 1#8)) = some (loByte (s.pc - 1#16)) ∧ t.cycles = s.cycles ∧
        CpuKept s t [.sp] [] (decide (s.sp.toNat < 2)) ∧
        MemKept s t [s.stackAddr s.sp, s.stackAddr (s.sp - 1#8)]) ∧
    (∀ lo hi, s.peek (s.stackAddr (s.sp + 1#8)) = some lo → s.peek (s.stackAddr (s.sp + 2#8)) = some hi →
      ∃ t, exec .rts s = .next t ∧ t.pc.toNat = (256 * hi.toNat + lo.toNat + 1) % 65536 ∧ t.sp = s.sp + 2#8 ∧
        t.cycles = s.cycles ∧ CpuKept s t [.sp] [] (decide (254 ≤ s.sp.toNat)) ∧ MemKept s t [])

/-- RTS after JSR goes to the instruction after the JSR and restores `SP` (R81, R302, R303). -/
def Obligations.CallThenReturn : Prop :=
  ∀ (s : State) (x : Word), StackReady s →
    ∃ t u, exec (.jsr x) s = .next t ∧ t.pc = x ∧ exec .rts t = .next u ∧ u.pc = s.pc ∧ u.sp = s.sp

/-- The eight branches (R304 to R312): the condition, the target, the cycles, and nothing else. -/
def Obligations.BranchInstructions : Prop :=
  ∀ (s : State) (off : Byte),
    (∃ t, exec (.bpl off) s = .next t ∧ BranchResult s t (!s.flag .n) off) ∧
    (∃ t, exec (.bmi off) s = .next t ∧ BranchResult s t (s.flag .n) off) ∧
    (∃ t, exec (.bvc off) s = .next t ∧ BranchResult s t (!s.flag .v) off) ∧
    (∃ t, exec (.bvs off) s = .next t ∧ BranchResult s t (s.flag .v) off) ∧
    (∃ t, exec (.bcc off) s = .next t ∧ BranchResult s t (!s.flag .c) off) ∧
    (∃ t, exec (.bcs off) s = .next t ∧ BranchResult s t (s.flag .c) off) ∧
    (∃ t, exec (.bne off) s = .next t ∧ BranchResult s t (!s.flag .z) off) ∧
    (∃ t, exec (.beq off) s = .next t ∧ BranchResult s t (s.flag .z) off)

/-! ## System instructions -/

/-- BRK (R330, R361): the return address past the next byte, high byte first, then `P` with bits 5 and 4 set; I set; `PC`
the word that `VEC_IRQ` shows after the pushes. -/
def Obligations.BreakEntersHandler : Prop :=
  ∀ (s : State), StackReady s → Ordinary s s.plat.params.vecIrq → Ordinary s (s.plat.params.vecIrq + 1#16) →
    ∃ t lo hi, exec .brk s = .next t ∧ t.peek s.plat.params.vecIrq = some lo ∧
      t.peek (s.plat.params.vecIrq + 1#16) = some hi ∧
      t.pc = wordOf hi lo ∧ t.sp = s.sp - 3#8 ∧ t.flag .i = true ∧
      t.peek (s.stackAddr s.sp) = some (hiByte (s.pc + 1#16)) ∧
      t.peek (s.stackAddr (s.sp - 1#8)) = some (loByte (s.pc + 1#16)) ∧
      t.peek (s.stackAddr (s.sp - 2#8)) = some (s.p ||| 0x30#8) ∧ t.cycles = s.cycles ∧
      CpuKept s t [.sp] [.i] (decide (s.sp.toNat < 3)) ∧
      MemKept s t [s.stackAddr s.sp, s.stackAddr (s.sp - 1#8), s.stackAddr (s.sp - 2#8)]

/-- RTI (R331): the status as PLP takes it, then the return address, with no increment. -/
def Obligations.ReturnFromInterrupt : Prop :=
  ∀ (s : State) (v lo hi : Byte), s.peek (s.stackAddr (s.sp + 1#8)) = some v →
    s.peek (s.stackAddr (s.sp + 2#8)) = some lo → s.peek (s.stackAddr (s.sp + 3#8)) = some hi →
    ∃ t, exec .rti s = .next t ∧ t.p = v ||| 0x20#8 ∧ t.pc = wordOf hi lo ∧ t.sp = s.sp + 3#8 ∧
      (∀ r, r ≠ .sp → regOf t r = regOf s r) ∧ t.stackAnomaly = (s.stackAnomaly || decide (253 ≤ s.sp.toNat)) ∧
      (∀ l, t.world.requested l = s.world.requested l) ∧ t.clk = s.clk ∧ t.jamNow = s.jamNow ∧
      t.pagePenalty = s.pagePenalty ∧ t.plat = s.plat ∧ t.cycles = s.cycles ∧ MemKept s t []

/-- RTI undoes the context save of BRK: `PC` past the byte after BRK, `SP` as before, `P` with the Break bit stored
(R28, R330, R331, R366). -/
def Obligations.BreakThenReturn : Prop :=
  ∀ (s : State), StackReady s → Ordinary s s.plat.params.vecIrq → Ordinary s (s.plat.params.vecIrq + 1#16) →
    ∃ t u, exec .brk s = .next t ∧ exec .rti t = .next u ∧ u.pc = s.pc + 1#16 ∧ u.sp = s.sp ∧
      u.p = s.p ||| 0x30#8 ∧ u.a = s.a ∧ u.x = s.x ∧ u.y = s.y

/-- NOP and every undefined instruction change nothing once their bytes are fetched (R332, R333). -/
def Obligations.NopAndUndefinedDoNothing : Prop :=
  ∀ (s : State) (op : Byte) (params : List Byte), exec .nop s = .next s ∧ exec (.undef op params) s = .next s

/-- The jam (R334) goes back to its own byte, notes the jam and changes nothing else. The CPU is jammed exactly where the
byte Memory resolves at `PC` is in `JAMSET` (R35); there, where the platform lets a jam block interrupts, a step leaves
`PC` and every register, and in ordinary memory it is a fixed point but for the clock (R35, R334). A run of at most `n`
turns ends after `k` of them if `k` is `n` or the CPU is jammed then and not before, and has no end state if a turn has no
next state (R416). That the byte Memory resolves is the one `MemRead` answers, from a register subset too, is the model's
reading (log 25, DEDUCED), on which the second clause and the clauses on runs rest. That a run from a jammed start takes
no turn is the model's choice (log 28), and the last clause. -/
def Obligations.JamDoesNotAdvance : Prop :=
  (∀ (s : State), ∃ t, exec .jam s = .next t ∧ t.pc = s.pc - 1#16 ∧ t.jamNow = true ∧ t.cycles = s.cycles ∧
    CpuKept s { t with jamNow := s.jamNow } [] [] false ∧ MemKept s t []) ∧
  (∀ (s : State), Jammed s ↔ ∃ op s', memRead s s.pc = .ok (op, s') ∧ op ∈ s.plat.params.jamSet) ∧
  (∀ (s s' : State) (op : Byte), memRead s s.pc = .ok (op, s') → op ∈ s.plat.params.jamSet →
    s.plat.params.jamBlocksInterrupts = true →
    step s = .next { s' with
      clk := s.clk + s.plat.params.jamCycles
      cycles := s.plat.params.jamCycles
      jamNow := false
      pagePenalty := false } ∧
    SameCpu s s' ∧ (s.peek s.pc = some op → s' = s)) ∧
  (∀ (n k : Nat) (c : Nat → State), k ≤ n →
    (∀ j, j < k → loopOnce (c j) = .next (c (j + 1)) ∧
      ¬ (Jammed (c j) ∧ (c j).plat.params.jamBlocksInterrupts = true)) →
    (k = n ∨ 0 < k ∧ Jammed (c k) ∧ (c k).plat.params.jamBlocksInterrupts = true → run n (c 0) = .next (c k)) ∧
    (k < n → ¬ (Jammed (c k) ∧ (c k).plat.params.jamBlocksInterrupts = true) → (∀ t, loopOnce (c k) ≠ .next t) →
      ∀ t, run n (c 0) ≠ .next t)) ∧
  (∀ (s : State) (n : Nat), Jammed s → s.plat.params.jamBlocksInterrupts = true → run n s = .next s)

/-! ## The step and the interrupts -/

/-- When the bytes at `PC` decode to an instruction, the step is that instruction's execution in the state whose `PC` is
past it and whose cycle count is its base count; then the poll, unless the instruction jammed and the platform lets a jam
block interrupts; then the clock, and nothing of the bound instruction is left (R22, R34, R122, R130). The bytes are those
of the template they select, whose length counts a prefix too (R120, R121). -/
def Obligations.StepRunsDecodedInstruction : Prop :=
  ∀ (s : State) (bytes : List Byte) (i : Instr) (T : Template), decodeWith s.plat.params bytes = .ok (i, []) →
    T = templateOf s.plat.params bytes → T.length = bytes.length →
    (∀ k, k < bytes.length → s.peek (s.pc + BitVec.ofNat 16 k) = bytes[k]?) →
    step s =
      match exec i { s with
        pc := s.pc + BitVec.ofNat 16 bytes.length
        cycles := T.cycles
        jamNow := false
        pagePenalty := T.pagePenalty } with
      | .next t =>
        if t.jamNow = true ∧ t.plat.params.jamBlocksInterrupts = true then
          .next { t with
            clk := t.clk + t.cycles
            jamNow := false
            pagePenalty := false }
        else (match pollInterrupts t with
          | .ok u => .next { u with
              clk := u.clk + u.cycles
              jamNow := false
              pagePenalty := false }
          | .error e => outcome (.error e))
      | .fault f => .fault f
      | .refused r => .refused r

/-- The poll (R355, R357): NMI if it is requested, else IRQ if it is requested and I is clear, else nothing: a masked IRQ
stays requested (R353). The cycle-count part of the predicate is constantly true (R9), by hypothesis (log 11). A request
sets its line's latch and nothing else, and a second one changes nothing (R352). -/
def Obligations.PollServesByPriority : Prop :=
  ∀ (s : State),
    (s.plat.params.intTime = .always → s.world.nmiReq = true → pollInterrupts s = service s .nmi) ∧
    (s.plat.params.intTime = .always → s.world.nmiReq = false → s.world.irqReq = true → s.flag .i = false →
      pollInterrupts s = service s .irq) ∧
    (s.world.nmiReq = false → s.world.irqReq = true → s.flag .i = true → pollInterrupts s = .ok s) ∧
    (s.world.nmiReq = false → s.world.irqReq = false → pollInterrupts s = .ok s) ∧
    (∀ l, (requestInterrupt s l).world.requested l = true ∧
      (∀ l', l' ≠ l → (requestInterrupt s l).world.requested l' = s.world.requested l') ∧
      SameCpu s (requestInterrupt s l) ∧ MemKept s (requestInterrupt s l) [] ∧
      requestInterrupt (requestInterrupt s l) l = requestInterrupt s l)

/-- Service of a line (R360, R361, R364): the frame, I set for IRQ (for NMI as `NMI_SETS_I` says), `PC` from the line's
vector as it shows after the pushes (R363), the line's latch cleared and the other kept (R354), `INT_CYCLES` more cycles. -/
def Obligations.InterruptServiceFrame : Prop :=
  ∀ (s : State) (l : Line) (vector : Word),
    vector = (match l with | .nmi => s.plat.params.vecNmi | .irq => s.plat.params.vecIrq) →
    StackReady s → Ordinary s vector → Ordinary s (vector + 1#16) →
    ∃ t lo hi, service s l = .ok t ∧ t.peek vector = some lo ∧ t.peek (vector + 1#16) = some hi ∧
      t.pc = wordOf hi lo ∧ t.sp = s.sp - 3#8 ∧
      t.peek (s.stackAddr s.sp) = some (hiByte s.pc) ∧ t.peek (s.stackAddr (s.sp - 1#8)) = some (loByte s.pc) ∧
      t.peek (s.stackAddr (s.sp - 2#8)) = some ((s.p &&& 0xEF#8) ||| 0x20#8) ∧
      t.flag .i = (s.flag .i || decide (l = .irq) || s.plat.params.nmiSetsI) ∧
      (∀ f, f ≠ .i → t.flag f = s.flag f) ∧ t.p.getLsbD 5 = s.p.getLsbD 5 ∧
      t.a = s.a ∧ t.x = s.x ∧ t.y = s.y ∧ t.stackAnomaly = (s.stackAnomaly || decide (s.sp.toNat < 3)) ∧
      t.world.requested l = false ∧ (∀ l', l' ≠ l → t.world.requested l' = s.world.requested l') ∧
      t.cycles = s.cycles + s.plat.params.intCycles ∧ t.clk = s.clk ∧ t.jamNow = s.jamNow ∧
      t.pagePenalty = s.pagePenalty ∧ t.plat = s.plat ∧
      MemKept s t [s.stackAddr s.sp, s.stackAddr (s.sp - 1#8), s.stackAddr (s.sp - 2#8)]

/-- RTI after service continues where the program was, with `SP` and the flags of that moment, the stored Break bit apart,
which comes back 0 (R28, R360, R366). -/
def Obligations.ServiceThenReturn : Prop :=
  ∀ (s : State) (l : Line), StackReady s →
    Ordinary s (lineVector s.plat.params l) → Ordinary s (lineVector s.plat.params l + 1#16) →
    ∃ t u, service s l = .ok t ∧ exec .rti t = .next u ∧ u.pc = s.pc ∧ u.sp = s.sp ∧
      u.p = (s.p &&& 0xEF#8) ||| 0x20#8 ∧ u.a = s.a ∧ u.x = s.x ∧ u.y = s.y

/-! ## Reset and whole-machine properties -/

/-- The values of the parameters that R9 takes, and the values of the state after reset that R37 gives: I and bit 5 are
1, both lines are Idle, no anomaly, the clock 0, and `PC` is the word that memory shows at `VEC_RESET`. What that word
is rests on the model's reset memory (log 4, log 5). -/
def Obligations.ResetStateValues : Prop :=
  (∃ pr, State.reset.plat.params = pr ∧ pr.arch = .mos6502NmosDocumented ∧ pr.dataW.bits = 8 ∧ pr.addrW.bits = 16 ∧
    pr.endian = .little ∧ pr.nLevels = 1 ∧ pr.prefixes = [] ∧
    pr.stackBase = 0x0100#16 ∧ pr.stackSize = 0x100 ∧ pr.vecNmi = 0xFFFA#16 ∧ pr.vecReset = 0xFFFC#16 ∧ pr.vecIrq = 0xFFFE#16 ∧ pr.intCycles = 7 ∧ pr.jamSet = [0xFF#8] ∧ pr.jamCycles = 2 ∧
    pr.intTime = .always ∧ pr.nmiSetsI = false ∧ pr.jamBlocksInterrupts = true) ∧
  State.reset.flag .i = true ∧ State.reset.p.getLsbD 5 = true ∧ State.reset.world.nmiReq = false ∧
  State.reset.world.irqReq = false ∧ State.reset.stackAnomaly = false ∧ State.reset.clk = 0 ∧
  ∃ lo hi, State.reset.peek 0xFFFC#16 = some lo ∧ State.reset.peek 0xFFFD#16 = some hi ∧
    State.reset.pc = wordOf hi lo

/-- `Reset()` (R400, R401), for every draw of the unspecified values (R402): it writes no memory and leaves the
configuration, the chips and the observer lists alone. -/
def Obligations.ResetProcedure : Prop :=
  ∀ (s : State) (d : ResetDraw) (lo hi : Byte),
    s.peek s.plat.params.vecReset = some lo → s.peek (s.plat.params.vecReset + 1#16) = some hi →
    ∃ t, resetMachine s d = .ok t ∧ t.pc = wordOf hi lo ∧ t.a = d.a ∧ t.x = d.x ∧ t.y = d.y ∧ t.sp = d.sp ∧
      t.flag .i = true ∧ t.p.getLsbD 5 = true ∧ (∀ f, f ≠ .i → t.flag f = getFlag d.p f) ∧
      t.world.nmiReq = false ∧ t.world.irqReq = false ∧ t.stackAnomaly = false ∧ t.clk = 0 ∧
      t.plat = s.plat ∧ t.world.storages = s.world.storages ∧ MemKept s t []

/-- The state after reset meets the invariant `Safety.Inv`. -/
def Obligations.ResetMeetsInvariant : Prop := Inv State.reset

/-- Every step keeps the invariant `Safety.Inv`, on every platform and whatever the chips do: bit 5 of `P` reads 1
(R27, R38), the memory keeps its canonical form, each observer stays registered once (R94), and the configuration stays
one the spec gives a meaning: no two active subsets overlap, and the Stack subset alone answers the stack's range (R75,
R82); and nothing of a bound instruction or of a jam survives the step (R34, R35). -/
def Obligations.StepKeepsInvariant : Prop :=
  ∀ (s t : State), Inv s → step s = .next t → Inv t

/-- A step adds the cycles it reports to the clock (R30, R130) and leaves the fixed configuration as it is (R34); where
every template has at least two cycles, as with the parameters of R9, it reports at least two. -/
def Obligations.StepAdvancesTheClock : Prop :=
  (∀ (s t : State), step s = .next t → t.clk = s.clk + t.cycles ∧ t.plat = s.plat ∧
    ((∀ bytes, 2 ≤ (templateOf s.plat.params bytes).cycles) → 2 ≤ t.cycles)) ∧
  ∀ bytes, 2 ≤ (templateOf Params.default bytes).cycles

/-- Where all of memory is ordinary, every step has a next state, and memory is ordinary after it: no instruction, operand
or interrupt ends the run (R13, R135, R350). `DecimalArith` = `nmos6502` is a hypothesis (log 10). -/
def Obligations.StepCompletesOnOrdinaryMemory : Prop :=
  ∀ (s : State), AllOrdinary s → s.plat.params.decimalArith = .nmos6502 →
    ∃ t, step s = .next t ∧ AllOrdinary t

/-- The only fault a step ends in is `NoSubset` (R350, R369); where no register subset is active, so that the configuration
does not change during the step, its address is one that no active subset contains (R74). -/
def Obligations.OnlyMissingSubsetFaults : Prop :=
  ∀ (s : State) (f : Fault), step s = .fault f → ∃ a, f = .noSubset a ∧
    ((∀ (j : SubsetId) (u : Subset) (c : ChipId), s.plat.subsets[j]? = some u → s.world.active[j]? = some true →
        u.kind ≠ .register c) →
      ∀ j u, ¬ Contains s.plat s.world a j u)
end

