-- ==== Sys2Proof/Laws/State.lean ====
section
/-! SUPPORT. One lemma per field per state update, each true by `rfl`. -/

namespace Sys2Proof.Machine

variable (s : State)

@[simp] theorem State.setA_a (v : Byte) : (s.setA v).a = v := rfl
@[simp] theorem State.setA_x (v : Byte) : (s.setA v).x = s.x := rfl
@[simp] theorem State.setA_y (v : Byte) : (s.setA v).y = s.y := rfl
@[simp] theorem State.setA_sp (v : Byte) : (s.setA v).sp = s.sp := rfl
@[simp] theorem State.setA_pc (v : Byte) : (s.setA v).pc = s.pc := rfl
@[simp] theorem State.setA_p (v : Byte) : (s.setA v).p = s.p := rfl
@[simp] theorem State.setA_stackAnomaly (v : Byte) : (s.setA v).stackAnomaly = s.stackAnomaly := rfl
@[simp] theorem State.setA_clk (v : Byte) : (s.setA v).clk = s.clk := rfl
@[simp] theorem State.setA_cycles (v : Byte) : (s.setA v).cycles = s.cycles := rfl
@[simp] theorem State.setA_jamNow (v : Byte) : (s.setA v).jamNow = s.jamNow := rfl
@[simp] theorem State.setA_pagePenalty (v : Byte) : (s.setA v).pagePenalty = s.pagePenalty := rfl
@[simp] theorem State.setA_world (v : Byte) : (s.setA v).world = s.world := rfl
@[simp] theorem State.setA_plat (v : Byte) : (s.setA v).plat = s.plat := rfl

@[simp] theorem State.setX_a (v : Byte) : (s.setX v).a = s.a := rfl
@[simp] theorem State.setX_x (v : Byte) : (s.setX v).x = v := rfl
@[simp] theorem State.setX_y (v : Byte) : (s.setX v).y = s.y := rfl
@[simp] theorem State.setX_sp (v : Byte) : (s.setX v).sp = s.sp := rfl
@[simp] theorem State.setX_pc (v : Byte) : (s.setX v).pc = s.pc := rfl
@[simp] theorem State.setX_p (v : Byte) : (s.setX v).p = s.p := rfl
@[simp] theorem State.setX_stackAnomaly (v : Byte) : (s.setX v).stackAnomaly = s.stackAnomaly := rfl
@[simp] theorem State.setX_clk (v : Byte) : (s.setX v).clk = s.clk := rfl
@[simp] theorem State.setX_cycles (v : Byte) : (s.setX v).cycles = s.cycles := rfl
@[simp] theorem State.setX_jamNow (v : Byte) : (s.setX v).jamNow = s.jamNow := rfl
@[simp] theorem State.setX_pagePenalty (v : Byte) : (s.setX v).pagePenalty = s.pagePenalty := rfl
@[simp] theorem State.setX_world (v : Byte) : (s.setX v).world = s.world := rfl
@[simp] theorem State.setX_plat (v : Byte) : (s.setX v).plat = s.plat := rfl

@[simp] theorem State.setY_a (v : Byte) : (s.setY v).a = s.a := rfl
@[simp] theorem State.setY_x (v : Byte) : (s.setY v).x = s.x := rfl
@[simp] theorem State.setY_y (v : Byte) : (s.setY v).y = v := rfl
@[simp] theorem State.setY_sp (v : Byte) : (s.setY v).sp = s.sp := rfl
@[simp] theorem State.setY_pc (v : Byte) : (s.setY v).pc = s.pc := rfl
@[simp] theorem State.setY_p (v : Byte) : (s.setY v).p = s.p := rfl
@[simp] theorem State.setY_stackAnomaly (v : Byte) : (s.setY v).stackAnomaly = s.stackAnomaly := rfl
@[simp] theorem State.setY_clk (v : Byte) : (s.setY v).clk = s.clk := rfl
@[simp] theorem State.setY_cycles (v : Byte) : (s.setY v).cycles = s.cycles := rfl
@[simp] theorem State.setY_jamNow (v : Byte) : (s.setY v).jamNow = s.jamNow := rfl
@[simp] theorem State.setY_pagePenalty (v : Byte) : (s.setY v).pagePenalty = s.pagePenalty := rfl
@[simp] theorem State.setY_world (v : Byte) : (s.setY v).world = s.world := rfl
@[simp] theorem State.setY_plat (v : Byte) : (s.setY v).plat = s.plat := rfl

@[simp] theorem State.setSp_a (v : Byte) : (s.setSp v).a = s.a := rfl
@[simp] theorem State.setSp_x (v : Byte) : (s.setSp v).x = s.x := rfl
@[simp] theorem State.setSp_y (v : Byte) : (s.setSp v).y = s.y := rfl
@[simp] theorem State.setSp_sp (v : Byte) : (s.setSp v).sp = v := rfl
@[simp] theorem State.setSp_pc (v : Byte) : (s.setSp v).pc = s.pc := rfl
@[simp] theorem State.setSp_p (v : Byte) : (s.setSp v).p = s.p := rfl
@[simp] theorem State.setSp_stackAnomaly (v : Byte) : (s.setSp v).stackAnomaly = s.stackAnomaly := rfl
@[simp] theorem State.setSp_clk (v : Byte) : (s.setSp v).clk = s.clk := rfl
@[simp] theorem State.setSp_cycles (v : Byte) : (s.setSp v).cycles = s.cycles := rfl
@[simp] theorem State.setSp_jamNow (v : Byte) : (s.setSp v).jamNow = s.jamNow := rfl
@[simp] theorem State.setSp_pagePenalty (v : Byte) : (s.setSp v).pagePenalty = s.pagePenalty := rfl
@[simp] theorem State.setSp_world (v : Byte) : (s.setSp v).world = s.world := rfl
@[simp] theorem State.setSp_plat (v : Byte) : (s.setSp v).plat = s.plat := rfl

@[simp] theorem State.setPc_a (v : Word) : (s.setPc v).a = s.a := rfl
@[simp] theorem State.setPc_x (v : Word) : (s.setPc v).x = s.x := rfl
@[simp] theorem State.setPc_y (v : Word) : (s.setPc v).y = s.y := rfl
@[simp] theorem State.setPc_sp (v : Word) : (s.setPc v).sp = s.sp := rfl
@[simp] theorem State.setPc_pc (v : Word) : (s.setPc v).pc = v := rfl
@[simp] theorem State.setPc_p (v : Word) : (s.setPc v).p = s.p := rfl
@[simp] theorem State.setPc_stackAnomaly (v : Word) : (s.setPc v).stackAnomaly = s.stackAnomaly := rfl
@[simp] theorem State.setPc_clk (v : Word) : (s.setPc v).clk = s.clk := rfl
@[simp] theorem State.setPc_cycles (v : Word) : (s.setPc v).cycles = s.cycles := rfl
@[simp] theorem State.setPc_jamNow (v : Word) : (s.setPc v).jamNow = s.jamNow := rfl
@[simp] theorem State.setPc_pagePenalty (v : Word) : (s.setPc v).pagePenalty = s.pagePenalty := rfl
@[simp] theorem State.setPc_world (v : Word) : (s.setPc v).world = s.world := rfl
@[simp] theorem State.setPc_plat (v : Word) : (s.setPc v).plat = s.plat := rfl

@[simp] theorem State.noteAnomaly_a (b : Bool) : (s.noteAnomaly b).a = s.a := rfl
@[simp] theorem State.noteAnomaly_x (b : Bool) : (s.noteAnomaly b).x = s.x := rfl
@[simp] theorem State.noteAnomaly_y (b : Bool) : (s.noteAnomaly b).y = s.y := rfl
@[simp] theorem State.noteAnomaly_sp (b : Bool) : (s.noteAnomaly b).sp = s.sp := rfl
@[simp] theorem State.noteAnomaly_pc (b : Bool) : (s.noteAnomaly b).pc = s.pc := rfl
@[simp] theorem State.noteAnomaly_p (b : Bool) : (s.noteAnomaly b).p = s.p := rfl
@[simp] theorem State.noteAnomaly_stackAnomaly (b : Bool) : (s.noteAnomaly b).stackAnomaly = (s.stackAnomaly || b) := rfl
@[simp] theorem State.noteAnomaly_clk (b : Bool) : (s.noteAnomaly b).clk = s.clk := rfl
@[simp] theorem State.noteAnomaly_cycles (b : Bool) : (s.noteAnomaly b).cycles = s.cycles := rfl
@[simp] theorem State.noteAnomaly_jamNow (b : Bool) : (s.noteAnomaly b).jamNow = s.jamNow := rfl
@[simp] theorem State.noteAnomaly_pagePenalty (b : Bool) : (s.noteAnomaly b).pagePenalty = s.pagePenalty := rfl
@[simp] theorem State.noteAnomaly_world (b : Bool) : (s.noteAnomaly b).world = s.world := rfl
@[simp] theorem State.noteAnomaly_plat (b : Bool) : (s.noteAnomaly b).plat = s.plat := rfl

@[simp] theorem State.addCycles_a (n : Nat) : (s.addCycles n).a = s.a := rfl
@[simp] theorem State.addCycles_x (n : Nat) : (s.addCycles n).x = s.x := rfl
@[simp] theorem State.addCycles_y (n : Nat) : (s.addCycles n).y = s.y := rfl
@[simp] theorem State.addCycles_sp (n : Nat) : (s.addCycles n).sp = s.sp := rfl
@[simp] theorem State.addCycles_pc (n : Nat) : (s.addCycles n).pc = s.pc := rfl
@[simp] theorem State.addCycles_p (n : Nat) : (s.addCycles n).p = s.p := rfl
@[simp] theorem State.addCycles_stackAnomaly (n : Nat) : (s.addCycles n).stackAnomaly = s.stackAnomaly := rfl
@[simp] theorem State.addCycles_clk (n : Nat) : (s.addCycles n).clk = s.clk := rfl
@[simp] theorem State.addCycles_cycles (n : Nat) : (s.addCycles n).cycles = s.cycles + n := rfl
@[simp] theorem State.addCycles_jamNow (n : Nat) : (s.addCycles n).jamNow = s.jamNow := rfl
@[simp] theorem State.addCycles_pagePenalty (n : Nat) : (s.addCycles n).pagePenalty = s.pagePenalty := rfl
@[simp] theorem State.addCycles_world (n : Nat) : (s.addCycles n).world = s.world := rfl
@[simp] theorem State.addCycles_plat (n : Nat) : (s.addCycles n).plat = s.plat := rfl

@[simp] theorem State.setWorld_a (w : World) : (s.setWorld w).a = s.a := rfl
@[simp] theorem State.setWorld_x (w : World) : (s.setWorld w).x = s.x := rfl
@[simp] theorem State.setWorld_y (w : World) : (s.setWorld w).y = s.y := rfl
@[simp] theorem State.setWorld_sp (w : World) : (s.setWorld w).sp = s.sp := rfl
@[simp] theorem State.setWorld_pc (w : World) : (s.setWorld w).pc = s.pc := rfl
@[simp] theorem State.setWorld_p (w : World) : (s.setWorld w).p = s.p := rfl
@[simp] theorem State.setWorld_stackAnomaly (w : World) : (s.setWorld w).stackAnomaly = s.stackAnomaly := rfl
@[simp] theorem State.setWorld_clk (w : World) : (s.setWorld w).clk = s.clk := rfl
@[simp] theorem State.setWorld_cycles (w : World) : (s.setWorld w).cycles = s.cycles := rfl
@[simp] theorem State.setWorld_jamNow (w : World) : (s.setWorld w).jamNow = s.jamNow := rfl
@[simp] theorem State.setWorld_pagePenalty (w : World) : (s.setWorld w).pagePenalty = s.pagePenalty := rfl
@[simp] theorem State.setWorld_world (w : World) : (s.setWorld w).world = w := rfl
@[simp] theorem State.setWorld_plat (w : World) : (s.setWorld w).plat = s.plat := rfl

@[simp] theorem State.setJam_a : (s.setJam).a = s.a := rfl
@[simp] theorem State.setJam_x : (s.setJam).x = s.x := rfl
@[simp] theorem State.setJam_y : (s.setJam).y = s.y := rfl
@[simp] theorem State.setJam_sp : (s.setJam).sp = s.sp := rfl
@[simp] theorem State.setJam_pc : (s.setJam).pc = s.pc := rfl
@[simp] theorem State.setJam_p : (s.setJam).p = s.p := rfl
@[simp] theorem State.setJam_stackAnomaly : (s.setJam).stackAnomaly = s.stackAnomaly := rfl
@[simp] theorem State.setJam_clk : (s.setJam).clk = s.clk := rfl
@[simp] theorem State.setJam_cycles : (s.setJam).cycles = s.cycles := rfl
@[simp] theorem State.setJam_jamNow : (s.setJam).jamNow = true := rfl
@[simp] theorem State.setJam_pagePenalty : (s.setJam).pagePenalty = s.pagePenalty := rfl
@[simp] theorem State.setJam_world : (s.setJam).world = s.world := rfl
@[simp] theorem State.setJam_plat : (s.setJam).plat = s.plat := rfl

@[simp] theorem State.setFlag_a (f : Flag) (v : Bool) : (s.setFlag f v).a = s.a := rfl
@[simp] theorem State.setFlag_x (f : Flag) (v : Bool) : (s.setFlag f v).x = s.x := rfl
@[simp] theorem State.setFlag_y (f : Flag) (v : Bool) : (s.setFlag f v).y = s.y := rfl
@[simp] theorem State.setFlag_sp (f : Flag) (v : Bool) : (s.setFlag f v).sp = s.sp := rfl
@[simp] theorem State.setFlag_pc (f : Flag) (v : Bool) : (s.setFlag f v).pc = s.pc := rfl
@[simp] theorem State.setFlag_p (f : Flag) (v : Bool) : (s.setFlag f v).p = putFlag s.p f v := rfl
@[simp] theorem State.setFlag_stackAnomaly (f : Flag) (v : Bool) : (s.setFlag f v).stackAnomaly = s.stackAnomaly := rfl
@[simp] theorem State.setFlag_clk (f : Flag) (v : Bool) : (s.setFlag f v).clk = s.clk := rfl
@[simp] theorem State.setFlag_cycles (f : Flag) (v : Bool) : (s.setFlag f v).cycles = s.cycles := rfl
@[simp] theorem State.setFlag_jamNow (f : Flag) (v : Bool) : (s.setFlag f v).jamNow = s.jamNow := rfl
@[simp] theorem State.setFlag_pagePenalty (f : Flag) (v : Bool) : (s.setFlag f v).pagePenalty = s.pagePenalty := rfl
@[simp] theorem State.setFlag_world (f : Flag) (v : Bool) : (s.setFlag f v).world = s.world := rfl
@[simp] theorem State.setFlag_plat (f : Flag) (v : Bool) : (s.setFlag f v).plat = s.plat := rfl

@[simp] theorem State.loadStatus_a (v : Byte) : (s.loadStatus v).a = s.a := rfl
@[simp] theorem State.loadStatus_x (v : Byte) : (s.loadStatus v).x = s.x := rfl
@[simp] theorem State.loadStatus_y (v : Byte) : (s.loadStatus v).y = s.y := rfl
@[simp] theorem State.loadStatus_sp (v : Byte) : (s.loadStatus v).sp = s.sp := rfl
@[simp] theorem State.loadStatus_pc (v : Byte) : (s.loadStatus v).pc = s.pc := rfl
@[simp] theorem State.loadStatus_p (v : Byte) : (s.loadStatus v).p = v ||| 0x20#8 := rfl
@[simp] theorem State.loadStatus_stackAnomaly (v : Byte) : (s.loadStatus v).stackAnomaly = s.stackAnomaly := rfl
@[simp] theorem State.loadStatus_clk (v : Byte) : (s.loadStatus v).clk = s.clk := rfl
@[simp] theorem State.loadStatus_cycles (v : Byte) : (s.loadStatus v).cycles = s.cycles := rfl
@[simp] theorem State.loadStatus_jamNow (v : Byte) : (s.loadStatus v).jamNow = s.jamNow := rfl
@[simp] theorem State.loadStatus_pagePenalty (v : Byte) : (s.loadStatus v).pagePenalty = s.pagePenalty := rfl
@[simp] theorem State.loadStatus_world (v : Byte) : (s.loadStatus v).world = s.world := rfl
@[simp] theorem State.loadStatus_plat (v : Byte) : (s.loadStatus v).plat = s.plat := rfl

@[simp] theorem State.setNZ_a (v : Byte) : (s.setNZ v).a = s.a := rfl
@[simp] theorem State.setNZ_x (v : Byte) : (s.setNZ v).x = s.x := rfl
@[simp] theorem State.setNZ_y (v : Byte) : (s.setNZ v).y = s.y := rfl
@[simp] theorem State.setNZ_sp (v : Byte) : (s.setNZ v).sp = s.sp := rfl
@[simp] theorem State.setNZ_pc (v : Byte) : (s.setNZ v).pc = s.pc := rfl
@[simp] theorem State.setNZ_p (v : Byte) : (s.setNZ v).p = putNZ s.p v := rfl
@[simp] theorem State.setNZ_stackAnomaly (v : Byte) : (s.setNZ v).stackAnomaly = s.stackAnomaly := rfl
@[simp] theorem State.setNZ_clk (v : Byte) : (s.setNZ v).clk = s.clk := rfl
@[simp] theorem State.setNZ_cycles (v : Byte) : (s.setNZ v).cycles = s.cycles := rfl
@[simp] theorem State.setNZ_jamNow (v : Byte) : (s.setNZ v).jamNow = s.jamNow := rfl
@[simp] theorem State.setNZ_pagePenalty (v : Byte) : (s.setNZ v).pagePenalty = s.pagePenalty := rfl
@[simp] theorem State.setNZ_world (v : Byte) : (s.setNZ v).world = s.world := rfl
@[simp] theorem State.setNZ_plat (v : Byte) : (s.setNZ v).plat = s.plat := rfl

@[simp] theorem State.setArith_a (r : AluResult) : (s.setArith r).a = r.r := rfl
@[simp] theorem State.setArith_x (r : AluResult) : (s.setArith r).x = s.x := rfl
@[simp] theorem State.setArith_y (r : AluResult) : (s.setArith r).y = s.y := rfl
@[simp] theorem State.setArith_sp (r : AluResult) : (s.setArith r).sp = s.sp := rfl
@[simp] theorem State.setArith_pc (r : AluResult) : (s.setArith r).pc = s.pc := rfl
@[simp] theorem State.setArith_p (r : AluResult) : (s.setArith r).p = putArith s.p r := rfl
@[simp] theorem State.setArith_stackAnomaly (r : AluResult) : (s.setArith r).stackAnomaly = s.stackAnomaly := rfl
@[simp] theorem State.setArith_clk (r : AluResult) : (s.setArith r).clk = s.clk := rfl
@[simp] theorem State.setArith_cycles (r : AluResult) : (s.setArith r).cycles = s.cycles := rfl
@[simp] theorem State.setArith_jamNow (r : AluResult) : (s.setArith r).jamNow = s.jamNow := rfl
@[simp] theorem State.setArith_pagePenalty (r : AluResult) : (s.setArith r).pagePenalty = s.pagePenalty := rfl
@[simp] theorem State.setArith_world (r : AluResult) : (s.setArith r).world = s.world := rfl
@[simp] theorem State.setArith_plat (r : AluResult) : (s.setArith r).plat = s.plat := rfl

@[simp] theorem State.compare_a (r m : Byte) : (s.compare r m).a = s.a := rfl
@[simp] theorem State.compare_x (r m : Byte) : (s.compare r m).x = s.x := rfl
@[simp] theorem State.compare_y (r m : Byte) : (s.compare r m).y = s.y := rfl
@[simp] theorem State.compare_sp (r m : Byte) : (s.compare r m).sp = s.sp := rfl
@[simp] theorem State.compare_pc (r m : Byte) : (s.compare r m).pc = s.pc := rfl
@[simp] theorem State.compare_p (r m : Byte) : (s.compare r m).p = putCompare s.p r m := rfl
@[simp] theorem State.compare_stackAnomaly (r m : Byte) : (s.compare r m).stackAnomaly = s.stackAnomaly := rfl
@[simp] theorem State.compare_clk (r m : Byte) : (s.compare r m).clk = s.clk := rfl
@[simp] theorem State.compare_cycles (r m : Byte) : (s.compare r m).cycles = s.cycles := rfl
@[simp] theorem State.compare_jamNow (r m : Byte) : (s.compare r m).jamNow = s.jamNow := rfl
@[simp] theorem State.compare_pagePenalty (r m : Byte) : (s.compare r m).pagePenalty = s.pagePenalty := rfl
@[simp] theorem State.compare_world (r m : Byte) : (s.compare r m).world = s.world := rfl
@[simp] theorem State.compare_plat (r m : Byte) : (s.compare r m).plat = s.plat := rfl

@[simp] theorem State.setP_a (v : Byte) : (s.setP v).a = s.a := rfl
@[simp] theorem State.setP_x (v : Byte) : (s.setP v).x = s.x := rfl
@[simp] theorem State.setP_y (v : Byte) : (s.setP v).y = s.y := rfl
@[simp] theorem State.setP_sp (v : Byte) : (s.setP v).sp = s.sp := rfl
@[simp] theorem State.setP_pc (v : Byte) : (s.setP v).pc = s.pc := rfl
@[simp] theorem State.setP_p (v : Byte) : (s.setP v).p = v := rfl
@[simp] theorem State.setP_stackAnomaly (v : Byte) : (s.setP v).stackAnomaly = s.stackAnomaly := rfl
@[simp] theorem State.setP_clk (v : Byte) : (s.setP v).clk = s.clk := rfl
@[simp] theorem State.setP_cycles (v : Byte) : (s.setP v).cycles = s.cycles := rfl
@[simp] theorem State.setP_jamNow (v : Byte) : (s.setP v).jamNow = s.jamNow := rfl
@[simp] theorem State.setP_pagePenalty (v : Byte) : (s.setP v).pagePenalty = s.pagePenalty := rfl
@[simp] theorem State.setP_world (v : Byte) : (s.setP v).world = s.world := rfl
@[simp] theorem State.setP_plat (v : Byte) : (s.setP v).plat = s.plat := rfl

@[simp] theorem beginExecute_a (t : Template) : (beginExecute s t).a = s.a := rfl
@[simp] theorem beginExecute_x (t : Template) : (beginExecute s t).x = s.x := rfl
@[simp] theorem beginExecute_y (t : Template) : (beginExecute s t).y = s.y := rfl
@[simp] theorem beginExecute_sp (t : Template) : (beginExecute s t).sp = s.sp := rfl
@[simp] theorem beginExecute_pc (t : Template) : (beginExecute s t).pc = s.pc + BitVec.ofNat 16 t.length := rfl
@[simp] theorem beginExecute_p (t : Template) : (beginExecute s t).p = s.p := rfl
@[simp] theorem beginExecute_stackAnomaly (t : Template) : (beginExecute s t).stackAnomaly = s.stackAnomaly := rfl
@[simp] theorem beginExecute_clk (t : Template) : (beginExecute s t).clk = s.clk := rfl
@[simp] theorem beginExecute_cycles (t : Template) : (beginExecute s t).cycles = t.cycles := rfl
@[simp] theorem beginExecute_jamNow (t : Template) : (beginExecute s t).jamNow = false := rfl
@[simp] theorem beginExecute_pagePenalty (t : Template) : (beginExecute s t).pagePenalty = t.pagePenalty := rfl
@[simp] theorem beginExecute_world (t : Template) : (beginExecute s t).world = s.world := rfl
@[simp] theorem beginExecute_plat (t : Template) : (beginExecute s t).plat = s.plat := rfl

@[simp] theorem State.closeStep_a : s.closeStep.a = s.a := rfl
@[simp] theorem State.closeStep_x : s.closeStep.x = s.x := rfl
@[simp] theorem State.closeStep_y : s.closeStep.y = s.y := rfl
@[simp] theorem State.closeStep_sp : s.closeStep.sp = s.sp := rfl
@[simp] theorem State.closeStep_pc : s.closeStep.pc = s.pc := rfl
@[simp] theorem State.closeStep_p : s.closeStep.p = s.p := rfl
@[simp] theorem State.closeStep_stackAnomaly : s.closeStep.stackAnomaly = s.stackAnomaly := rfl
@[simp] theorem State.closeStep_clk : s.closeStep.clk = s.clk + s.cycles := rfl
@[simp] theorem State.closeStep_cycles : s.closeStep.cycles = s.cycles := rfl
@[simp] theorem State.closeStep_jamNow : s.closeStep.jamNow = false := rfl
@[simp] theorem State.closeStep_pagePenalty : s.closeStep.pagePenalty = false := rfl
@[simp] theorem State.closeStep_world : s.closeStep.world = s.world := rfl
@[simp] theorem State.closeStep_plat : s.closeStep.plat = s.plat := rfl

/-- A world put back where it was. -/
@[simp] theorem State.setWorld_world_eq : s.setWorld s.world = s := rfl
@[simp] theorem State.setWorld_setWorld (w w' : World) : (s.setWorld w).setWorld w' = s.setWorld w' := rfl

end Sys2Proof.Machine
end

