-- ==== Sys2Proof/Laws/Memory.lean ====
section
/-! SUPPORT. Storages: read after write, every other byte left alone, and the canonical form kept (`Memory.wf`). -/

namespace Sys2Proof.Machine

theorem cellAt_dropCell (l : List Host.Cell) (k j : Nat) :
    cellAt (dropCell l k) j = if j = k then blankByte else cellAt l j := by
  induction l with
  | nil => simp [dropCell, cellAt]
  | cons e t ih =>
    simp only [dropCell, List.filter_cons] at *
    by_cases h : e.1 = k <;> by_cases hj : j = k <;> simp_all [cellAt]
    intro h'; exact absurd h'.symm hj

theorem cellAt_insertCell (l : List Host.Cell) (k j : Nat) (v : Byte) (h : ∀ e ∈ l, e.1 ≠ k) :
    cellAt (insertCell l k v) j = if j = k then v else cellAt l j := by
  induction l with
  | nil => simp [insertCell, cellAt, eq_comm]
  | cons e t ih =>
    have hk : e.1 ≠ k := h e (by simp)
    have ht := ih (fun e' he' => h e' (by simp [he']))
    unfold insertCell
    split
    · simp [cellAt, eq_comm]
    · by_cases hj : j = k
      · subst hj; simp [cellAt, hk, ht]
      · simp [cellAt, ht, hj]

theorem dropCell_ne (l : List Host.Cell) (k : Nat) : ∀ e ∈ dropCell l k, e.1 ≠ k := by
  intro e he; simpa [dropCell] using (List.mem_filter.mp he).2

/-- A cell reads as the byte written to it, every other index as before (R67). -/
theorem cellAt_putCell (l : List Host.Cell) (k j : Nat) (v : Byte) :
    cellAt (putCell l k v) j = if j = k then v else cellAt l j := by
  unfold putCell
  split
  · rename_i h; simp [cellAt_dropCell, h]
  · rw [cellAt_insertCell _ _ _ _ (dropCell_ne l k), cellAt_dropCell]
    split <;> rfl

/-- What a world's storages show after one byte was written. -/
theorem storageByte_putStorage (w : World) (id j : StorageId) (k i : Nat) (v : Byte) :
    storageByte (putStorage w id k v) j i =
      if j = id ∧ i = k then (storageByte w j i).map (fun _ => v) else storageByte w j i := by
  unfold storageByte putStorage
  simp only [List.getElem?_modify]
  by_cases hj : id = j
  · subst hj
    cases h : w.storages[id]? with
    | none => simp
    | some st =>
      by_cases hi : i = k
      · subst hi
        by_cases hs : i < st.size <;> simp [putByte, cellAt_putCell, hs]
      · simp [putByte, cellAt_putCell, hi]
  · have : j ≠ id := fun h => hj h.symm
    simp [hj, this]

/-! ## The canonical form -/

theorem rising_tail {e : Host.Cell} {t : List Host.Cell} (h : rising (e :: t) = true) : rising t = true := by
  cases t with
  | nil => rfl
  | cons f t => simp [rising] at h; exact h.2

theorem rising_cons_iff (e : Host.Cell) (t : List Host.Cell) :
    rising (e :: t) = true ↔ (∀ f ∈ t, e.1 < f.1) ∧ rising t = true := by
  induction t generalizing e with
  | nil => simp [rising]
  | cons f t ih =>
    simp only [rising, Bool.and_eq_true, decide_eq_true_eq, List.mem_cons, forall_eq_or_imp]
    constructor
    · rintro ⟨h1, h2⟩
      exact ⟨⟨h1, fun g hg => lt_trans h1 (((ih f).mp h2).1 g hg)⟩, h2⟩
    · rintro ⟨⟨h1, _⟩, h2⟩; exact ⟨h1, h2⟩

theorem rising_dropCell (l : List Host.Cell) (k : Nat) (h : rising l = true) : rising (dropCell l k) = true := by
  induction l with
  | nil => rfl
  | cons e t ih =>
    have ht := ih (rising_tail h)
    unfold dropCell at *
    rw [List.filter_cons]
    split
    · rw [rising_cons_iff]
      exact ⟨fun f hf => ((rising_cons_iff e t).mp h).1 f (List.mem_filter.mp hf).1, ht⟩
    · exact ht

theorem mem_insertCell (l : List Host.Cell) (k : Nat) (v : Byte) (e : Host.Cell) :
    e ∈ insertCell l k v ↔ e = (k, v) ∨ e ∈ l := by
  induction l with
  | nil => simp [insertCell]
  | cons f t ih =>
    unfold insertCell
    split
    · simp
    · simp [ih]; tauto

theorem rising_insertCell (l : List Host.Cell) (k : Nat) (v : Byte) (h : rising l = true)
    (hk : ∀ e ∈ l, e.1 ≠ k) : rising (insertCell l k v) = true := by
  induction l with
  | nil => rfl
  | cons e t ih =>
    unfold insertCell
    split
    · rename_i hlt
      rw [rising_cons_iff]
      refine ⟨?_, h⟩
      intro f hf
      rcases List.mem_cons.mp hf with rfl | hf
      · exact hlt
      · exact lt_trans hlt (((rising_cons_iff e t).mp h).1 f hf)
    · rename_i hge
      rw [rising_cons_iff]
      refine ⟨?_, ih (rising_tail h) (fun e' he' => hk e' (by simp [he']))⟩
      intro f hf
      rcases (mem_insertCell t k v f).mp hf with rfl | hf
      · have := hk e (by simp)
        show e.1 < k
        omega
      · exact ((rising_cons_iff e t).mp h).1 f hf

/-- Writing a byte inside a storage keeps its canonical form. -/
theorem storageWf_putByte (st : Storage) (k : Nat) (v : Byte) (h : storageWf st = true) (hk : k < st.size) :
    storageWf (putByte st k v) = true := by
  simp only [storageWf, Bool.and_eq_true, List.all_eq_true, bne_iff_ne, putByte] at *
  obtain ⟨hr, hc⟩ := h
  unfold putCell
  split
  · refine ⟨rising_dropCell _ _ hr, fun e he => hc e ?_⟩
    exact (List.mem_filter.mp he).1
  · rename_i hv
    refine ⟨rising_insertCell _ _ _ (rising_dropCell _ _ hr) (dropCell_ne _ _), ?_⟩
    intro e he
    rcases (mem_insertCell _ k v e).mp he with rfl | he
    · exact ⟨decide_eq_true hk, hv⟩
    · exact hc e (List.mem_filter.mp he).1

/-- Writing a byte that a storage has keeps the canonical form of the memory. -/
theorem memoryWf_putStorage (w : World) (id : StorageId) (k : Nat) (v : Byte) (h : Memory.wf w = true)
    (hk : (storageByte w id k).isSome = true) : Memory.wf (putStorage w id k v) = true := by
  simp only [Memory.wf, List.all_eq_true, putStorage] at *
  intro st hst
  obtain ⟨i, hi⟩ := List.mem_iff_getElem?.mp hst
  rw [List.getElem?_modify] at hi
  cases hs : w.storages[i]? with
  | none => simp [hs] at hi
  | some st' =>
    have hwf := h st' (List.mem_of_getElem? hs)
    by_cases hid : id = i
    · subst hid
      simp only [storageByte, hs] at hk
      simp [hs] at hi
      subst hi
      refine storageWf_putByte _ _ _ hwf ?_
      by_contra hlt
      simp [hlt] at hk
    · simp [hs, hid] at hi
      exact hi ▸ hwf

/-- The memory at reset has its canonical form. -/
theorem memoryWf_reset : Memory.wf State.reset.world = true := by decide

end Sys2Proof.Machine
end

