-- ==== Sys2Proof/Laws/Bus.lean ====
section
/-! SUPPORT. The memory fabric: what one access can do, what every handler keeps, the order of delivery. -/

namespace Sys2Proof.Machine

/-! ## Resolution -/

/-- `Resolve` answers a subset exactly when it is the one active subset that contains the address (R65). -/
theorem resolve_ok_iff (pl : Platform) (w : World) (a : Word) (u : Subset) :
    resolve pl w a = .ok u ↔ candidates pl w a = [u] := by
  unfold resolve
  split <;> simp_all

/-- Resolution reads only the configuration (R65, R76): two worlds with the same active subsets resolve alike. -/
theorem resolve_congr (pl : Platform) {w w' : World} (h : w'.active = w.active) (a : Word) :
    resolve pl w' a = resolve pl w a := by
  simp [resolve, candidates, h]

theorem locate_congr (pl : Platform) {w w' : World} (h : w'.active = w.active) (a : Word) :
    locate pl w' a = locate pl w a := by
  simp [locate, resolve_congr pl h]

@[simp] theorem putStorage_active (w : World) (id : StorageId) (k : Nat) (v : Byte) :
    (putStorage w id k v).active = w.active := rfl

@[simp] theorem setRequest_active (w : World) (l : Line) (b : Bool) : (w.setRequest l b).active = w.active := by
  cases l <;> rfl

@[simp] theorem setRequest_storages (w : World) (l : Line) (b : Bool) :
    (w.setRequest l b).storages = w.storages := by
  cases l <;> rfl

@[simp] theorem setRequest_observers (w : World) (l : Line) (b : Bool) :
    (w.setRequest l b).observers = w.observers := by
  cases l <;> rfl

/-! ## Accesses to ordinary memory -/

/-- What an address shows is the storage byte behind it. -/
theorem peekByte_eq (pl : Platform) (w : World) (a : Word) :
    peekByte pl w a = (locate pl w a).bind (fun e => storageByte w e.1 e.2) := by
  unfold peekByte locate
  split
  · split <;> rfl
  · rfl

/-- A load of ordinary memory answers the byte it shows and changes nothing (R66). -/
theorem routedLoad_of_peek (pl : Platform) (io : Ports) (a : Word) (w : World) (v : Byte)
    (h : peekByte pl w a = some v) : routedLoad pl io a w = .ok (v, w) := by
  unfold peekByte at h
  unfold routedLoad
  split at h
  · rename_i u hu
    rw [hu]
    dsimp only
    split at h
    · exact absurd h (by simp)
    all_goals simp_all [plainLoad]
  · exact absurd h (by simp)

/-- Where a load of an address that has a storage byte behind it answers, it is ordinary memory. -/
theorem peek_of_routedLoad (pl : Platform) (io : Ports) (a : Word) (w w' : World) (v : Byte)
    (hl : (locate pl w a).isSome = true) (h : routedLoad pl io a w = .ok (v, w')) :
    peekByte pl w a = some v ∧ w' = w := by
  unfold locate at hl
  unfold routedLoad at h
  unfold peekByte
  split at hl
  · rename_i u hu
    rw [hu] at h
    dsimp only at h
    split at hl
    · simp at hl
    all_goals
      rename_i hk
      simp only [hk, plainLoad] at h ⊢
      cases hb : storageByte w u.storage (viewIndex u a) <;> simp_all
  · simp at hl

/-- A store to a plain subset writes the one storage byte behind the address (R67). -/
theorem routedStore_plain (pl : Platform) (io : Ports) (a : Word) (v : Byte) (w : World) (u : Subset)
    (hu : resolve pl w a = .ok u) (hk : u.kind = .plain)
    (hb : (storageByte w u.storage (viewIndex u a)).isSome = true) :
    routedStore pl io a v w = .ok (putStorage w u.storage (viewIndex u a) v) := by
  obtain ⟨b, hb⟩ := Option.isSome_iff_exists.mp hb
  simp [routedStore, hu, hk, plainStore, hb]

/-- A store to a read-only subset is discarded (R67). -/
theorem routedStore_readonly (pl : Platform) (io : Ports) (a : Word) (v : Byte) (w : World) (u : Subset)
    (hu : resolve pl w a = .ok u) (hk : u.kind = .readonly) : routedStore pl io a v w = .ok w := by
  simp [routedStore, hu, hk]

/-- A store to an address with a storage byte behind it: the byte is replaced, or (read-only) nothing changes. -/
theorem routedStore_cases (pl : Platform) (io : Ports) (a : Word) (v : Byte) (w w' : World)
    (hl : (locate pl w a).isSome = true) (h : routedStore pl io a v w = .ok w') :
    w' = w ∨ ∃ id k, locate pl w a = some (id, k) ∧ (storageByte w id k).isSome = true ∧
      w' = putStorage w id k v := by
  unfold locate at hl ⊢
  unfold routedStore at h
  split at hl
  · rename_i u hu
    rw [hu] at h
    dsimp only at h
    split at hl
    · simp at hl
    · rename_i hk
      simp only [hk, plainStore] at h ⊢
      split at h
      · rename_i b hb
        right
        refine ⟨_, _, rfl, ?_, ?_⟩
        · simp [hb]
        · simpa using h.symm
      · simp at h
    · rename_i hk
      rw [hk] at h
      left; simpa using h.symm
  · simp at hl

/-- What memory shows after one storage byte was written: at the addresses that show that byte, the byte written. -/
theorem peekByte_putStorage (pl : Platform) (w : World) (id : StorageId) (k : Nat) (v : Byte) (b : Word) :
    peekByte pl (putStorage w id k v) b =
      if locate pl w b = some (id, k) then (peekByte pl w b).map (fun _ => v) else peekByte pl w b := by
  rw [peekByte_eq, peekByte_eq, locate_congr pl (putStorage_active w id k v)]
  cases h : locate pl w b with
  | none => simp
  | some e =>
    obtain ⟨j, i⟩ := e
    simp [storageByte_putStorage]

/-! ## Admitted configurations -/

/-- Whether a configuration is admitted depends on the configuration alone. -/
theorem admitted_congr (pl : Platform) {w w' : World} (h : w'.active = w.active) : admitted pl w' = admitted pl w := by
  simp only [admitted, overlapFree, stackRouted, candidates, h]

/-- A switch sets the bits it names, and answers exactly where that leaves the configuration alone or admitted (R75,
R82). -/
theorem switch_ok_iff (pl : Platform) (w w' : World) (changes : List (SubsetId × Bool)) :
    w.switch pl changes = .ok w' ↔
      w' = { w with active := setBits w.active changes } ∧ (w'.active = w.active ∨ admitted pl w' = true) := by
  simp only [World.switch, Bool.or_eq_true, beq_iff_eq]
  split
  · rename_i hc
    simp only [Except.ok.injEq]
    exact ⟨fun h => h ▸ ⟨rfl, hc⟩, fun h => h.1.symm⟩
  · rename_i hc
    simp only [reduceCtorEq, false_iff]
    rintro ⟨rfl, h⟩
    exact hc h

/-! ## What handlers keep -/

/-- A property of worlds that each of the actions of R101 keeps; a switch leaves the configuration alone or admitted. -/
structure WorldKept (pl : Platform) (Q : World → Prop) : Prop where
  dev : ∀ w d, Q w → Q { w with dev := d }
  active : ∀ w l, (l = w.active ∨ admitted pl { w with active := l } = true) → Q w → Q { w with active := l }
  put : ∀ w id k v, (storageByte w id k).isSome = true → Q w → Q (putStorage w id k v)
  request : ∀ w l b, Q w → Q (w.setRequest l b)
  observe : ∀ w n o, Q w → Q (w.observe n o)
  unobserve : ∀ w n o, Q w → Q (w.unobserve n o)

/-- Ports that keep a property of worlds. -/
structure PortsKeep (io : Ports) (Q : World → Prop) : Prop where
  load : ∀ a w v w', io.load a w = .ok (v, w') → Q w → Q w'
  store : ∀ a v w w', io.store a v w = .ok w' → Q w → Q w'
  notify : ∀ n e w w', io.notify n e w = .ok w' → Q w → Q w'

theorem backingStore_keeps {Q : World → Prop} {pl : Platform} (hQ : WorldKept pl Q) (c : ChipId) (u : SubsetId)
    (offset : Nat) (v : Byte) (w w' : World) (h : backingStore pl c u offset v w = .ok w') (hw : Q w) : Q w' := by
  unfold backingStore at h
  split at h
  · split at h
    · rename_i hc
      simp only [Except.ok.injEq] at h
      exact h ▸ hQ.put _ _ _ _ hc.2.2 hw
    · simp at h
  · simp at h

/-- A handler keeps what its actions and its ports keep. -/
theorem runHandler_keeps {Q : World → Prop} {pl : Platform} (hQ : WorldKept pl Q) (io : Ports) (hio : PortsKeep io Q)
    (c : ChipId) {α : Type} (hd : Handler α) (w w' : World) (r : α)
    (h : runHandler pl io c hd w = .ok (r, w')) (hw : Q w) : Q w' := by
  induction hd generalizing w with
  | ret v => simp [runHandler] at h; exact h.2 ▸ hw
  | look k ih => exact ih w w h hw
  | setOwn d k ih => exact ih _ h (hQ.dev _ _ hw)
  | switch changes k ih =>
    simp only [runHandler] at h
    split at h
    · rename_i w1 h1
      obtain ⟨rfl, hc⟩ := (switch_ok_iff _ _ _ _).mp h1
      exact ih _ h (hQ.active _ _ hc hw)
    · simp at h
  | backing u o v k ih =>
    simp only [runHandler] at h
    split at h
    · rename_i w1 h1; exact ih _ h (backingStore_keeps hQ _ _ _ _ _ _ h1 hw)
    · simp at h
  | load a k ih =>
    simp only [runHandler] at h
    split at h
    · rename_i v w1 h1; exact ih v _ h (hio.load _ _ _ _ h1 hw)
    · simp at h
  | store a v k ih =>
    simp only [runHandler] at h
    split at h
    · rename_i w1 h1; exact ih _ h (hio.store _ _ _ _ h1 hw)
    · simp at h
  | request l k ih => exact ih _ h (hQ.request _ _ _ hw)
  | notify e k ih =>
    simp only [runHandler] at h
    split at h
    · split at h
      · rename_i w1 h1; exact ih _ h (hio.notify _ _ _ _ h1 hw)
      · simp at h
    · simp at h
  | observe n k ih => exact ih _ h (hQ.observe _ _ _ hw)
  | unobserve n k ih => exact ih _ h (hQ.unobserve _ _ _ hw)

theorem routedLoad_keeps {Q : World → Prop} {pl : Platform} (hQ : WorldKept pl Q) (io : Ports) (hio : PortsKeep io Q)
    (a : Word) (w : World) (v : Byte) (w' : World) (h : routedLoad pl io a w = .ok (v, w')) (hw : Q w) : Q w' := by
  unfold routedLoad at h
  split at h
  · simp at h
  · split at h
    · exact runHandler_keeps hQ io hio _ _ _ _ _ h hw
    all_goals
      split at h
      · simp at h; exact h.2 ▸ hw
      · simp at h

theorem plainStore_keeps {Q : World → Prop} {pl : Platform} (hQ : WorldKept pl Q) (u : Subset) (a : Word) (v : Byte)
    (w w' : World) (h : plainStore u a v w = .ok w') (hw : Q w) : Q w' := by
  unfold plainStore at h
  split at h
  · rename_i b hb
    simp only [Except.ok.injEq] at h
    exact h ▸ hQ.put _ _ _ _ (by simp [hb]) hw
  · simp at h

theorem routedStore_keeps {Q : World → Prop} {pl : Platform} (hQ : WorldKept pl Q) (io : Ports) (hio : PortsKeep io Q)
    (a : Word) (v : Byte) (w w' : World) (h : routedStore pl io a v w = .ok w') (hw : Q w) : Q w' := by
  unfold routedStore at h
  split at h
  · simp at h
  · split at h
    · split at h
      · rename_i u w1 h1
        simp only [Except.ok.injEq] at h
        exact h ▸ runHandler_keeps hQ io hio _ _ _ _ _ h1 hw
      · simp at h
    · simp at h; exact h ▸ hw
    · exact plainStore_keeps hQ _ _ _ _ _ h hw

theorem deliver_keeps {Q : World → Prop} {pl : Platform} (hQ : WorldKept pl Q) (io : Ports) (hio : PortsKeep io Q)
    (n : ChipId) (e : Event) (l : List ChipId) (w w' : World) (h : deliver pl io n e l w = .ok w') (hw : Q w) :
    Q w' := by
  induction l generalizing w with
  | nil => simp [deliver] at h; exact h ▸ hw
  | cons o l ih =>
    simp only [deliver] at h
    split at h
    · rename_i u w1 h1
      exact ih _ h (runHandler_keeps hQ io hio _ _ _ _ _ h1 hw)
    · simp at h

/-- The ports of every depth keep what each action keeps. -/
theorem ports_keep {Q : World → Prop} {pl : Platform} (hQ : WorldKept pl Q) (depth : Nat) :
    PortsKeep (ports pl depth) Q := by
  induction depth with
  | zero => exact ⟨fun _ _ _ _ h => by simp [ports] at h, fun _ _ _ _ h => by simp [ports] at h,
      fun _ _ _ _ h => by simp [ports] at h⟩
  | succ d ih =>
    exact ⟨fun a w v w' h hw => routedLoad_keeps hQ _ ih a w v w' h hw,
      fun a v w w' h hw => routedStore_keeps hQ _ ih a v w w' h hw,
      fun n e w w' h hw => deliver_keeps hQ _ ih n e _ w w' h hw⟩

/-! ## Nesting to any depth -/

/-- Every result that `io` reaches, `io'` reaches too (R97). -/
structure PortsLe (io io' : Ports) : Prop where
  load : ∀ a w, reached (io.load a w) = true → io'.load a w = io.load a w
  store : ∀ a v w, reached (io.store a v w) = true → io'.store a v w = io.store a v w
  notify : ∀ n e w, reached (io.notify n e w) = true → io'.notify n e w = io.notify n e w

theorem reached_error {α β : Type} {e : Stop} (h : reached (.error e : Res α) = true) :
    reached (.error e : Res β) = true := by
  cases e with
  | fault f => rfl
  | refusal r => cases r <;> first | rfl | cases h

/-- A handler reaches with `io'` what it reaches with `io`. -/
theorem runHandler_le (pl : Platform) {io io' : Ports} (hio : PortsLe io io') (c : ChipId) {α : Type} (hd : Handler α)
    (w : World) (h : reached (runHandler pl io c hd w) = true) :
    runHandler pl io' c hd w = runHandler pl io c hd w := by
  induction hd generalizing w with
  | ret v => rfl
  | look k ih => exact ih w w h
  | setOwn d k ih => exact ih _ h
  | switch changes k ih =>
    simp only [runHandler] at h ⊢
    split
    · rename_i w1 h1; rw [h1] at h; exact ih _ h
    · rfl
  | backing u o v k ih =>
    simp only [runHandler] at h ⊢
    split
    · rename_i w1 h1; rw [h1] at h; exact ih _ h
    · rfl
  | load a k ih =>
    simp only [runHandler] at h ⊢
    cases h1 : io.load a w with
    | ok r => rw [h1] at h; rw [hio.load a w (by rw [h1]; rfl), h1]; exact ih _ _ h
    | error e => rw [h1] at h; rw [hio.load a w (by rw [h1]; exact reached_error h), h1]
  | store a v k ih =>
    simp only [runHandler] at h ⊢
    cases h1 : io.store a v w with
    | ok r => rw [h1] at h; rw [hio.store a v w (by rw [h1]; rfl), h1]; exact ih _ h
    | error e => rw [h1] at h; rw [hio.store a v w (by rw [h1]; exact reached_error h), h1]
  | request l k ih => exact ih _ h
  | notify e k ih =>
    simp only [runHandler] at h ⊢
    split
    · rename_i hdecl
      rw [if_pos hdecl] at h
      cases h1 : io.notify c e w with
      | ok r => rw [h1] at h; rw [hio.notify c e w (by rw [h1]; rfl), h1]; exact ih _ h
      | error e' => rw [h1] at h; rw [hio.notify c e w (by rw [h1]; exact reached_error h), h1]
    · rfl
  | observe n k ih => exact ih _ h
  | unobserve n k ih => exact ih _ h

theorem routedLoad_le (pl : Platform) {io io' : Ports} (hio : PortsLe io io') (a : Word) (w : World)
    (h : reached (routedLoad pl io a w) = true) : routedLoad pl io' a w = routedLoad pl io a w := by
  unfold routedLoad at h ⊢
  split
  · rfl
  · rename_i u hu
    rw [hu] at h
    dsimp only at h
    split
    · rename_i c hk; rw [hk] at h; exact runHandler_le pl hio _ _ _ h
    all_goals rfl

theorem routedStore_le (pl : Platform) {io io' : Ports} (hio : PortsLe io io') (a : Word) (v : Byte) (w : World)
    (h : reached (routedStore pl io a v w) = true) : routedStore pl io' a v w = routedStore pl io a v w := by
  unfold routedStore at h ⊢
  split
  · rfl
  · rename_i u hu
    rw [hu] at h
    dsimp only at h
    split
    · rename_i c hk
      rw [hk] at h
      dsimp only at h
      rw [runHandler_le pl hio]
      cases h1 : runHandler pl io c (writeHandler pl c (a.toNat - u.base) v) w with
      | ok r => rfl
      | error e => rw [h1] at h; exact reached_error h
    all_goals rfl

theorem deliver_le (pl : Platform) {io io' : Ports} (hio : PortsLe io io') (n : ChipId) (e : Event) (l : List ChipId)
    (w : World) (h : reached (deliver pl io n e l w) = true) : deliver pl io' n e l w = deliver pl io n e l w := by
  induction l generalizing w with
  | nil => rfl
  | cons o l ih =>
    simp only [deliver] at h ⊢
    cases h1 : runHandler pl io o (eventHandler pl o e n) w with
    | ok r => rw [h1] at h; rw [runHandler_le pl hio _ _ _ (by rw [h1]; rfl), h1]; exact ih _ h
    | error e' => rw [h1] at h; rw [runHandler_le pl hio _ _ _ (by rw [h1]; exact reached_error h), h1]

/-- One more depth reaches what was reached (R97). -/
theorem ports_le (pl : Platform) (depth : Nat) : PortsLe (ports pl depth) (ports pl (depth + 1)) := by
  induction depth with
  | zero =>
    exact ⟨fun _ _ h => Bool.noConfusion h, fun _ _ _ h => Bool.noConfusion h, fun _ _ _ h => Bool.noConfusion h⟩
  | succ d ih =>
    exact ⟨fun a w h => routedLoad_le pl ih a w h, fun a v w h => routedStore_le pl ih a v w h,
      fun n e w h => deliver_le pl ih n e _ w h⟩

/-- A computation whose result stays once a depth has reached it. -/
def Stable {α : Type} (f : Nat → Res α) : Prop := ∀ depth, reached (f depth) = true → f (depth + 1) = f depth

/-- From the depth that reached a result on, every depth answers it. -/
theorem Stable.of_le {α : Type} {f : Nat → Res α} (hf : Stable f) {n m : Nat} (hnm : n ≤ m) (h : reached (f n) = true) :
    f m = f n := by
  induction hnm with
  | refl => rfl
  | step _ ih => rw [hf _ (by rw [ih]; exact h), ih]

theorem searchDepth_some {α : Type} (f : Nat → Res α) (n : Nat) (r : Res α) (h : searchDepth f n = some r) :
    ∃ m, f m = r ∧ reached r = true :=
  searchDepth.partial_correctness f (fun _ r => ∃ m, f m = r ∧ reached r = true)
    (fun _ ih n r h => by
      split at h
      · rename_i hr; cases h; exact ⟨n, rfl, hr⟩
      · exact ih _ _ h) n r h

theorem searchDepth_of_reached {α : Type} (f : Nat → Res α) (n k : Nat) (h : reached (f (n + k)) = true) :
    ∃ m, searchDepth f n = some (f m) ∧ reached (f m) = true := by
  induction k generalizing n with
  | zero => exact ⟨n, by rw [searchDepth, if_pos (by simpa using h)], by simpa using h⟩
  | succ k ih =>
    by_cases hn : reached (f n) = true
    · exact ⟨n, by rw [searchDepth, if_pos hn], hn⟩
    · obtain ⟨m, h1, h2⟩ := ih (n + 1) (by rw [show n + 1 + k = n + (k + 1) by omega]; exact h)
      exact ⟨m, by rw [searchDepth, if_neg hn, h1], h2⟩

theorem not_reached {α : Type} {r : Res α} (h : reached r = false) : r = .error (.refusal .handlerNesting) := by
  unfold reached at h
  split at h
  · rfl
  · cases h

/-- What a nesting answers, it answers at some depth; or it never ends (R97). -/
theorem nested_cases {α : Type} (f : Nat → Res α) :
    (∃ depth, nested f = f depth ∧ reached (f depth) = true) ∨
      (nested f = .error (.refusal .handlerNesting) ∧ ∀ depth, 8 ≤ depth → reached (f depth) = false) := by
  by_cases h8 : reached (f 8) = true
  · refine .inl ⟨8, ?_, h8⟩
    unfold nested
    split
    · rename_i h; rw [h] at h8; cases h8
    · rfl
  · have h8' := not_reached (Bool.eq_false_iff.mpr h8)
    have hn : nested f = (searchDepth f 9).getD (.error (.refusal .handlerNesting)) := by
      unfold nested; rw [h8']
    cases hs : searchDepth f 9 with
    | some r =>
      obtain ⟨m, rfl, hr⟩ := searchDepth_some f 9 r hs
      exact .inl ⟨m, by rw [hn, hs]; rfl, hr⟩
    | none =>
      refine .inr ⟨by rw [hn, hs]; rfl, fun depth hd => Bool.eq_false_iff.mpr fun h => ?_⟩
      rcases Nat.eq_or_lt_of_le hd with rfl | hd
      · exact h8 h
      · obtain ⟨m, h1, -⟩ := searchDepth_of_reached f 9 (depth - 9) (by rw [show 9 + (depth - 9) = depth by omega]; exact h)
        rw [h1] at hs; cases hs

/-- A nesting that ends answers what every depth that is deep enough answers (R97). -/
theorem nested_of_reached {α : Type} {f : Nat → Res α} (hf : Stable f) (depth : Nat) (h : reached (f depth) = true) :
    nested f = f depth := by
  rcases nested_cases f with ⟨m, h1, h2⟩ | ⟨-, h2⟩
  · rw [h1, ← hf.of_le (Nat.le_max_left m depth) h2, hf.of_le (Nat.le_max_right m depth) h]
  · have := h2 (max 8 depth) (by omega)
    rw [hf.of_le (Nat.le_max_right 8 depth) h, h] at this
    cases this

theorem nested_ok_iff {α : Type} {f : Nat → Res α} (hf : Stable f) (x : α) :
    nested f = .ok x ↔ ∃ depth, f depth = .ok x := by
  constructor
  · intro h
    rcases nested_cases f with ⟨m, h1, -⟩ | ⟨h1, -⟩
    · exact ⟨m, h1 ▸ h⟩
    · rw [h1] at h; cases h
  · rintro ⟨depth, h⟩
    rw [nested_of_reached hf depth (by rw [h]; rfl), h]

theorem stable_load (pl : Platform) (a : Word) (w : World) : Stable (fun depth => routedLoad pl (ports pl depth) a w) :=
  fun depth h => routedLoad_le pl (ports_le pl depth) a w h

theorem stable_store (pl : Platform) (a : Word) (v : Byte) (w : World) :
    Stable (fun depth => routedStore pl (ports pl depth) a v w) :=
  fun depth h => routedStore_le pl (ports_le pl depth) a v w h

theorem stable_handler (pl : Platform) (c : ChipId) {α : Type} (hd : Handler α) (w : World) :
    Stable (fun depth => runHandler pl (ports pl depth) c hd w) :=
  fun depth h => runHandler_le pl (ports_le pl depth) c hd w h

/-- A load answers exactly what the routed load answers at some depth of nesting (R97). -/
theorem worldLoad_ok_iff (pl : Platform) (a : Word) (w : World) (r : Byte × World) :
    worldLoad pl a w = .ok r ↔ ∃ depth, routedLoad pl (ports pl depth) a w = .ok r := nested_ok_iff (stable_load pl a w) r

/-- A store answers exactly what the routed store answers at some depth of nesting (R97). -/
theorem worldStore_ok_iff (pl : Platform) (a : Word) (v : Byte) (w w' : World) :
    worldStore pl a v w = .ok w' ↔ ∃ depth, routedStore pl (ports pl depth) a v w = .ok w' :=
  nested_ok_iff (stable_store pl a v w) w'

/-- A handler that the driver runs answers exactly what it answers at some depth of nesting (R97). -/
theorem worldHandler_ok_iff (pl : Platform) (c : ChipId) {α : Type} (hd : Handler α) (w : World) (r : α × World) :
    worldHandler pl c hd w = .ok r ↔ ∃ depth, runHandler pl (ports pl depth) c hd w = .ok r :=
  nested_ok_iff (stable_handler pl c hd w) r

/-- The canonical form of memory is kept by every action of a handler. -/
theorem memoryWf_kept (pl : Platform) : WorldKept pl (fun w => Memory.wf w = true) where
  dev _ _ h := h
  active _ _ _ h := h
  put w id k v hk h := memoryWf_putStorage w id k v h hk
  request w l b h := by simpa [Memory.wf] using h
  observe _ _ _ h := h
  unobserve _ _ _ h := h

/-- An admitted configuration stays admitted under every action of a handler, within an access too (R75, R82). -/
theorem admitted_kept (pl : Platform) : WorldKept pl (fun w => admitted pl w = true) where
  dev _ _ h := h
  active _ _ hl h := hl.elim (fun e => (admitted_congr pl e).trans h) id
  put w id k v _ h := (admitted_congr pl (putStorage_active w id k v)).trans h
  request w l b h := (admitted_congr pl (setRequest_active w l b)).trans h
  observe _ _ _ h := h
  unobserve _ _ _ h := h

/-! ## Delivery -/

/-- Delivering to a list is delivering to its first part and then to the rest, in order (R95). -/
theorem deliver_append (pl : Platform) (io : Ports) (n : ChipId) (e : Event) (l l' : List ChipId) (w : World) :
    deliver pl io n e (l ++ l') w =
      (match deliver pl io n e l w with
       | .ok w' => deliver pl io n e l' w'
       | .error err => .error err) := by
  induction l generalizing w with
  | nil => simp [deliver]
  | cons o l ih =>
    simp only [List.cons_append, deliver]
    split
    · exact ih _
    · rfl

end Sys2Proof.Machine
end

