-- ==== Sys2Proof/Laws/Ops.lean ====
section
/-! SUPPORT. For each shared operation over the machine, what it can do if it answers. -/

namespace Sys2Proof.Machine

/-- A sequence answers exactly when its parts do. -/
theorem bind_ok_iff {α β : Type} (x : Res α) (f : α → Res β) (b : β) :
    (x >>= f) = .ok b ↔ ∃ a, x = .ok a ∧ f a = .ok b := by
  cases x <;> simp [bind, Except.bind]

theorem pure_ok_iff {α : Type} (a b : α) : (pure a : Res α) = .ok b ↔ a = b := by
  simp [pure, Except.pure]

/-- `outcome` answers a next state exactly when the operation answered it. -/
theorem outcome_next_iff (r : Res State) (t : State) : outcome r = .next t ↔ r = .ok t := by
  unfold outcome; split <;> simp

/-! ## Memory accesses -/

/-- A load is the load of the world; it changes at most the world. -/
theorem memRead_world_iff (s : State) (a : Word) (v : Byte) (t : State) :
    memRead s a = .ok (v, t) ↔ ∃ w, worldLoad s.plat a s.world = .ok (v, w) ∧ t = s.setWorld w := by
  unfold memRead
  cases h : worldLoad s.plat a s.world with
  | error e => simp
  | ok r => simp only [Except.ok.injEq, Prod.mk.injEq]; exact ⟨fun ⟨h1, h2⟩ => ⟨r.2, ⟨h1 ▸ rfl, h2.symm⟩⟩, by
      rintro ⟨w, rfl, rfl⟩; exact ⟨rfl, rfl⟩⟩

/-- A store is the store of the world; it changes at most the world. -/
theorem memWrite_world_iff (s : State) (a : Word) (v : Byte) (t : State) :
    memWrite s a v = .ok t ↔ ∃ w, worldStore s.plat a v s.world = .ok w ∧ t = s.setWorld w := by
  unfold memWrite
  cases h : worldStore s.plat a v s.world with
  | error e => simp
  | ok w => simp only [Except.ok.injEq]; exact ⟨fun h => ⟨w, rfl, h.symm⟩, by rintro ⟨w', rfl, rfl⟩; rfl⟩

/-- A load is the routed load, at a depth of nesting that is deep enough (R97). -/
theorem memRead_ok_iff (s : State) (a : Word) (v : Byte) (t : State) :
    memRead s a = .ok (v, t) ↔
      ∃ depth w, routedLoad s.plat (ports s.plat depth) a s.world = .ok (v, w) ∧ t = s.setWorld w := by
  rw [memRead_world_iff]
  simp only [worldLoad_ok_iff]
  exact ⟨fun ⟨w, ⟨d, h⟩, ht⟩ => ⟨d, w, h, ht⟩, fun ⟨d, w, h, ht⟩ => ⟨w, ⟨d, h⟩, ht⟩⟩

/-- A store is the routed store, at a depth of nesting that is deep enough (R97). -/
theorem memWrite_ok_iff (s : State) (a : Word) (v : Byte) (t : State) :
    memWrite s a v = .ok t ↔
      ∃ depth w, routedStore s.plat (ports s.plat depth) a v s.world = .ok w ∧ t = s.setWorld w := by
  rw [memWrite_world_iff]
  simp only [worldStore_ok_iff]
  exact ⟨fun ⟨w, ⟨d, h⟩, ht⟩ => ⟨d, w, h, ht⟩, fun ⟨d, w, h, ht⟩ => ⟨w, ⟨d, h⟩, ht⟩⟩

/-- A load of ordinary memory answers the byte it shows and changes nothing (R66). -/
theorem memRead_of_peek (s : State) (a : Word) (v : Byte) (h : s.peek a = some v) : memRead s a = .ok (v, s) := by
  rw [memRead_ok_iff]
  exact ⟨0, s.world, routedLoad_of_peek _ _ _ _ _ h, rfl⟩

/-- What memory shows depends on the world and the platform alone. -/
theorem peek_setWorld (s : State) (w : World) (a : Word) : (s.setWorld w).peek a = peekByte s.plat w a := rfl

/-- After a store to an address with a storage byte behind it, every address that shows another storage byte shows
what it showed. -/
theorem memWrite_frame (s t : State) (a : Word) (v : Byte) (hl : (s.locate a).isSome = true)
    (h : memWrite s a v = .ok t) (b : Word) (hb : s.locate b ≠ s.locate a) : t.peek b = s.peek b := by
  obtain ⟨d, w, hw, rfl⟩ := (memWrite_ok_iff s a v t).mp h
  rcases routedStore_cases _ _ _ _ _ _ hl hw with rfl | ⟨id, k, hloc, -, rfl⟩
  · rfl
  · have hne : locate s.plat s.world b ≠ some (id, k) := fun h' => hb (h'.trans hloc.symm)
    simp [State.peek, peekByte_putStorage, hne]

/-- A load keeps every property of the world that the actions of R101 keep. -/
theorem memRead_keeps {Q : World → Prop} (s : State) (hQ : WorldKept s.plat Q) (a : Word) (v : Byte) (t : State)
    (h : memRead s a = .ok (v, t)) (hs : Q s.world) : Q t.world := by
  obtain ⟨d, w, hw, rfl⟩ := (memRead_ok_iff s a v t).mp h
  exact routedLoad_keeps hQ _ (ports_keep hQ _) _ _ _ _ hw hs

/-- A store keeps every property of the world that the actions of R101 keep. -/
theorem memWrite_keeps {Q : World → Prop} (s : State) (hQ : WorldKept s.plat Q) (a : Word) (v : Byte) (t : State)
    (h : memWrite s a v = .ok t) (hs : Q s.world) : Q t.world := by
  obtain ⟨d, w, hw, rfl⟩ := (memWrite_ok_iff s a v t).mp h
  exact routedStore_keeps hQ _ (ports_keep hQ _) _ _ _ _ hw hs

/-- A load and a store keep the canonical form of memory. -/
theorem memRead_memoryWf (s : State) (a : Word) (v : Byte) (t : State) (h : memRead s a = .ok (v, t))
    (hs : Memory.wf s.world = true) : Memory.wf t.world = true := memRead_keeps s (memoryWf_kept _) a v t h hs

theorem memWrite_memoryWf (s : State) (a : Word) (v : Byte) (t : State) (h : memWrite s a v = .ok t)
    (hs : Memory.wf s.world = true) : Memory.wf t.world = true := memWrite_keeps s (memoryWf_kept _) a v t h hs

/-- A load and a store keep an admitted configuration admitted (R75, R82). -/
theorem memRead_admitted (s : State) (a : Word) (v : Byte) (t : State) (h : memRead s a = .ok (v, t))
    (hs : admitted s.plat s.world = true) : admitted t.plat t.world = true := by
  have hw := memRead_keeps s (admitted_kept _) a v t h hs
  obtain ⟨-, w, -, rfl⟩ := (memRead_ok_iff s a v t).mp h
  exact hw

theorem memWrite_admitted (s : State) (a : Word) (v : Byte) (t : State) (h : memWrite s a v = .ok t)
    (hs : admitted s.plat s.world = true) : admitted t.plat t.world = true := by
  have hw := memWrite_keeps s (admitted_kept _) a v t h hs
  obtain ⟨-, w, -, rfl⟩ := (memWrite_ok_iff s a v t).mp h
  exact hw

/-- Two loads in order: the low byte's, then the high byte's (R71). -/
theorem memReadPair_ok_iff (s : State) (aLo aHi : Word) (x : Word) (t : State) :
    memReadPair s aLo aHi = .ok (x, t) ↔
      ∃ lo s1 hi, memRead s aLo = .ok (lo, s1) ∧ memRead s1 aHi = .ok (hi, t) ∧ x = wordOf hi lo := by
  unfold memReadPair
  constructor
  · intro h
    obtain ⟨⟨lo, s1⟩, h1, h⟩ := (bind_ok_iff _ _ _).mp h
    obtain ⟨⟨hi, s2⟩, h2, h⟩ := (bind_ok_iff _ _ _).mp h
    simp only [pure_ok_iff, Prod.mk.injEq] at h
    obtain ⟨rfl, rfl⟩ := h
    exact ⟨lo, s1, hi, h1, h2, rfl⟩
  · rintro ⟨lo, s1, hi, h1, h2, rfl⟩
    rw [bind_ok_iff]
    exact ⟨(lo, s1), h1, (bind_ok_iff _ _ _).mpr ⟨(hi, t), h2, by simp [pure_ok_iff]⟩⟩

/-- A pair of loads changes at most the world. -/
theorem memReadPair_world (s : State) (aLo aHi : Word) (x : Word) (t : State)
    (h : memReadPair s aLo aHi = .ok (x, t)) : ∃ w, t = s.setWorld w := by
  obtain ⟨lo, s1, hi, h1, h2, -⟩ := (memReadPair_ok_iff s aLo aHi x t).mp h
  obtain ⟨-, w1, -, rfl⟩ := (memRead_ok_iff _ _ _ _).mp h1
  obtain ⟨-, w2, -, rfl⟩ := (memRead_ok_iff _ _ _ _).mp h2
  exact ⟨w2, rfl⟩

theorem memReadPair_of_peek (s : State) (aLo aHi : Word) (lo hi : Byte) (h1 : s.peek aLo = some lo)
    (h2 : s.peek aHi = some hi) : memReadPair s aLo aHi = .ok (wordOf hi lo, s) := by
  rw [memReadPair_ok_iff]
  exact ⟨lo, s, hi, memRead_of_peek _ _ _ h1, memRead_of_peek _ _ _ h2, rfl⟩

/-! ## The stack -/

/-- A push (R79): the store at `STACK_BASE + SP`, then the anomaly, then `SP`. -/
theorem push8_ok_iff (s : State) (v : Byte) (t : State) :
    push8 s v = .ok t ↔
      ∃ s1, memWrite s (s.stackAddr s.sp) v = .ok s1 ∧ t = (s1.noteAnomaly (s1.sp == 0x00#8)).setSp (s1.sp - 1#8) := by
  unfold push8
  rw [bind_ok_iff]
  exact ⟨fun ⟨s1, h1, h2⟩ => ⟨s1, h1, ((pure_ok_iff _ _).mp h2).symm⟩,
    fun ⟨s1, h1, h2⟩ => ⟨s1, h1, (pure_ok_iff _ _).mpr h2.symm⟩⟩

/-- A pull (R80): the anomaly, then `SP`, then the load at `STACK_BASE + SP`. -/
theorem pull8_ok_iff (s : State) (v : Byte) (t : State) :
    pull8 s = .ok (v, t) ↔
      memRead ((s.noteAnomaly (s.sp == 0xFF#8)).setSp (s.sp + 1#8)) (s.stackAddr (s.sp + 1#8)) = .ok (v, t) :=
  Iff.rfl

/-- Two pushes, the high byte first (R81). -/
theorem push16_ok_iff (s : State) (x : Word) (t : State) :
    push16 s x = .ok t ↔ ∃ s1, push8 s (hiByte x) = .ok s1 ∧ push8 s1 (loByte x) = .ok t :=
  bind_ok_iff _ _ _

/-- Two pulls, the low byte first (R81). -/
theorem pull16_ok_iff (s : State) (x : Word) (t : State) :
    pull16 s = .ok (x, t) ↔
      ∃ lo s1 hi, pull8 s = .ok (lo, s1) ∧ pull8 s1 = .ok (hi, t) ∧ x = wordOf hi lo := by
  unfold pull16
  constructor
  · intro h
    obtain ⟨⟨lo, s1⟩, h1, h⟩ := (bind_ok_iff _ _ _).mp h
    obtain ⟨⟨hi, s2⟩, h2, h⟩ := (bind_ok_iff _ _ _).mp h
    simp only [pure_ok_iff, Prod.mk.injEq] at h
    obtain ⟨rfl, rfl⟩ := h
    exact ⟨lo, s1, hi, h1, h2, rfl⟩
  · rintro ⟨lo, s1, hi, h1, h2, rfl⟩
    rw [bind_ok_iff]
    exact ⟨(lo, s1), h1, (bind_ok_iff _ _ _).mpr ⟨(hi, t), h2, by simp [pure_ok_iff]⟩⟩

/-! ## Exceptions -/

/-- Entering an exception (R360, R330), stage by stage. -/
theorem enterException_ok_iff (s : State) (ret : Word) (status : Byte) (setI : Bool) (vector : Word) (t : State) :
    enterException s ret status setI vector = .ok t ↔
      ∃ s1 s2 target s3, push16 s ret = .ok s1 ∧ push8 s1 status = .ok s2 ∧
        memRead2 (if setI then s2.setFlag .i true else s2) vector = .ok (target, s3) ∧ t = s3.setPc target := by
  unfold enterException
  constructor
  · intro h
    obtain ⟨s1, h1, h⟩ := (bind_ok_iff _ _ _).mp h
    obtain ⟨s2, h2, h⟩ := (bind_ok_iff _ _ _).mp h
    obtain ⟨⟨target, s3⟩, h3, h⟩ := (bind_ok_iff _ _ _).mp h
    simp only [pure_ok_iff] at h
    exact ⟨s1, s2, target, s3, h1, h2, h3, h.symm⟩
  · rintro ⟨s1, s2, target, s3, h1, h2, h3, rfl⟩
    rw [bind_ok_iff]
    refine ⟨s1, h1, (bind_ok_iff _ _ _).mpr ⟨s2, h2, (bind_ok_iff _ _ _).mpr ⟨(target, s3), h3, rfl⟩⟩⟩

/-- Returning from an exception (R331), stage by stage. -/
theorem returnFromException_ok_iff (s t : State) :
    returnFromException s = .ok t ↔
      ∃ v s1 target s2, pull8 s = .ok (v, s1) ∧ pull16 (s1.loadStatus v) = .ok (target, s2) ∧
        t = s2.setPc target := by
  unfold returnFromException
  constructor
  · intro h
    obtain ⟨⟨v, s1⟩, h1, h⟩ := (bind_ok_iff _ _ _).mp h
    obtain ⟨⟨target, s2⟩, h2, h⟩ := (bind_ok_iff _ _ _).mp h
    simp only [pure_ok_iff] at h
    exact ⟨v, s1, target, s2, h1, h2, h.symm⟩
  · rintro ⟨v, s1, target, s2, h1, h2, rfl⟩
    rw [bind_ok_iff]
    exact ⟨(v, s1), h1, (bind_ok_iff _ _ _).mpr ⟨(target, s2), h2, rfl⟩⟩

/-- Service of a line (R360): the entry, the latch, the cycles. -/
theorem service_ok_iff (s : State) (l : Line) (t : State) :
    service s l = .ok t ↔
      ∃ s1, enterException s s.pc (pushedByInterrupt s.p) (l == .irq || s.plat.params.nmiSetsI)
          (lineVector s.plat.params l) = .ok s1 ∧
        t = (s1.setWorld (s1.world.setRequest l false)).addCycles s1.plat.params.intCycles := by
  unfold service
  rw [bind_ok_iff]
  exact ⟨fun ⟨s1, h1, h2⟩ => ⟨s1, h1, ((pure_ok_iff _ _).mp h2).symm⟩,
    fun ⟨s1, h1, h2⟩ => ⟨s1, h1, (pure_ok_iff _ _).mpr h2.symm⟩⟩

/-- The poll (R357): NMI serviced, or IRQ, or nothing. -/
theorem pollInterrupts_cases (s t : State) (h : pollInterrupts s = .ok t) :
    (eligible s .nmi = true ∧ service s .nmi = .ok t) ∨
      (eligible s .nmi = false ∧ eligible s .irq = true ∧ service s .irq = .ok t) ∨
      (eligible s .nmi = false ∧ eligible s .irq = false ∧ t = s) := by
  unfold pollInterrupts at h
  split at h
  · exact .inl ⟨by assumption, h⟩
  · split at h
    · exact .inr (.inl ⟨by simp_all, by assumption, h⟩)
    · refine .inr (.inr ⟨by simp_all, by simp_all, ?_⟩)
      simpa using h.symm

/-! ## Operands -/

/-- A mode accessor changes at most the world (R160). -/
theorem effAddr_world (s : State) (m : MemOperand) (e : EffAddr) (t : State) (h : effAddr s m = .ok (e, t)) :
    ∃ w, t = s.setWorld w := by
  cases m with
  | zp a => exact ⟨s.world, by simp [effAddr] at h; exact h.2.symm⟩
  | zpx a => exact ⟨s.world, by simp [effAddr] at h; exact h.2.symm⟩
  | zpy a => exact ⟨s.world, by simp [effAddr] at h; exact h.2.symm⟩
  | abs w => exact ⟨s.world, by simp [effAddr] at h; exact h.2.symm⟩
  | abx w => exact ⟨s.world, by simp [effAddr] at h; exact h.2.symm⟩
  | aby w => exact ⟨s.world, by simp [effAddr] at h; exact h.2.symm⟩
  | izx a =>
    obtain ⟨⟨x, s1⟩, h1, h⟩ := (bind_ok_iff _ _ _).mp h
    simp only [pure_ok_iff, Prod.mk.injEq] at h
    exact h.2 ▸ memReadPair_world _ _ _ _ _ h1
  | izy a =>
    obtain ⟨⟨x, s1⟩, h1, h⟩ := (bind_ok_iff _ _ _).mp h
    simp only [pure_ok_iff, Prod.mk.injEq] at h
    exact h.2 ▸ memReadPair_world _ _ _ _ _ h1

/-- `LoadOperand` from memory (R173): the accessor, the penalty cycle, one load at the effective address. -/
theorem loadMem_ok_iff (s : State) (m : MemOperand) (v : Byte) (t : State) :
    loadMem s m = .ok (v, t) ↔
      ∃ e s1, effAddr s m = .ok (e, s1) ∧
        memRead (if e.crossed && s1.pagePenalty then s1.addCycles 1 else s1) e.addr = .ok (v, t) := by
  unfold loadMem
  rw [bind_ok_iff]
  exact ⟨fun ⟨⟨e, s1⟩, h1, h2⟩ => ⟨e, s1, h1, h2⟩, fun ⟨e, s1, h1, h2⟩ => ⟨(e, s1), h1, h2⟩⟩

/-- `LoadOperand` changes at most the world and the cycle count, by at most one (R173, R134). -/
theorem loadOperand_world (s : State) (o : Operand) (v : Byte) (t : State) (h : loadOperand s o = .ok (v, t)) :
    ∃ n w, n ≤ 1 ∧ t = (s.addCycles n).setWorld w := by
  cases o with
  | imm x => simp [loadOperand] at h; exact ⟨0, s.world, by omega, h.2.symm⟩
  | mem m =>
    obtain ⟨e, s1, h1, h2⟩ := (loadMem_ok_iff s m v t).mp h
    obtain ⟨w1, rfl⟩ := effAddr_world _ _ _ _ h1
    obtain ⟨-, w2, -, rfl⟩ := (memRead_ok_iff _ _ _ _).mp h2
    split
    · exact ⟨1, w2, by omega, rfl⟩
    · exact ⟨0, w2, by omega, rfl⟩

/-- `StoreOperand` (R173): the accessor, then one store at the effective address. -/
theorem storeOperand_ok_iff (s : State) (m : MemOperand) (v : Byte) (t : State) :
    storeOperand s m v = .ok t ↔ ∃ e s1, effAddr s m = .ok (e, s1) ∧ memWrite s1 e.addr v = .ok t := by
  unfold storeOperand
  rw [bind_ok_iff]
  exact ⟨fun ⟨⟨e, s1⟩, h1, h2⟩ => ⟨e, s1, h1, h2⟩, fun ⟨e, s1, h1, h2⟩ => ⟨(e, s1), h1, h2⟩⟩

/-- `RMW` (R260): the accessor, one load, the function, one store at the same address. -/
theorem modifyMem_ok_iff (s : State) (m : MemOperand) (f : Byte → Byte → Byte × Byte) (t : State) :
    modifyMem s m f = .ok t ↔
      ∃ e s1 v s2, effAddr s m = .ok (e, s1) ∧ memRead s1 e.addr = .ok (v, s2) ∧
        memWrite (s2.setP (f s2.p v).2) e.addr (f s2.p v).1 = .ok t := by
  unfold modifyMem
  constructor
  · intro h
    obtain ⟨⟨e, s1⟩, h1, h⟩ := (bind_ok_iff _ _ _).mp h
    obtain ⟨⟨v, s2⟩, h2, h⟩ := (bind_ok_iff _ _ _).mp h
    exact ⟨e, s1, v, s2, h1, h2, h⟩
  · rintro ⟨e, s1, v, s2, h1, h2, h3⟩
    exact (bind_ok_iff _ _ _).mpr ⟨(e, s1), h1, (bind_ok_iff _ _ _).mpr ⟨(v, s2), h2, h3⟩⟩

/-- A branch (R304) changes at most `PC` and the cycle count. -/
theorem branch_cases (s : State) (cond : Bool) (off : Byte) :
    (cond = false ∧ branch s cond off = s) ∨
      (cond = true ∧ ∃ n, (n = 1 ∨ n = 2) ∧
        branch s cond off = (s.addCycles n).setPc (relTarget s.pc off)) := by
  cases cond with
  | false => exact .inl ⟨rfl, rfl⟩
  | true =>
    refine .inr ⟨rfl, ?_⟩
    unfold branch
    simp only [if_true]
    split
    · exact ⟨2, by omega, rfl⟩
    · exact ⟨1, by omega, rfl⟩

end Sys2Proof.Machine
end

