-- ==== Sys2Proof/Laws/Flags.lean ====
section
/-! SUPPORT. The status register: each flag written alone, and bit 5. -/

namespace Sys2Proof.Machine

/-- Reading a flag after one flag was written (R24). -/
@[simp] theorem getFlag_putFlag (p : Byte) (f g : Flag) (v : Bool) :
    getFlag (putFlag p f v) g = if g = f then v else getFlag p g := by
  cases v <;> cases f <;> cases g <;> revert p <;> decide +kernel

/-- Writing a flag leaves bit 5 (R27). -/
theorem putFlag_bit5 (p : Byte) (f : Flag) (v : Bool) :
    (putFlag p f v).getLsbD 5 = p.getLsbD 5 := by
  cases v <;> cases f <;> revert p <;> decide +kernel

@[simp] theorem getFlag_putNZ (p v : Byte) (g : Flag) :
    getFlag (putNZ p v) g = if g = .z then v == 0#8 else if g = .n then v.getLsbD 7 else getFlag p g := by
  simp [putNZ]

theorem putNZ_bit5 (p v : Byte) : (putNZ p v).getLsbD 5 = p.getLsbD 5 := by
  simp only [putNZ, putFlag_bit5]

theorem putArith_bit5 (p : Byte) (r : AluResult) : (putArith p r).getLsbD 5 = p.getLsbD 5 := by
  simp only [putArith, putFlag_bit5]

theorem putCompare_bit5 (p r m : Byte) : (putCompare p r m).getLsbD 5 = p.getLsbD 5 := by
  simp only [putCompare, putFlag_bit5]

theorem putBit_bit5 (p a m : Byte) : (putBit p a m).getLsbD 5 = p.getLsbD 5 := by
  simp only [putBit, putFlag_bit5]

/-- A pulled status byte has bit 5 set once it is in `P` (R27). -/
theorem loadStatus_bit5 (v : Byte) : (v ||| 0x20#8).getLsbD 5 = true := by
  revert v; decide +kernel

end Sys2Proof.Machine
end

