-- ==== Sys2Proof/Laws/Decode.lean ====
section
/-! SUPPORT. Byte order (R10, R126) and what the decoder answers. -/

namespace Sys2Proof

/-- Bit `i` of `hi ++ lo` (R10). -/
theorem wordOf_getLsbD (hi lo : Byte) (i : Nat) :
    (wordOf hi lo).getLsbD i = if i < 8 then lo.getLsbD i else hi.getLsbD (i - 8) :=
  (BitVec.getLsbD_append (x := hi) (y := lo) (i := i)).trans (by cases h : decide (i < 8) <;> simp_all)

@[simp] theorem hiByte_wordOf (hi lo : Byte) : hiByte (wordOf hi lo) = hi := by
  apply BitVec.eq_of_getLsbD_eq
  intro i h
  rw [hiByte, BitVec.getLsbD_extractLsb', wordOf_getLsbD]
  simp [h]

@[simp] theorem loByte_wordOf (hi lo : Byte) : loByte (wordOf hi lo) = lo := by
  apply BitVec.eq_of_getLsbD_eq
  intro i h
  rw [loByte, BitVec.getLsbD_extractLsb', wordOf_getLsbD]
  simp [h]

@[simp] theorem wordOf_hi_lo (w : Word) : wordOf (hiByte w) (loByte w) = w := by
  apply BitVec.eq_of_getLsbD_eq
  intro i h
  rw [wordOf_getLsbD, hiByte, loByte, BitVec.getLsbD_extractLsb', BitVec.getLsbD_extractLsb']
  by_cases h8 : i < 8
  · simp [h8]
  · have : 8 + (i - 8) = i := by omega
    have h9 : i - 8 < 8 := by omega
    simp [h8, h9, this]

/-- With the parameters of R9 no byte is a prefix (R121). -/
@[simp] theorem prefixOf_default (op : Byte) : Params.default.prefixOf op = none := by
  unfold Params.prefixOf
  split <;> rfl

/-- A member of `JAMSET` is no prefix (log 27). -/
theorem prefixOf_jam (pr : Params) (op : Byte) (h : pr.jams op = true) : pr.prefixOf op = none := by
  simp [Params.prefixOf, h]

/-- The bytes after those that selected a template, where they are all there (R122). -/
theorem takeParams_ok (op : Byte) (t : Template) (n : Nat) (ps : List Byte) (h : t.length ≤ ps.length + n) :
    takeParams op t n ps = .ok (bindParams t (ps.take (t.length - n)), ps.drop (t.length - n)) := by
  simp [takeParams, Nat.not_lt.mpr h]

/-- The decoder looks at the opcode and at as many bytes as its template says, and answers the rest (R122, R123). -/
theorem decodeWith_cons (pr : Params) (op : Byte) (ps : List Byte) (hp : pr.prefixOf op = none)
    (h : (optable pr op).length ≤ ps.length + 1) :
    decodeWith pr (op :: ps) = .ok (bindParams (optable pr op) (ps.take ((optable pr op).length - 1)),
      ps.drop ((optable pr op).length - 1)) := by
  simp [decodeWith, hp, takeParams_ok _ _ _ _ h]

/-- After a prefix, the next byte selects the template, whose length counts the prefix (R121). -/
theorem decodeWith_prefix (pr : Params) (op op1 : Byte) (ps : List Byte) (x : Prefix) (hp : pr.prefixOf op = some x)
    (h : (x.template op1).length ≤ ps.length + 2) :
    decodeWith pr (op :: op1 :: ps) = .ok (bindParams (x.template op1) (ps.take ((x.template op1).length - 2)),
      ps.drop ((x.template op1).length - 2)) := by
  simp [decodeWith, hp, takeParams_ok _ _ _ _ h]

/-- What the opcode table selects (R121, R128, R129). -/
theorem optable_jam (pr : Params) (op : Byte) (h : pr.jams op = true) :
    optable pr op = ⟨.jam, 1, pr.jamCycles, false⟩ := by
  simp [optable, h]

theorem optable_entry (pr : Params) (op : Byte) (t : Template) (h : pr.jams op = false) (he : pr.entry op = some t) :
    optable pr op = t := by
  simp [optable, h, he]

theorem optable_undef (pr : Params) (op : Byte) (h : pr.isUndef op = true) :
    optable pr op = ⟨.undef op [], pr.undefLen op, pr.undefCyc op, false⟩ := by
  simp only [Params.isUndef, Bool.and_eq_true, Bool.not_eq_true', Option.isNone_iff_eq_none] at h
  simp [optable, h.1, h.2]

/-- Every template of the table of R127 is 1, 2 or 3 bytes long (R120). -/
theorem optable_length_le (op : Byte) :
    1 ≤ (optable Params.default op).length ∧ (optable Params.default op).length ≤ 3 := by
  revert op; decide +kernel

end Sys2Proof
end

