-- ==== Sys2Proof/Laws/Step.lean ====
section
/-! SUPPORT. Accesses to ordinary memory always answer, and what the parts of a step around `Execute` can do. -/

namespace Sys2Proof.Machine

open Sys2Proof.Safety

/-! ## Ordinary memory -/

/-- A store to plain memory answers, and changes the one storage byte behind the address (R67). -/
theorem memWrite_of_writable (s : State) (a : Word) (v : Byte) (h : Writable s a) :
    ∃ id k, s.locate a = some (id, k) ∧ (storageByte s.world id k).isSome = true ∧
      memWrite s a v = .ok (s.setWorld (putStorage s.world id k v)) := by
  obtain ⟨u, h1, h2, h3⟩ := h
  refine ⟨u.storage, viewIndex u a, ?_, h3, ?_⟩
  · simp [State.locate, locate, h1, h2]
  · exact (memWrite_ok_iff _ _ _ _).mpr ⟨0, _, routedStore_plain _ _ _ _ _ u h1 h2 h3, rfl⟩

/-- A store to read-only memory answers and changes nothing (R67). -/
theorem memWrite_of_discards (s : State) (a : Word) (v : Byte) (h : Discards s a) : memWrite s a v = .ok s := by
  obtain ⟨u, h1, h2, -⟩ := h
  exact (memWrite_ok_iff _ _ _ _).mpr ⟨0, s.world, routedStore_readonly _ _ _ _ _ u h1 h2, rfl⟩

/-- A change of contents moves no view. -/
theorem locate_putStorage (s : State) (id : StorageId) (k : Nat) (v : Byte) (b : Word) :
    (s.setWorld (putStorage s.world id k v)).locate b = s.locate b :=
  locate_congr _ rfl b

/-- After a store, the addresses with the same storage byte behind them show the stored byte, the others what they
showed (R63, R67). -/
theorem peek_putStorage (s : State) (a : Word) (id : StorageId) (k : Nat) (v : Byte) (hl : s.locate a = some (id, k))
    (hs : (storageByte s.world id k).isSome = true) (b : Word) :
    (s.setWorld (putStorage s.world id k v)).peek b = if s.locate b = s.locate a then some v else s.peek b := by
  rw [peek_setWorld, peekByte_putStorage, hl]
  show (if s.locate b = some (id, k) then _ else _) = _
  split
  · rename_i h
    have : peekByte s.plat s.world b = storageByte s.world id k := by
      rw [peekByte_eq]
      show (s.locate b).bind _ = _
      rw [h]; rfl
    obtain ⟨x, hx⟩ := Option.isSome_iff_exists.mp hs
    rw [this, hx]; rfl
  · rfl

/-! ## Frames -/

/-- Where the world stays, all of memory does. -/
theorem memKept_of_world (s t : State) (hw : t.world = s.world) (hp : t.plat = s.plat) : MemKept s t [] where
  bytes b _ := by simp [State.peek, hw, hp]
  storage _ _ _ := by rw [hw]
  storages _ := by rw [hw]
  active := by rw [hw]
  dev := by rw [hw]
  observers := by rw [hw]

/-- A store to one storage byte leaves every other byte of storage (R32, R67). -/
theorem memKept_putStorage (s : State) (a : Word) (id : StorageId) (k : Nat) (v : Byte)
    (hl : s.locate a = some (id, k)) (hs : (storageByte s.world id k).isSome = true) :
    MemKept s (s.setWorld (putStorage s.world id k v)) [a] where
  bytes b hb := by rw [peek_putStorage s a id k v hl hs, if_neg (hb a (by simp))]
  storage i j h := by
    rw [State.setWorld_world, storageByte_putStorage, if_neg]
    rintro ⟨rfl, rfl⟩
    exact h a (by simp) hl
  storages h := by simp at h
  active := rfl
  dev := rfl
  observers := rfl

/-! ## The instruction bodies that read one operand -/

/-- A read-class instruction is its function of the operand and the state after the read (R173). -/
theorem outcome_read (s s1 : State) (o : Operand) (v : Byte) (h : loadOperand s o = .ok (v, s1))
    (f : Byte → State → State) :
    outcome (do let (v, s) ← loadOperand s o; pure (f v s)) = .next (f v s1) := by
  rw [h]; rfl

/-! ## The step -/

/-- The parameter bytes of an instruction in ordinary memory (R122). -/
theorem memValues_of_peek (s : State) (l : List Byte) (a : Word)
    (h : ∀ k, k < l.length → s.peek (a + BitVec.ofNat 16 k) = l[k]?) :
    memValues s a l.length = .ok (l, s) := by
  induction l generalizing a with
  | nil => rfl
  | cons v vs ih =>
    have h0 := h 0 (by simp)
    simp only [BitVec.add_zero, List.getElem?_cons_zero] at h0
    have hvs := ih (a + 1#16) (by
      intro k hk
      have := h (k + 1) (by simpa using hk)
      rw [List.getElem?_cons_succ] at this
      rw [← this]
      congr 1
      rw [BitVec.add_assoc]
      congr 1
      apply BitVec.eq_of_toNat_eq
      simp
      omega)
    exact (bind_ok_iff _ _ _).mpr ⟨_, memRead_of_peek _ _ _ h0, (bind_ok_iff _ _ _).mpr ⟨_, hvs, rfl⟩⟩

/-- The fetch (R121, R122): the opcode byte; or, after a prefix, the byte that selects the template; then the parameters. -/
theorem fetch_ok_iff (s t : State) (T : Template) (ps : List Byte) :
    fetch s = .ok ((T, ps), t) ↔
      ∃ op s1, memRead s s.pc = .ok (op, s1) ∧
        ((s1.plat.params.prefixOf op = none ∧ T = optable s1.plat.params op ∧
            memValues s1 (s1.pc + 1#16) (T.length - 1) = .ok (ps, t)) ∨
          ∃ x op1 s2, s1.plat.params.prefixOf op = some x ∧ memRead s1 (s1.pc + 1#16) = .ok (op1, s2) ∧
            T = x.template op1 ∧ memValues s2 (s2.pc + 2#16) (T.length - 2) = .ok (ps, t)) := by
  have hps : ∀ (s1 : State) (T' : Template) (n : Nat), fetchParams s1 T' n = .ok ((T, ps), t) ↔
      T = T' ∧ memValues s1 (s1.pc + BitVec.ofNat 16 n) (T.length - n) = .ok (ps, t) := by
    intro s1 T' n
    unfold fetchParams
    rw [bind_ok_iff]
    constructor
    · rintro ⟨⟨v, s2⟩, h1, h2⟩
      simp only [pure_ok_iff, Prod.mk.injEq] at h2
      obtain ⟨⟨rfl, rfl⟩, rfl⟩ := h2
      exact ⟨rfl, h1⟩
    · rintro ⟨rfl, h⟩
      exact ⟨(ps, t), h, by simp [pure_ok_iff]⟩
  unfold fetch
  rw [bind_ok_iff]
  constructor
  · rintro ⟨⟨op, s1⟩, h1, h⟩
    refine ⟨op, s1, h1, ?_⟩
    dsimp only at h
    split at h
    · rename_i hp
      exact .inl ⟨hp, (hps _ _ _).mp h⟩
    · rename_i x hp
      obtain ⟨⟨op1, s2⟩, h2, h⟩ := (bind_ok_iff _ _ _).mp h
      exact .inr ⟨x, op1, s2, hp, h2, (hps _ _ _).mp h⟩
  · rintro ⟨op, s1, h1, ⟨hp, h⟩ | ⟨x, op1, s2, hp, h2, h⟩⟩ <;> refine ⟨(op, s1), h1, ?_⟩ <;>
      dsimp only <;> rw [hp]
    · exact (hps _ _ _).mpr h
    · exact (bind_ok_iff _ _ _).mpr ⟨(op1, s2), h2, (hps _ _ _).mpr h⟩

/-- The end of a step (R130): a jam that blocks interrupts, or the poll; then the clock, and nothing of the step is left. -/
theorem endStep_ok_iff (s t : State) :
    endStep s = .ok t ↔
      ∃ u, (if s.jamNow && s.plat.params.jamBlocksInterrupts then .ok s else pollInterrupts s) = .ok u ∧
        t = u.closeStep := by
  unfold endStep
  rw [bind_ok_iff]
  exact ⟨fun ⟨u, h1, h2⟩ => ⟨u, h1, ((pure_ok_iff _ _).mp h2).symm⟩,
    fun ⟨u, h1, h2⟩ => ⟨u, h1, (pure_ok_iff _ _).mpr h2.symm⟩⟩

/-- A step has a next state exactly when the fetch, the instruction and the end of the step have one (R13, R130). -/
theorem step_next_iff (s t : State) :
    step s = .next t ↔
      ∃ tpl ps s1 s2, fetch s = .ok ((tpl, ps), s1) ∧ exec (bindParams tpl ps) (beginExecute s1 tpl) = .next s2 ∧
        endStep s2 = .ok t := by
  unfold step
  constructor
  · intro h
    split at h
    · rename_i tpl ps s1 hf
      unfold finishStep at h
      split at h
      · exact ⟨tpl, ps, s1, _, hf, by assumption, (outcome_next_iff _ _).mp h⟩
      · cases h
      · cases h
    · rw [outcome_next_iff] at h
      cases h
  · rintro ⟨tpl, ps, s1, s2, h1, h2, h3⟩
    rw [h1]
    dsimp only
    rw [h2]
    exact (outcome_next_iff _ _).mpr h3

end Sys2Proof.Machine
end

