-- ==== Sys2Proof/Laws/Driver.lean ====
section
/-! SUPPORT. What the driver's operations can do: a chip's `simulate`, a turn of the loop, one more turn of a run. -/

namespace Sys2Proof.Machine

/-- `simulate` of a chip changes at most the world (R103). -/
theorem simulateChip_ok_iff (s : State) (c : ChipId) (t : State) :
    simulateChip s c = .ok t ↔
      ∃ w, worldHandler s.plat c (simulateHandler s.plat c s.view) s.world = .ok (true, w) ∧ t = s.setWorld w := by
  unfold simulateChip
  rcases h : worldHandler s.plat c (simulateHandler s.plat c s.view) s.world with e | ⟨b, w⟩
  · simp
  · cases b with
    | false => simp
    | true => simp [eq_comm]

/-- `simulate` of a chip leaves an admitted configuration admitted (R75, R82). -/
theorem simulateChip_admitted (s : State) (c : ChipId) (t : State) (h : simulateChip s c = .ok t)
    (hs : admitted s.plat s.world = true) : admitted t.plat t.world = true := by
  obtain ⟨w, hw, rfl⟩ := (simulateChip_ok_iff s c t).mp h
  obtain ⟨d, hw⟩ := (worldHandler_ok_iff _ _ _ _ _).mp hw
  exact runHandler_keeps (admitted_kept _) _ (ports_keep (admitted_kept _) _) _ _ _ _ _ hw hs

/-- A turn of the loop is a step and then every chip's `simulate`, in the platform's order (R415). -/
theorem loopOnce_next_iff (s t : State) :
    loopOnce s = .next t ↔
      ∃ s1, step s = .next s1 ∧ simulateChips s1 ((chipList s1.plat).map Prod.snd) = .ok t := by
  unfold loopOnce
  cases step s <;> simp [outcome_next_iff]

/-- A run that does not end at this boundary takes one turn and goes on (R416). -/
theorem run_succ (n : Nat) (s t : State) (h : runEnds s = false) :
    run (n + 1) s = .next t ↔ ∃ s1, loopOnce s = .next s1 ∧ run n s1 = .next t := by
  simp only [run, h, Bool.false_eq_true, if_false]
  cases loopOnce s <;> simp

end Sys2Proof.Machine
end

