-- ==== Sys2Proof/Laws/PerInstr.lean ====
section
/-! SUPPORT. A fact about every instruction as syntax: its code is an opcode byte and the parameter bytes that opcode's
template asks for (R120, R124). -/

namespace Sys2Proof.Laws.DecodedLength

open Sys2Proof

/-- The code of a well-formed instruction has the length of the template that its first byte selects. -/
def Statement (i : Instr) : Prop :=
  WellFormed i = true → ∃ op ps, encode i = op :: ps ∧ ps.length + 1 = (optable Params.default op).length

theorem lda (o : Operand) : Statement (.lda o) := by
  intro h
  rcases o with v | (_ | _ | _ | _ | _ | _ | _ | _) <;> first | exact ⟨_, _, rfl, rfl⟩ | exact Bool.false_ne_true.elim h

theorem ldx (o : Operand) : Statement (.ldx o) := by
  intro h
  rcases o with v | (_ | _ | _ | _ | _ | _ | _ | _) <;> first | exact ⟨_, _, rfl, rfl⟩ | exact Bool.false_ne_true.elim h

theorem ldy (o : Operand) : Statement (.ldy o) := by
  intro h
  rcases o with v | (_ | _ | _ | _ | _ | _ | _ | _) <;> first | exact ⟨_, _, rfl, rfl⟩ | exact Bool.false_ne_true.elim h

theorem sta (m : MemOperand) : Statement (.sta m) := by
  intro h
  rcases m with _ | _ | _ | _ | _ | _ | _ | _ <;> first | exact ⟨_, _, rfl, rfl⟩ | exact Bool.false_ne_true.elim h

theorem stx (m : MemOperand) : Statement (.stx m) := by
  intro h
  rcases m with _ | _ | _ | _ | _ | _ | _ | _ <;> first | exact ⟨_, _, rfl, rfl⟩ | exact Bool.false_ne_true.elim h

theorem sty (m : MemOperand) : Statement (.sty m) := by
  intro h
  rcases m with _ | _ | _ | _ | _ | _ | _ | _ <;> first | exact ⟨_, _, rfl, rfl⟩ | exact Bool.false_ne_true.elim h

theorem tax : Statement .tax := fun _ => ⟨_, _, rfl, rfl⟩

theorem tay : Statement .tay := fun _ => ⟨_, _, rfl, rfl⟩

theorem txa : Statement .txa := fun _ => ⟨_, _, rfl, rfl⟩

theorem tya : Statement .tya := fun _ => ⟨_, _, rfl, rfl⟩

theorem tsx : Statement .tsx := fun _ => ⟨_, _, rfl, rfl⟩

theorem txs : Statement .txs := fun _ => ⟨_, _, rfl, rfl⟩

theorem and (o : Operand) : Statement (.and o) := by
  intro h
  rcases o with v | (_ | _ | _ | _ | _ | _ | _ | _) <;> first | exact ⟨_, _, rfl, rfl⟩ | exact Bool.false_ne_true.elim h

theorem ora (o : Operand) : Statement (.ora o) := by
  intro h
  rcases o with v | (_ | _ | _ | _ | _ | _ | _ | _) <;> first | exact ⟨_, _, rfl, rfl⟩ | exact Bool.false_ne_true.elim h

theorem eor (o : Operand) : Statement (.eor o) := by
  intro h
  rcases o with v | (_ | _ | _ | _ | _ | _ | _ | _) <;> first | exact ⟨_, _, rfl, rfl⟩ | exact Bool.false_ne_true.elim h

theorem bit (m : MemOperand) : Statement (.bit m) := by
  intro h
  rcases m with _ | _ | _ | _ | _ | _ | _ | _ <;> first | exact ⟨_, _, rfl, rfl⟩ | exact Bool.false_ne_true.elim h

theorem adc (o : Operand) : Statement (.adc o) := by
  intro h
  rcases o with v | (_ | _ | _ | _ | _ | _ | _ | _) <;> first | exact ⟨_, _, rfl, rfl⟩ | exact Bool.false_ne_true.elim h

theorem sbc (o : Operand) : Statement (.sbc o) := by
  intro h
  rcases o with v | (_ | _ | _ | _ | _ | _ | _ | _) <;> first | exact ⟨_, _, rfl, rfl⟩ | exact Bool.false_ne_true.elim h

theorem cmp (o : Operand) : Statement (.cmp o) := by
  intro h
  rcases o with v | (_ | _ | _ | _ | _ | _ | _ | _) <;> first | exact ⟨_, _, rfl, rfl⟩ | exact Bool.false_ne_true.elim h

theorem cpx (o : Operand) : Statement (.cpx o) := by
  intro h
  rcases o with v | (_ | _ | _ | _ | _ | _ | _ | _) <;> first | exact ⟨_, _, rfl, rfl⟩ | exact Bool.false_ne_true.elim h

theorem cpy (o : Operand) : Statement (.cpy o) := by
  intro h
  rcases o with v | (_ | _ | _ | _ | _ | _ | _ | _) <;> first | exact ⟨_, _, rfl, rfl⟩ | exact Bool.false_ne_true.elim h

theorem asl (o : ShiftOperand) : Statement (.asl o) := by
  intro h
  rcases o with _ | (_ | _ | _ | _ | _ | _ | _ | _) <;> first | exact ⟨_, _, rfl, rfl⟩ | exact Bool.false_ne_true.elim h

theorem lsr (o : ShiftOperand) : Statement (.lsr o) := by
  intro h
  rcases o with _ | (_ | _ | _ | _ | _ | _ | _ | _) <;> first | exact ⟨_, _, rfl, rfl⟩ | exact Bool.false_ne_true.elim h

theorem rol (o : ShiftOperand) : Statement (.rol o) := by
  intro h
  rcases o with _ | (_ | _ | _ | _ | _ | _ | _ | _) <;> first | exact ⟨_, _, rfl, rfl⟩ | exact Bool.false_ne_true.elim h

theorem ror (o : ShiftOperand) : Statement (.ror o) := by
  intro h
  rcases o with _ | (_ | _ | _ | _ | _ | _ | _ | _) <;> first | exact ⟨_, _, rfl, rfl⟩ | exact Bool.false_ne_true.elim h

theorem inc (m : MemOperand) : Statement (.inc m) := by
  intro h
  rcases m with _ | _ | _ | _ | _ | _ | _ | _ <;> first | exact ⟨_, _, rfl, rfl⟩ | exact Bool.false_ne_true.elim h

theorem dec (m : MemOperand) : Statement (.dec m) := by
  intro h
  rcases m with _ | _ | _ | _ | _ | _ | _ | _ <;> first | exact ⟨_, _, rfl, rfl⟩ | exact Bool.false_ne_true.elim h

theorem inx : Statement .inx := fun _ => ⟨_, _, rfl, rfl⟩

theorem iny : Statement .iny := fun _ => ⟨_, _, rfl, rfl⟩

theorem dex : Statement .dex := fun _ => ⟨_, _, rfl, rfl⟩

theorem dey : Statement .dey := fun _ => ⟨_, _, rfl, rfl⟩

theorem pha : Statement .pha := fun _ => ⟨_, _, rfl, rfl⟩

theorem php : Statement .php := fun _ => ⟨_, _, rfl, rfl⟩

theorem pla : Statement .pla := fun _ => ⟨_, _, rfl, rfl⟩

theorem plp : Statement .plp := fun _ => ⟨_, _, rfl, rfl⟩

theorem clc : Statement .clc := fun _ => ⟨_, _, rfl, rfl⟩

theorem sec : Statement .sec := fun _ => ⟨_, _, rfl, rfl⟩

theorem cli : Statement .cli := fun _ => ⟨_, _, rfl, rfl⟩

theorem sei : Statement .sei := fun _ => ⟨_, _, rfl, rfl⟩

theorem cld : Statement .cld := fun _ => ⟨_, _, rfl, rfl⟩

theorem sed : Statement .sed := fun _ => ⟨_, _, rfl, rfl⟩

theorem clv : Statement .clv := fun _ => ⟨_, _, rfl, rfl⟩

theorem jmpAbs (w : Word) : Statement (.jmpAbs w) := fun _ => ⟨_, _, rfl, rfl⟩

theorem jmpInd (w : Word) : Statement (.jmpInd w) := fun _ => ⟨_, _, rfl, rfl⟩

theorem jsr (w : Word) : Statement (.jsr w) := fun _ => ⟨_, _, rfl, rfl⟩

theorem rts : Statement .rts := fun _ => ⟨_, _, rfl, rfl⟩

theorem bpl (off : Byte) : Statement (.bpl off) := fun _ => ⟨_, _, rfl, rfl⟩

theorem bmi (off : Byte) : Statement (.bmi off) := fun _ => ⟨_, _, rfl, rfl⟩

theorem bvc (off : Byte) : Statement (.bvc off) := fun _ => ⟨_, _, rfl, rfl⟩

theorem bvs (off : Byte) : Statement (.bvs off) := fun _ => ⟨_, _, rfl, rfl⟩

theorem bcc (off : Byte) : Statement (.bcc off) := fun _ => ⟨_, _, rfl, rfl⟩

theorem bcs (off : Byte) : Statement (.bcs off) := fun _ => ⟨_, _, rfl, rfl⟩

theorem bne (off : Byte) : Statement (.bne off) := fun _ => ⟨_, _, rfl, rfl⟩

theorem beq (off : Byte) : Statement (.beq off) := fun _ => ⟨_, _, rfl, rfl⟩

theorem brk : Statement .brk := fun _ => ⟨_, _, rfl, rfl⟩

theorem rti : Statement .rti := fun _ => ⟨_, _, rfl, rfl⟩

theorem nop : Statement .nop := fun _ => ⟨_, _, rfl, rfl⟩

theorem undef (op : Byte) (params : List Byte) : Statement (.undef op params) := by
  intro h
  simp only [WellFormed, Bool.and_eq_true, beq_iff_eq] at h
  exact ⟨op, params, rfl, by rw [h.2, optable_undef _ _ h.1]⟩

theorem jam : Statement .jam := fun _ => ⟨_, _, rfl, rfl⟩

end Sys2Proof.Laws.DecodedLength
end

