-- ==== Sys2Proof/Tests/Slice0.lean ====
section
/-! SUPPORT. Tests of the model: ill-formed terms are refused, words of the spec decode, one step on vectors of
spec/95_test_vectors.md, and for each statement with hypotheses a state and operands that meet them. -/

namespace Sys2Proof.Tests

open Sys2Proof Sys2Proof.Machine Sys2Proof.Safety

-- One theorem at a time: many kernel evaluations in flight at once ask for more threads than the check allows.
set_option Elab.async false

/-! ## Well-formedness refuses what has no encoding -/

theorem test_refuses_lda_zero_page_y : WellFormed (.lda (.mem (.zpy 0x10#8))) = false := by decide
theorem test_refuses_ldx_zero_page_x : WellFormed (.ldx (.mem (.zpx 0x10#8))) = false := by decide
theorem test_refuses_ldy_zero_page_y : WellFormed (.ldy (.mem (.zpy 0x10#8))) = false := by decide
theorem test_refuses_stores : WellFormed (.sta (.zpy 0x10#8)) = false ∧ WellFormed (.stx (.zpx 0x10#8)) = false ∧
    WellFormed (.sty (.abx 0x1000#16)) = false := by decide
theorem test_refuses_logic_zero_page_y : WellFormed (.and (.mem (.zpy 0x10#8))) = false ∧
    WellFormed (.ora (.mem (.zpy 0x10#8))) = false ∧ WellFormed (.eor (.mem (.zpy 0x10#8))) = false ∧
    WellFormed (.bit (.zpx 0x10#8)) = false := by decide
theorem test_refuses_arithmetic_zero_page_y : WellFormed (.adc (.mem (.zpy 0x10#8))) = false ∧
    WellFormed (.sbc (.mem (.zpy 0x10#8))) = false ∧ WellFormed (.cmp (.mem (.zpy 0x10#8))) = false ∧
    WellFormed (.cpx (.mem (.zpx 0x10#8))) = false ∧ WellFormed (.cpy (.mem (.abx 0x1000#16))) = false := by decide
theorem test_refuses_rmw_absolute_y : WellFormed (.asl (.mem (.aby 0x1000#16))) = false ∧
    WellFormed (.lsr (.mem (.izx 0x10#8))) = false ∧ WellFormed (.rol (.mem (.izy 0x10#8))) = false ∧
    WellFormed (.ror (.mem (.zpy 0x10#8))) = false ∧ WellFormed (.inc (.aby 0x1000#16)) = false ∧
    WellFormed (.dec (.zpy 0x10#8)) = false := by decide
theorem test_refuses_undefined_of_documented_opcode : WellFormed (.undef 0xEA#8 []) = false := by decide
theorem test_refuses_undefined_of_wrong_length : WellFormed (.undef 0x04#8 []) = false := by decide

/-! ## Words written out from the Encodings of files 41 to 46, and from R128 and R129 -/

/-- The bytes decode to the instruction, and none is left. -/
def decodesTo (e : List Byte × Instr) : Bool :=
  match decode e.1 with
  | .ok (i, rest) => i == e.2 && rest.isEmpty
  | .error _ => false

theorem test_decode_loads_stores_transfers : [
    ([0xA9#8, 0x7F#8], .lda (.imm 0x7F#8)), ([0xB1#8, 0x86#8], .lda (.mem (.izy 0x86#8))),
    ([0xBE#8, 0xFF#8, 0x02#8], .ldx (.mem (.aby 0x02FF#16))), ([0xBC#8, 0x00#8, 0x03#8], .ldy (.mem (.abx 0x0300#16))),
    ([0x81#8, 0x10#8], .sta (.izx 0x10#8)), ([0x96#8, 0x10#8], .stx (.zpy 0x10#8)), ([0x94#8, 0xFF#8], .sty (.zpx 0xFF#8)),
    ([0xAA#8], .tax), ([0xA8#8], .tay), ([0x8A#8], .txa), ([0x98#8], .tya), ([0xBA#8], .tsx),
    ([0x9A#8], Instr.txs)].all decodesTo = true := by decide
theorem test_decode_logic_arithmetic_compare : [
    ([0x35#8, 0xF0#8], .and (.mem (.zpx 0xF0#8))), ([0x11#8, 0x40#8], .ora (.mem (.izy 0x40#8))),
    ([0x41#8, 0x40#8], .eor (.mem (.izx 0x40#8))), ([0x2C#8, 0x00#8, 0x30#8], .bit (.abs 0x3000#16)),
    ([0x7D#8, 0xFF#8, 0x2F#8], .adc (.mem (.abx 0x2FFF#16))), ([0xE5#8, 0x10#8], .sbc (.mem (.zp 0x10#8))),
    ([0xC9#8, 0x41#8], .cmp (.imm 0x41#8)), ([0xEC#8, 0x00#8, 0x30#8], .cpx (.mem (.abs 0x3000#16))),
    ([0xC0#8, 0x80#8], Instr.cpy (.imm 0x80#8))].all decodesTo = true := by decide
theorem test_decode_shifts_increments : [
    ([0x0A#8], .asl .acc), ([0x1E#8, 0xFF#8, 0x10#8], .asl (.mem (.abx 0x10FF#16))), ([0x46#8, 0x10#8], .lsr (.mem (.zp 0x10#8))),
    ([0x2E#8, 0x00#8, 0x30#8], .rol (.mem (.abs 0x3000#16))), ([0x6A#8], .ror .acc), ([0xF6#8, 0x10#8], .inc (.zpx 0x10#8)),
    ([0xCE#8, 0x00#8, 0x03#8], .dec (.abs 0x0300#16)), ([0xE8#8], .inx), ([0xC8#8], .iny), ([0xCA#8], .dex),
    ([0x88#8], Instr.dey)].all decodesTo = true := by decide
theorem test_decode_stack_flags : [
    ([0x48#8], .pha), ([0x08#8], .php), ([0x68#8], .pla), ([0x28#8], .plp), ([0x18#8], .clc), ([0x38#8], .sec),
    ([0x58#8], .cli), ([0x78#8], .sei), ([0xD8#8], .cld), ([0xF8#8], .sed), ([0xB8#8], Instr.clv)].all decodesTo = true := by
  decide
theorem test_decode_control : [
    ([0x4C#8, 0x34#8, 0x12#8], .jmpAbs 0x1234#16), ([0x6C#8, 0xFF#8, 0x12#8], .jmpInd 0x12FF#16),
    ([0x20#8, 0x00#8, 0x80#8], .jsr 0x8000#16), ([0x60#8], .rts), ([0x10#8, 0x02#8], .bpl 0x02#8), ([0x30#8, 0x02#8], .bmi 0x02#8),
    ([0x50#8, 0x02#8], .bvc 0x02#8), ([0x70#8, 0x02#8], .bvs 0x02#8), ([0x90#8, 0x02#8], .bcc 0x02#8), ([0xB0#8, 0x02#8], .bcs 0x02#8),
    ([0xD0#8, 0xFC#8], .bne 0xFC#8), ([0xF0#8, 0x02#8], Instr.beq 0x02#8)].all decodesTo = true := by decide
theorem test_decode_system : [
    ([0x00#8], .brk), ([0x40#8], .rti), ([0xEA#8], .nop), ([0x02#8], .undef 0x02#8 []), ([0x80#8, 0x55#8], .undef 0x80#8 [0x55#8]),
    ([0x0C#8, 0x34#8, 0x12#8], .undef 0x0C#8 [0x34#8, 0x12#8]), ([0xFF#8], Instr.jam)].all decodesTo = true := by decide

/-- Decoding the same words by number, as spec/opcode_table.json numbers their bits. -/
theorem test_decodeTableWord : decodeTableWord 24 0x12346C = some (.jmpInd 0x1234#16) ∧
    decodeTableWord 16 0x10A5 = some (.lda (.mem (.zp 0x10#8))) ∧ decodeTableWord 8 0xFF = some .jam := by decide

/-- The parameters with NMOS silicon's jams (90_conflicts.md C3): `JAMSET` is the twelve opcodes 02, 12, ... F2, and FF is
an undefined opcode of three bytes; its 7 cycles are those of the row of R128 that FF leaves. -/
def siliconParams : Params :=
  { Params.default with
    jamSet := [0x02#8, 0x12#8, 0x22#8, 0x32#8, 0x42#8, 0x52#8, 0x62#8, 0x72#8, 0x92#8, 0xB2#8, 0xD2#8, 0xF2#8]
    undefTable := ⟨[0xFF#8], 3, 7⟩ :: Config.undefTable }

/-- R129: the model can be instantiated either way. -/
theorem test_jamset_is_a_parameter :
    decodeWith siliconParams [0xF2#8] = .ok (.jam, []) ∧
    decodeWith siliconParams [0xFF#8, 0x34#8, 0x12#8] = .ok (.undef 0xFF#8 [0x34#8, 0x12#8], []) ∧
    (optable siliconParams 0xFF#8).cycles = 7 ∧
    decodeWith siliconParams [0xEA#8] = .ok (.nop, []) := by decide +kernel

/-- Parameters with a second decode level (R121): the prefixes DD and FF, of which FF is in `JAMSET` as well; the level-1
table holds LDA absolute at 00 and INX at 01, and lists 02 as undefined. -/
def twoLevels : Params :=
  let table : List (Option Template) := [some ⟨.lda (.mem (.abs 0x0000#16)), 4, 6, false⟩, some ⟨.inx, 2, 4, false⟩]
  { Params.default with
    nLevels := 2
    prefixes := [⟨0xDD#8, table, [⟨[0x02#8], 3, 5⟩]⟩, ⟨0xFF#8, table, []⟩] }

/-- R121: the byte after a prefix selects the level-1 template; with `NLEVELS` = 1 there are no prefixes; and log 27. -/
theorem test_prefix_selects_the_second_table :
    decodeWith twoLevels [0xDD#8, 0x00#8, 0x34#8, 0x12#8, 0xEA#8] = .ok (.lda (.mem (.abs 0x1234#16)), [0xEA#8]) ∧
    decodeWith twoLevels [0xDD#8, 0x01#8] = .ok (.inx, []) ∧
    decodeWith twoLevels [0xDD#8, 0x02#8, 0x34#8] = .ok (.undef 0x02#8 [0x34#8], []) ∧
    decodeWith twoLevels [0xDD#8] = .error (.truncated 0xDD#8) ∧
    decodeWith twoLevels [0xFF#8, 0x01#8] = .ok (.jam, [0x01#8]) ∧
    decodeWith twoLevels [0xDD#8, 0xFF#8] = .ok (.undef 0xFF#8 [], []) ∧
    decodeWith { twoLevels with nLevels := 1 } [0xDD#8, 0x34#8, 0x12#8] = decode [0xDD#8, 0x34#8, 0x12#8] := by decide +kernel

/-- A word placed by `withFetchWord` is the first instruction after reset. -/
theorem test_withFetchWord_runs :
    (match step (State.reset.withFetchWord 16 0xFFA9) with | .next t => some (t.a, t.pc) | _ => none) =
      some (0xFF#8, 0x0002#16) := by decide +kernel

/-! ## One step on TP1: the vectors of sections 1 and 2 -/

/-- The default start state of 95_test_vectors.md with `code` at `pc` and `mem` besides. -/
def board (pc : Word) (code : List Byte) (mem : List Host.Cell) : State :=
  let cells := (code.zipIdx.map (fun e => (pc.toNat + e.2, e.1)) ++ mem).foldl (fun c e => putCell c e.1 e.2) []
  { State.reset with
    sp := 0xFF#8, pc := pc, p := 0x20#8
    world := { World.reset with storages := [{ size := 65536, cells := cells }] } }

/-- The vectors of section 2.7: NMI to 9000, IRQ and BRK to A000. -/
def handlers : List Host.Cell := [(0xFFFB, 0x90#8), (0xFFFF, 0xA0#8)]

/-- The state with the request latches as given. -/
def requesting (nmi irq : Bool) (s : State) : State := { s with world := { s.world with nmiReq := nmi, irqReq := irq } }

/-- What one step leaves in `f`. -/
def after {α : Type} (s : State) (f : State → α) : Option α :=
  match step s with
  | .next t => some (f t)
  | .fault _ => none
  | .refused _ => none

/-- Vector V4. -/
theorem test_lda_zero_page_x_wraps :
    after { board 0x0200#16 [0xB5#8, 0xF0#8] [(0x0010, 0x33#8), (0x0110, 0x44#8)] with x := 0x20#8 }
      (fun t => (t.a, t.pc)) = some (0x33#8, 0x0202#16) := by decide +kernel

/-- Vector V10. -/
theorem test_lda_indexed_indirect_pointer_wraps :
    after { board 0x0200#16 [0xA1#8, 0xFF#8] [(0x0000, 0x12#8), (0x00FF, 0x34#8), (0x0100, 0x99#8), (0x1234, 0xCD#8)] with x := 0x00#8 }
      (fun t => (t.a, t.cycles)) = some (0xCD#8, 6) := by decide +kernel

/-- Vector V17. -/
theorem test_ldx_absolute_y_crosses :
    after { board 0x0200#16 [0xBE#8, 0xFF#8, 0x02#8] [(0x0300, 0x7F#8)] with y := 0x01#8 }
      (fun t => (t.x, t.cycles)) = some (0x7F#8, 5) := by decide +kernel

/-- Vector V20. -/
theorem test_ldy_absolute_x :
    after { board 0x0200#16 [0xBC#8, 0x00#8, 0x03#8] [(0x03FF, 0x80#8)] with x := 0xFF#8 }
      (fun t => (t.y, t.cycles)) = some (0x80#8, 4) := by decide +kernel

/-- Vector V25. -/
theorem test_sta_indexed_indirect :
    after { board 0x0200#16 [0x81#8, 0x10#8] [(0x0000, 0x00#8), (0x0001, 0x40#8)] with a := 0xEE#8, x := 0xF0#8 }
      (fun t => (t.peek 0x4000#16, t.p)) = some (some 0xEE#8, 0x20#8) := by decide +kernel

/-- Vector V28. -/
theorem test_stx_zero_page_y_wraps :
    after { board 0x0200#16 [0x96#8, 0x10#8] [] with x := 0x12#8, y := 0xF8#8 }
      (fun t => t.peek 0x0008#16) = some (some 0x12#8) := by decide +kernel

/-- Vector V31. -/
theorem test_sty_zero_page_x_wraps :
    after { board 0x0200#16 [0x94#8, 0xFF#8] [] with y := 0x34#8, x := 0x01#8 }
      (fun t => t.peek 0x0000#16) = some (some 0x34#8) := by decide +kernel

/-- Vector V33. -/
theorem test_tax :
    after { board 0x0200#16 [0xAA#8] [] with a := 0x80#8 }
      (fun t => (t.x, t.p)) = some (0x80#8, 0xA0#8) := by decide +kernel

/-- Vector V35. -/
theorem test_tay :
    after { board 0x0200#16 [0xA8#8] [] with a := 0x7F#8 }
      (fun t => (t.y, t.p)) = some (0x7F#8, 0x20#8) := by decide +kernel

/-- Vector V36. -/
theorem test_txa :
    after { board 0x0200#16 [0x8A#8] [] with x := 0x00#8, a := 0x11#8 }
      (fun t => (t.a, t.p)) = some (0x00#8, 0x22#8) := by decide +kernel

/-- Vector V37. -/
theorem test_tya :
    after { board 0x0200#16 [0x98#8] [] with y := 0xFF#8 }
      (fun t => (t.a, t.p)) = some (0xFF#8, 0xA0#8) := by decide +kernel

/-- Vector V38. -/
theorem test_tsx :
    after { board 0x0200#16 [0xBA#8] [] with sp := 0x80#8 }
      (fun t => (t.x, t.p)) = some (0x80#8, 0xA0#8) := by decide +kernel

/-- Vector V40. -/
theorem test_txs_keeps_flags :
    after { board 0x0200#16 [0x9A#8] [] with x := 0x00#8, p := 0xA1#8 }
      (fun t => (t.sp, t.p)) = some (0x00#8, 0xA1#8) := by decide +kernel

/-- Vector V63. -/
theorem test_and_zero_page_x :
    after { board 0x0200#16 [0x35#8, 0xF0#8] [(0x0010, 0x8F#8)] with a := 0xF0#8, x := 0x20#8 }
      (fun t => (t.a, t.p)) = some (0x80#8, 0xA0#8) := by decide +kernel

/-- Vector V64. -/
theorem test_ora_indirect_indexed :
    after { board 0x0200#16 [0x11#8, 0x40#8] [(0x0040, 0xFF#8), (0x0041, 0x10#8), (0x1100, 0x80#8)] with a := 0x01#8, y := 0x01#8 }
      (fun t => (t.a, t.cycles)) = some (0x81#8, 6) := by decide +kernel

/-- Vector V65. -/
theorem test_eor_indexed_indirect :
    after { board 0x0200#16 [0x41#8, 0x40#8] [(0x0042, 0x00#8), (0x0043, 0x30#8), (0x3000, 0xFF#8)] with a := 0xFF#8, x := 0x02#8 }
      (fun t => (t.a, t.p)) = some (0x00#8, 0x22#8) := by decide +kernel

/-- Vector V60. -/
theorem test_bit :
    after { board 0x0200#16 [0x24#8, 0x10#8] [(0x0010, 0xC0#8)] with a := 0x01#8 }
      (fun t => (t.a, t.p)) = some (0x01#8, 0xE2#8) := by decide +kernel

/-- Vector V42. -/
theorem test_adc_overflows :
    after { board 0x0200#16 [0x69#8, 0x50#8] [] with a := 0x50#8 }
      (fun t => (t.a, t.p)) = some (0xA0#8, 0xE0#8) := by decide +kernel

/-- Vector V66. -/
theorem test_adc_decimal :
    after { board 0x0200#16 [0x69#8, 0x46#8] [] with a := 0x58#8, p := 0x29#8 }
      (fun t => (t.a, t.p)) = some (0x05#8, 0xE9#8) := by decide +kernel

/-- Vector V49. -/
theorem test_sbc_borrows :
    after { board 0x0200#16 [0xE9#8, 0x00#8] [] with a := 0x00#8, p := 0x20#8 }
      (fun t => (t.a, t.p)) = some (0xFF#8, 0xA0#8) := by decide +kernel

/-- Vector V72. -/
theorem test_sbc_decimal :
    after { board 0x0200#16 [0xE9#8, 0x01#8] [] with a := 0x00#8, p := 0x29#8 }
      (fun t => (t.a, t.p)) = some (0x99#8, 0xA8#8) := by decide +kernel

/-- Vector V52. -/
theorem test_cmp_sign_of_difference :
    after { board 0x0200#16 [0xC9#8, 0x01#8] [] with a := 0x80#8 }
      (fun t => (t.a, t.p)) = some (0x80#8, 0x21#8) := by decide +kernel

/-- Vector E2. -/
theorem test_cpx_equal :
    after { board 0x0202#16 [0xE0#8, 0xFF#8] [] with a := 0xFF#8, x := 0xFF#8, p := 0xA0#8 }
      (fun t => (t.x, t.p)) = some (0xFF#8, 0x23#8) := by decide +kernel

/-- Vector V58. -/
theorem test_cpy_zero_page :
    after { board 0x0200#16 [0xC4#8, 0x10#8] [(0x0010, 0x00#8)] with y := 0xFF#8 }
      (fun t => (t.y, t.p)) = some (0xFF#8, 0xA1#8) := by decide +kernel

/-- Vector V77. -/
theorem test_asl_memory :
    after (board 0x0200#16 [0x06#8, 0x10#8] [(0x0010, 0x81#8)])
      (fun t => (t.peek 0x0010#16, t.p)) = some (some 0x02#8, 0x21#8) := by decide +kernel

/-- Vector V80. -/
theorem test_lsr_memory :
    after (board 0x0200#16 [0x46#8, 0x10#8] [(0x0010, 0x01#8)])
      (fun t => (t.peek 0x0010#16, t.p)) = some (some 0x00#8, 0x23#8) := by decide +kernel

/-- Vector V82. -/
theorem test_rol_memory :
    after { board 0x0200#16 [0x2E#8, 0x00#8, 0x30#8] [(0x3000, 0x80#8)] with p := 0x21#8 }
      (fun t => (t.peek 0x3000#16, t.p)) = some (some 0x01#8, 0x21#8) := by decide +kernel

/-- Vector V83. -/
theorem test_ror_memory :
    after { board 0x0200#16 [0x66#8, 0x10#8] [(0x0010, 0x00#8)] with p := 0x21#8 }
      (fun t => (t.peek 0x0010#16, t.p)) = some (some 0x80#8, 0xA0#8) := by decide +kernel

/-- Vector V86. -/
theorem test_inc_memory :
    after (board 0x0200#16 [0xE6#8, 0x10#8] [(0x0010, 0x7F#8)])
      (fun t => (t.peek 0x0010#16, t.p)) = some (some 0x80#8, 0xA0#8) := by decide +kernel

/-- Vector V89. -/
theorem test_dec_memory :
    after (board 0x0200#16 [0xC6#8, 0x10#8] [(0x0010, 0x00#8)])
      (fun t => (t.peek 0x0010#16, t.p)) = some (some 0xFF#8, 0xA0#8) := by decide +kernel

/-- Vector V93. -/
theorem test_inx_wraps :
    after { board 0x0200#16 [0xE8#8] [] with x := 0xFF#8, p := 0x21#8 }
      (fun t => (t.x, t.p)) = some (0x00#8, 0x23#8) := by decide +kernel

/-- Vector V95. -/
theorem test_iny_wraps :
    after { board 0x0200#16 [0xC8#8] [] with y := 0xFF#8 }
      (fun t => (t.y, t.p)) = some (0x00#8, 0x22#8) := by decide +kernel

/-- Vector V96. -/
theorem test_dex_wraps :
    after { board 0x0200#16 [0xCA#8] [] with x := 0x00#8 }
      (fun t => (t.x, t.p)) = some (0xFF#8, 0xA0#8) := by decide +kernel

/-- Vector V98. -/
theorem test_dey_wraps :
    after { board 0x0200#16 [0x88#8] [] with y := 0x00#8 }
      (fun t => (t.y, t.p)) = some (0xFF#8, 0xA0#8) := by decide +kernel

/-- Vector V101. -/
theorem test_pha_wraps :
    after { board 0x0200#16 [0x48#8] [] with a := 0x42#8, sp := 0x00#8 }
      (fun t => (t.peek 0x0100#16, t.sp, t.stackAnomaly)) = some (some 0x42#8, 0xFF#8, true) := by decide +kernel

/-- Vector V102. -/
theorem test_php_sets_break :
    after { board 0x0200#16 [0x08#8] [] with p := 0x23#8 }
      (fun t => (t.peek 0x01FF#16, t.p)) = some (some 0x33#8, 0x23#8) := by decide +kernel

/-- Vector V106. -/
theorem test_pla_wraps :
    after { board 0x0200#16 [0x68#8] [(0x0100, 0x55#8)] with sp := 0xFF#8 }
      (fun t => (t.a, t.sp, t.stackAnomaly)) = some (0x55#8, 0x00#8, true) := by decide +kernel

/-- Vector V109. -/
theorem test_plp_stores_break :
    after { board 0x0200#16 [0x28#8] [(0x01FF, 0x10#8)] with sp := 0xFE#8 }
      (fun t => (t.p, t.sp)) = some (0x30#8, 0xFF#8) := by decide +kernel

/-- Vector V113. -/
theorem test_clc :
    after { board 0x0200#16 [0x18#8] [] with p := 0xFF#8 }
      (fun t => t.p) = some 0xFE#8 := by decide +kernel

/-- Vector V114. -/
theorem test_sec :
    after (board 0x0200#16 [0x38#8] [])
      (fun t => t.p) = some 0x21#8 := by decide +kernel

/-- Vector V115. -/
theorem test_cli :
    after { board 0x0200#16 [0x58#8] [] with p := 0xFF#8 }
      (fun t => t.p) = some 0xFB#8 := by decide +kernel

/-- Vector V116. -/
theorem test_sei :
    after (board 0x0200#16 [0x78#8] [])
      (fun t => t.p) = some 0x24#8 := by decide +kernel

/-- Vector V117. -/
theorem test_cld :
    after { board 0x0200#16 [0xD8#8] [] with p := 0xFF#8 }
      (fun t => t.p) = some 0xF7#8 := by decide +kernel

/-- Vector V118. -/
theorem test_sed :
    after (board 0x0200#16 [0xF8#8] [])
      (fun t => t.p) = some 0x28#8 := by decide +kernel

/-- Vector V119. -/
theorem test_clv :
    after { board 0x0200#16 [0xB8#8] [] with p := 0xFF#8 }
      (fun t => t.p) = some 0xBF#8 := by decide +kernel

/-- Vector V120. -/
theorem test_jmp_absolute :
    after (board 0x0200#16 [0x4C#8, 0x34#8, 0x12#8] [])
      (fun t => (t.pc, t.cycles)) = some (0x1234#16, 3) := by decide +kernel

/-- Vector V123. -/
theorem test_jmp_indirect_page_wrap :
    after (board 0x0200#16 [0x6C#8, 0xFF#8, 0x12#8] [(0x1200, 0x40#8), (0x12FF, 0x00#8), (0x1300, 0x50#8)])
      (fun t => (t.pc, t.cycles)) = some (0x4000#16, 5) := by decide +kernel

/-- Vector V125. -/
theorem test_jsr_pushes_its_last_byte :
    after (board 0x02FE#16 [0x20#8, 0x00#8, 0x80#8] [])
      (fun t => (t.peek 0x01FF#16, t.peek 0x01FE#16, t.pc)) = some (some 0x03#8, some 0x00#8, 0x8000#16) := by decide +kernel

/-- Vector V128. -/
theorem test_rts_wraps :
    after { board 0x0200#16 [0x60#8] [(0x01FE, 0xFF#8), (0x01FF, 0xFF#8)] with sp := 0xFD#8 }
      (fun t => (t.pc, t.sp)) = some (0x0000#16, 0xFF#8) := by decide +kernel

/-- Vector V141. -/
theorem test_bpl_taken :
    after (board 0x0200#16 [0x10#8, 0x02#8] [])
      (fun t => (t.pc, t.cycles)) = some (0x0204#16, 3) := by decide +kernel

/-- Vector V143. -/
theorem test_bmi_taken :
    after { board 0x0200#16 [0x30#8, 0x02#8] [] with p := 0xA0#8 }
      (fun t => (t.pc, t.cycles)) = some (0x0204#16, 3) := by decide +kernel

/-- Vector V145. -/
theorem test_bvc_taken :
    after (board 0x0200#16 [0x50#8, 0x02#8] [])
      (fun t => (t.pc, t.cycles)) = some (0x0204#16, 3) := by decide +kernel

/-- Vector V147. -/
theorem test_bvs_taken :
    after { board 0x0200#16 [0x70#8, 0x02#8] [] with p := 0x60#8 }
      (fun t => (t.pc, t.cycles)) = some (0x0204#16, 3) := by decide +kernel

/-- Vector V149. -/
theorem test_bcc_taken :
    after (board 0x0200#16 [0x90#8, 0x02#8] [])
      (fun t => (t.pc, t.cycles)) = some (0x0204#16, 3) := by decide +kernel

/-- Vector V151. -/
theorem test_bcs_taken :
    after { board 0x0200#16 [0xB0#8, 0x02#8] [] with p := 0x21#8 }
      (fun t => (t.pc, t.cycles)) = some (0x0204#16, 3) := by decide +kernel

/-- Vector V137. -/
theorem test_bne_backward_over_page :
    after (board 0x0200#16 [0xD0#8, 0x80#8] [])
      (fun t => (t.pc, t.cycles)) = some (0x0182#16, 4) := by decide +kernel

/-- Vector V131. -/
theorem test_bne_not_taken :
    after { board 0x0200#16 [0xD0#8, 0x03#8] [] with p := 0x22#8 }
      (fun t => (t.pc, t.cycles)) = some (0x0202#16, 2) := by decide +kernel

/-- Vector V139. -/
theorem test_beq_taken :
    after { board 0x0200#16 [0xF0#8, 0x02#8] [] with p := 0x22#8 }
      (fun t => (t.pc, t.cycles)) = some (0x0204#16, 3) := by decide +kernel

/-- Vector V155. -/
theorem test_brk_frame_wraps :
    after { board 0x0200#16 [0x00#8] [(0xFFFE, 0x00#8), (0xFFFF, 0x80#8)] with sp := 0x01#8 }
      (fun t => (t.peek 0x01FF#16, t.pc, t.p)) = some (some 0x30#8, 0x8000#16, 0x24#8) := by decide +kernel

/-- Vector V157. -/
theorem test_rti :
    after { board 0x0200#16 [0x40#8] [(0x01FD, 0xC3#8), (0x01FE, 0x34#8), (0x01FF, 0x12#8)] with sp := 0xFC#8 }
      (fun t => (t.pc, t.p, t.sp)) = some (0x1234#16, 0xE3#8, 0xFF#8) := by decide +kernel

/-- Vector V159. -/
theorem test_nop :
    after { board 0x0200#16 [0xEA#8] [] with p := 0xEF#8, a := 0x11#8, x := 0x22#8, y := 0x33#8 }
      (fun t => (t.pc, t.p)) = some (0x0201#16, 0xEF#8) := by decide +kernel

/-- Vector V164. -/
theorem test_undefined_is_no_lax :
    after { board 0x0200#16 [0xA7#8, 0x10#8] [(0x0010, 0x99#8)] with a := 0x01#8, x := 0x02#8 }
      (fun t => (t.a, t.pc, t.cycles)) = some (0x01#8, 0x0202#16, 3) := by decide +kernel

/-- Vector V163. -/
theorem test_undefined_three_bytes :
    after (board 0x0200#16 [0x0C#8, 0x34#8, 0x12#8] [])
      (fun t => (t.pc, t.cycles)) = some (0x0203#16, 4) := by decide +kernel

/-- Vector V167. -/
theorem test_jam_stays :
    after { board 0x0200#16 [0xFF#8] [] with a := 0x11#8, p := 0x63#8 }
      (fun t => (t.pc, t.p, t.cycles)) = some (0x0200#16, 0x63#8, 2) := by decide +kernel

/-- Vector V168. -/
theorem test_jam_blocks_interrupts :
    after (requesting true true (board 0x0200#16 [0xFF#8] [(0xFFFA, 0x00#8), (0xFFFB, 0x90#8)]))
      (fun t => (t.pc, t.world.nmiReq, t.sp)) = some (0x0200#16, true, 0xFF#8) := by decide +kernel

/-- Vector V169. -/
theorem test_irq_serviced :
    after (requesting false true (board 0x0200#16 [0xEA#8] handlers))
      (fun t => (t.pc, t.p, t.world.irqReq)) = some (0xA000#16, 0x24#8, false) := by decide +kernel

/-- Vector V170. -/
theorem test_irq_masked :
    after { requesting false true (board 0x0200#16 [0xEA#8] handlers) with p := 0x24#8 }
      (fun t => (t.pc, t.world.irqReq)) = some (0x0201#16, true) := by decide +kernel

/-- Vector V171. -/
theorem test_cli_lets_irq_in :
    after { requesting false true (board 0x0200#16 [0x58#8] handlers) with p := 0x24#8 }
      (fun t => (t.pc, t.peek 0x01FD#16)) = some (0xA000#16, some 0x20#8) := by decide +kernel

/-- Vector V175. -/
theorem test_nmi_before_irq :
    after (requesting true true (board 0x0200#16 [0xEA#8] handlers))
      (fun t => (t.pc, t.world.nmiReq, t.world.irqReq)) = some (0x9000#16, false, true) := by decide +kernel

/-- Vector V178. -/
theorem test_irq_pushes_break_clear :
    after { requesting false true (board 0x0200#16 [0xEA#8] handlers) with p := 0xFB#8 }
      (fun t => (t.peek 0x01FD#16, t.p)) = some (some 0xEB#8, 0xFF#8) := by decide +kernel

/-- Vector V182. -/
theorem test_nmi_after_brk :
    after (requesting true false (board 0x0200#16 [0x00#8, 0xEA#8] handlers))
      (fun t => (t.peek 0x01FC#16, t.pc, t.cycles)) = some (some 0xA0#8, 0x9000#16, 14) := by decide +kernel

/-! ## Test platform TP2 (section 2.10), reset, the driver -/

/-- Test platform TP2: chip 0 is CFG, chips 1 and 2 are OBS1 and OBS2. -/
def tp2 : Platform where
  params := Params.default
  storages := [
    { size := 32768, cells := [] },
    { size := 8192, cells := [(0, 0xA5#8)] },
    { size := 8192, cells := [(0, 0x5B#8)] },
    { size := 8192, cells := [(0, 0xEA#8), (0x100, 0xEA#8), (0x1FFB, 0xE1#8), (0x1FFF, 0xE0#8)] }]
  subsets := [
    { name := "low", kind := .plain, storage := 0, offset := 0, base := 0x0000, size := 0x8000, startsActive := true },
    { name := "winA", kind := .readonly, storage := 1, offset := 0, base := 0x8000, size := 0x2000, startsActive := true },
    { name := "winB", kind := .plain, storage := 2, offset := 0, base := 0x8000, size := 0x2000, startsActive := false },
    { name := "cfg", kind := .register 0, storage := 4, offset := 0, base := 0xD000, size := 4, startsActive := true },
    { name := "high", kind := .plain, storage := 3, offset := 0, base := 0xE000, size := 0x2000, startsActive := true }]
  stackSubset := 0
  chips := [
    { model := .bankSwitch 1 2, init := .bankSwitch false 0x00#8 0x00#8 false, binds := ["cfg"] },
    { model := .recorder, init := .recorder [], binds := [] },
    { model := .recorder, init := .recorder [], binds := [] }]
  wiring := [(1, 0), (2, 0)]
  eventIds := [⟨1, true⟩]

/-- The default start state on TP2 with `code` at 0200 and CFG's state `d`. -/
def board2 (d : DevState) (code : List Byte) : State :=
  let w := initialWorld tp2
  let cells := (code.zipIdx.map (fun e => (0x0200 + e.2, e.1))).foldl (fun c e => putCell c e.1 e.2) []
  { State.reset with
    sp := 0xFF#8, pc := 0x0200#16, p := 0x20#8, plat := tp2
    world := { w with dev := w.dev.set 0 d, storages := w.storages.set 0 { size := 32768, cells := cells } } }

/-- CFG's state after `initialize`. -/
def cfg0 : DevState := .bankSwitch false 0x00#8 0x00#8 false

/-- Vectors T1 and T12: the write to CFG's bank register switches the window before it returns, and notifies OBS1 and
OBS2 once each. -/
theorem test_bank_switch_is_visible_and_notified :
    after { board2 cfg0 [0x8E#8, 0x00#8, 0xD0#8] with x := 0x01#8 } (fun t => (t.peek 0x8000#16, t.world.dev)) =
      some (some 0x5B#8, [.bankSwitch true 0x01#8 0x00#8 false, .recorder [(0, ⟨1, some 1⟩)], .recorder [(0, ⟨1, some 1⟩)]]) := by
  decide +kernel

/-- Vector T2: a store to the read-only window is discarded. -/
theorem test_store_to_rom_is_discarded :
    after { board2 cfg0 [0x8D#8, 0x00#8, 0x80#8] with a := 0x77#8 } (fun t => t.peek 0x8000#16) = some (some 0xA5#8) := by
  decide +kernel

/-- Vector T4, its second load: a register read has a side effect. -/
theorem test_register_read_counts :
    after (board2 (.bankSwitch false 0x00#8 0x01#8 false) [0xAD#8, 0x01#8, 0xD0#8]) (fun t => (t.a, t.world.dev[0]?)) =
      some (0x01#8, some (.bankSwitch false 0x00#8 0x02#8 false)) := by decide +kernel

/-- Vector T5: INC on a register makes one read and one write. -/
theorem test_inc_of_a_register :
    after (board2 cfg0 [0xEE#8, 0x01#8, 0xD0#8]) (fun t => t.world.dev[0]?) =
      some (some (.bankSwitch false 0x00#8 0x01#8 false)) := by decide +kernel

/-- Vector T6, its first load: the one-shot flag is taken by the read. -/
theorem test_one_shot_is_taken :
    after (board2 (.bankSwitch false 0x00#8 0x00#8 true) [0xAD#8, 0x02#8, 0xD0#8]) (fun t => (t.a, t.world.dev[0]?)) =
      some (0x01#8, some cfg0) := by decide +kernel

/-- Vector T7, its second step: the write handler requests IRQ, the poll of the same step services it. -/
theorem test_request_from_a_handler :
    after { board2 cfg0 [0x8D#8, 0x03#8, 0xD0#8] with a := 0x01#8 } (fun t => (t.pc, t.cycles, t.world.irqReq)) =
      some (0xE000#16, 11, false) := by decide +kernel

/-- The fault that a step ends in. -/
def faultOf (s : State) : Option Fault :=
  match step s with
  | .next _ => none
  | .fault f => some f
  | .refused _ => none

/-- Vectors T10 and T11: an access to a hole faults. -/
theorem test_holes_fault :
    faultOf (board2 cfg0 [0xAD#8, 0x00#8, 0xA0#8]) = some (.noSubset 0xA000#16) ∧
    faultOf (board2 cfg0 [0x8D#8, 0x04#8, 0xD0#8]) = some (.noSubset 0xD004#16) := by decide +kernel

/-- TP2 is a machine that launch accepts; with CFG's subset under another name, `initialize` fails (R102). -/
theorem test_assemble :
    (assemble tp2).isOk = true ∧
    assemble { tp2 with chips := [{ model := .recorder, init := .recorder [], binds := ["absent"] }] } =
      .error (.refusal (.rejectedMemmap "initialize")) := by decide +kernel

/-- R75, R63, R9: launch refuses two active subsets over one address, and a register subset that leaves its storage. -/
theorem test_assemble_refuses :
    assemble { tp2 with subsets := tp2.subsets.map (fun u => { u with startsActive := true }) } =
      .error (.refusal (.rejectedMemmap "overlap")) ∧
    assemble { tp2 with subsets := tp2.subsets.map (fun u => if u.name == "cfg" then { u with storage := 1, offset := 8189 } else u) } =
      .error (.refusal (.rejectedMemmap "subset outside its storage")) := by decide +kernel

/-- The refusal that a step ends in. -/
def refusalOf (s : State) : Option Refusal :=
  match step s with
  | .next _ => none
  | .fault _ => none
  | .refused r => some r

/-- R82: a switch that puts another subset into the stack's range is refused; R93: so is an event that is not declared. -/
theorem test_switch_refused :
    let low := { tp2 with subsets := tp2.subsets.map (fun u => if u.name == "winB" then { u with base := 0x0100 } else u) }
    let s := { board2 cfg0 [0x8E#8, 0x00#8, 0xD0#8] with x := 0x01#8 }
    refusalOf { s with plat := low } = some .inadmissibleConfiguration ∧
    refusalOf { s with plat := { tp2 with eventIds := [] } } = some (.undeclaredEvent ⟨1, some 1⟩) := by decide +kernel

/-- R82: a handler that would take page 1 from the Stack subset and give it back is refused at its first switch; the two
windows change places in one switch (R69). -/
theorem test_switch_refused_inside_a_handler :
    ((runHandler tp2 (ports tp2 8) 0 (.switch [(0, false)] (.switch [(0, true)] (.ret ()))) (initialWorld tp2)).isOk,
      (runHandler tp2 (ports tp2 8) 0 (.switch [(1, false), (2, true)] (.ret ())) (initialWorld tp2)).isOk) =
      (false, true) := by decide +kernel

/-- R97: nesting to depth 20, beyond the depth that is looked at first, has its answer. -/
theorem test_deep_nesting_is_followed :
    nested (fun depth => if depth < 20 then .error (.refusal .handlerNesting) else .ok 0x5A#8) = .ok 0x5A#8 := by
  refine (nested_ok_iff (fun depth h => ?_) _).mpr ⟨20, rfl⟩
  by_cases hd : depth < 20
  · rw [if_pos hd] at h
    cases h
  · rw [if_neg hd, if_neg (by omega)]

/-- R34, R35: the page penalty of the bound template and the note of a jam do not outlive the step. -/
theorem test_nothing_of_the_step_is_left :
    after { board 0x0200#16 [0xBD#8, 0xFF#8, 0x12#8] [] with x := 0x01#8 } (fun t => (t.cycles, t.pagePenalty)) = some (5, false) ∧
    after (board 0x0200#16 [0xFF#8] []) (fun t => (t.cycles, t.jamNow)) = some (2, false) := by decide +kernel

/-- R121, R122: a step with a prefixed instruction reads its four bytes and moves `PC` past them. -/
theorem test_step_with_a_prefix :
    after { board 0x0200#16 [0xDD#8, 0x00#8, 0x34#8, 0x12#8] [(0x1234, 0x80#8)] with
        plat := { Platform.tp1 with params := twoLevels } }
      (fun t => (t.a, t.pc, t.cycles)) = some (0x80#8, 0x0204#16, 6) := by decide +kernel

/-- R35: a register that answers 0xFF jams the CPU that fetches there; a hole does not. -/
theorem test_jammed_in_a_register :
    let s := { board2 (.bankSwitch false 0xFF#8 0x00#8 false) [] with pc := 0xD000#16 }
    jammed s = true ∧ after s (fun t => (t.pc, t.cycles)) = some (0xD000#16, 2) ∧
      jammed { s with pc := 0xD001#16 } = false ∧ jammed { s with pc := 0xA000#16 } = false := by decide +kernel

/-- The state in which a run ends. -/
def endOf (n : Nat) (s : State) : Option State :=
  match run n s with
  | .next t => some t
  | .fault _ => none
  | .refused _ => none

/-- R416: a run ends at the agreed count of steps, or at the jam before it; a jam that lets interrupts in ends no run. -/
theorem test_run_ends :
    (endOf 2 (board 0x0200#16 [0xEA#8, 0xEA#8, 0xEA#8] [])).map (fun t => (t.pc, t.clk)) = some (0x0202#16, 4) ∧
    (endOf 5 (board 0x0200#16 [0xEA#8, 0xFF#8] [])).map (fun t => (t.pc, t.clk)) = some (0x0201#16, 2) ∧
    (endOf 2 { board 0x0200#16 [0xFF#8] [] with
      plat := { Platform.tp1 with params := { Params.default with jamBlocksInterrupts := false } } }).map
        (fun t => (t.pc, t.clk)) = some (0x0200#16, 4) := by decide +kernel

/-- R377: what the diagnostics port shows of the chips of TP2. -/
theorem test_chips_info :
    chipsInfo (board2 (.bankSwitch true 0x01#8 0x05#8 false) []) =
      .group "Chips" [
        .group "0" [
          .group "dev" [.value "bank" 1, .value "last" 1, .value "rdcount" 5, .value "oneshot" 0],
          .group "observers" [.value "observer" 1, .value "observer" 2]],
        .group "1" [.group "dev" [], .group "observers" []],
        .group "2" [.group "dev" [], .group "observers" []]] := by rfl

/-- Vector V184: reset, for one draw of the unspecified values. -/
theorem test_reset :
    (resetMachine { requesting true true (board 0x0200#16 [] [(0xFFFD, 0x80#8)]) with stackAnomaly := true, clk := 12345 }
        ⟨0x11#8, 0x22#8, 0x33#8, 0x44#8, 0xDB#8⟩).toOption.map
      (fun t => (t.pc, t.p, t.world.nmiReq, t.world.irqReq, t.stackAnomaly, t.clk)) =
      some (0x8000#16, 0xFF#8, false, false, false, 0) := by decide +kernel

/-- A loop turn whose chips all answer true leaves what the step leaves (R103; section 2.10: `simulate` does nothing). -/
theorem test_loop_is_step_on_tp2 :
    (match loopOnce (board2 cfg0 [0xEA#8]) with | .next t => some t | _ => none) = after (board2 cfg0 [0xEA#8]) id := by
  decide +kernel

/-! ## Every statement with hypotheses has a state and operands that meet them -/

/-- On TP1 every address is memory that a store changes. -/
theorem tp1_writable (s : State) (hp : s.plat = Platform.tp1) (ha : s.world.active = [true]) (l : List Host.Cell)
    (hs : s.world.storages = [{ size := 65536, cells := l }]) (a : Word) :
    Writable s a ∧ s.locate a = some (0, a.toNat) := by
  have h : resolve s.plat s.world a = .ok ⟨"ram", .plain, 0, 0, 0, 65536, true⟩ := by
    rw [resolve_ok_iff, hp]
    have := a.isLt
    simp [candidates, Platform.tp1, ha, answers]
    omega
  refine ⟨⟨_, h, rfl, ?_⟩, ?_⟩
  · have := a.isLt
    simp [storageByte, hs, viewIndex]
    omega
  · simp [State.locate, locate, h, viewIndex]

theorem board_writable (pc : Word) (code : List Byte) (mem : List Host.Cell) (a : Word) : Writable (board pc code mem) a :=
  (tp1_writable _ rfl rfl _ rfl a).1

theorem ordinary_of_writable (s : State) (a : Word) (h : Writable s a) : Ordinary s a := by
  obtain ⟨u, h1, h2, h3⟩ := h
  simp [Ordinary, State.peek, peekByte, h1, h2, h3]

theorem stackReady_of_tp1 (s : State) (hp : s.plat = Platform.tp1) (ha : s.world.active = [true]) (l : List Host.Cell)
    (hs : s.world.storages = [{ size := 65536, cells := l }]) : StackReady s := by
  refine ⟨fun sp => (tp1_writable s hp ha l hs _).1, fun sp sp' h => ?_⟩
  rw [(tp1_writable s hp ha l hs _).2, (tp1_writable s hp ha l hs _).2] at h
  simp only [Option.some.injEq, Prod.mk.injEq, true_and, State.stackAddr, hp, Platform.tp1, Params.default, zext16] at h
  have := sp.isLt
  have := sp'.isLt
  apply BitVec.eq_of_toNat_eq
  simp at h
  omega

/-- The stack range is ready at every stack pointer, those where a push or a pull wraps among them. -/
theorem test_witness_stack_ready (sp : Byte) : StackReady { board 0x0200#16 [] [] with sp := sp } :=
  stackReady_of_tp1 _ rfl rfl _ rfl

theorem test_witness_all_ordinary : AllOrdinary (board 0x0200#16 [0xFF#8] handlers) ∧
    (board 0x0200#16 [0xFF#8] handlers).plat.params.decimalArith = .nmos6502 :=
  ⟨fun a => ordinary_of_writable _ a (board_writable _ _ _ a), rfl⟩

/-! ### Encoding -/

theorem test_witness_well_formed : WellFormed (.lda (.mem (.izy 0xFF#8))) = true ∧ WellFormed (.undef 0xFC#8 [0xFF#8, 0x00#8]) = true := by
  decide
theorem test_witness_decodes : decode [0x6C#8, 0xFF#8, 0xFF#8, 0x00#8] = .ok (.jmpInd 0xFFFF#16, [0x00#8]) := by decide
/-- The encodings of a read-class and a store-class instruction, for the table of base cycle counts. -/
theorem test_witness_encoded : encode (.lda (.mem (.izy 0xFF#8))) = [0xB1#8, 0xFF#8] ∧
    WellFormed (.sta (.abx 0xFFFF#16)) = true ∧ encode (.sta (.abx 0xFFFF#16)) = [0x9D#8, 0xFF#8, 0xFF#8] := by decide
/-- With other parameters: a member of `JAMSET`, a populated entry, and an unpopulated one. -/
theorem test_witness_other_parameters : 0xF2#8 ∈ siliconParams.jamSet ∧ 0xFF#8 ∉ siliconParams.jamSet ∧
    0xEA#8 ∉ siliconParams.jamSet ∧ siliconParams.opTable[(0xEA#8 : Byte).toNat]? = some (some ⟨.nop, 1, 2, false⟩) ∧
    siliconParams.opTable[(0xFF#8 : Byte).toNat]? = some none := by decide
/-- With two levels: a prefix that is no jam, and a populated entry of its table with its length. -/
theorem test_witness_prefix : siliconParams.nLevels = 1 ∧ 2 ≤ twoLevels.nLevels ∧ 0xDD#8 ∉ twoLevels.jamSet ∧
    (match twoLevels.prefixes.find? (fun y => y.byte == 0xDD#8) with
      | some x => x.opTable[(0x00#8 : Byte).toNat]? == some (some ⟨.lda (.mem (.abs 0x0000#16)), 4, 6, false⟩)
      | none => false) = true ∧ 4 = [0x34#8, 0x12#8].length + 2 := by decide
theorem test_witness_undefined_or_not : Params.default.isUndef 0xFC#8 = true ∧ Params.default.isUndef 0xFF#8 = false := by decide

/-! ### Memory and the fabric -/

/-- A state of TP2 in which no subset is active: nothing answers (R74). -/
def dark : State := { board2 cfg0 [] with world := { initialWorld tp2 with active := [false, false, false, false, false] } }

/-- A state of TP2 in which both windows are active: two subsets answer at 8000 (R75). -/
def doubled : State := { board2 cfg0 [] with world := { initialWorld tp2 with active := [true, true, true, true, true] } }

theorem test_witness_hole (a : Word) : ∀ j u, ¬ Contains dark.plat dark.world a j u := by
  rintro j u ⟨-, h, -⟩
  rcases j with _ | _ | _ | _ | _ | j <;> simp [dark] at h

/-- The last byte of the register subset is answered by that subset alone. -/
theorem test_witness_one_subset : Contains tp2 (board2 cfg0 []).world 0xD003#16 3 ⟨"cfg", .register 0, 4, 0, 0xD000, 4, true⟩ ∧
    ∀ k v, Contains tp2 (board2 cfg0 []).world 0xD003#16 k v → k = 3 := by
  refine ⟨by decide, ?_⟩
  rintro k v ⟨h, h1, h2, h3⟩
  rcases k with _ | _ | _ | _ | _ | k
  all_goals first
    | rfl
    | (simp only [tp2, List.getElem?_cons_zero, List.getElem?_cons_succ, Option.some.injEq] at h
       subst h
       revert h2 h3
       decide)
    | (exact absurd h (by simp [tp2]))

theorem test_witness_two_subsets :
    Contains doubled.plat doubled.world 0x9FFF#16 1 ⟨"winA", .readonly, 1, 0, 0x8000, 0x2000, true⟩ ∧
    Contains doubled.plat doubled.world 0x9FFF#16 2 ⟨"winB", .plain, 2, 0, 0x8000, 0x2000, false⟩ ∧ (1 : Nat) ≠ 2 := by decide

/-- Ordinary memory of both kinds at the ends of their subsets. -/
theorem test_witness_plain_reads :
    (∃ u, resolve tp2 (board2 cfg0 []).world 0x7FFF#16 = .ok u ∧ u.kind = .plain ∧
      storageByte (board2 cfg0 []).world u.storage (u.offset + (0x7FFF - u.base)) = some 0x00#8) ∧
    (∃ u, resolve tp2 (board2 cfg0 []).world 0x8000#16 = .ok u ∧ u.kind = .readonly ∧
      storageByte (board2 cfg0 []).world u.storage (u.offset + (0x8000 - u.base)) = some 0xA5#8) :=
  ⟨⟨_, rfl, rfl, by decide +kernel⟩, ⟨_, rfl, rfl, by decide +kernel⟩⟩
theorem test_witness_writable : Writable (board2 cfg0 []) 0x7FFF#16 ∧ Writable (board2 cfg0 []) 0xE000#16 :=
  ⟨⟨_, rfl, rfl, by decide +kernel⟩, ⟨_, rfl, rfl, by decide +kernel⟩⟩
theorem test_witness_discards : Discards (board2 cfg0 []) 0x8000#16 ∧ Discards (board2 cfg0 []) 0x9FFF#16 :=
  ⟨⟨_, rfl, rfl, by decide +kernel⟩, ⟨_, rfl, rfl, by decide +kernel⟩⟩
theorem test_witness_cfg_registers : RegisterAt (board2 cfg0 []) 0xD000#16 0 0 ∧ RegisterAt (board2 cfg0 []) 0xD002#16 0 2 ∧
    RegisterAt (board2 cfg0 []) 0xD003#16 0 3 ∧ chipModel tp2 0 = .bankSwitch 1 2 ∧
    (board2 cfg0 []).world.dev[0]? = some cfg0 :=
  ⟨⟨_, rfl, rfl, rfl⟩, ⟨_, rfl, rfl, rfl⟩, ⟨_, rfl, rfl, rfl⟩, rfl, rfl⟩
/-- The world of TP2 once CFG has taken the byte 0xFF, and the world once the observers have been told. -/
def switched : World :=
  { (board2 cfg0 []).world with
    dev := (board2 cfg0 []).world.dev.set 0 (.bankSwitch true 0xFF#8 0x00#8 false)
    active := ((board2 cfg0 []).world.active.set 1 false).set 2 true }
def switchedTold : World :=
  { switched with
    dev := [.bankSwitch true 0xFF#8 0x00#8 false, .recorder [(0, ⟨1, some 255⟩)], .recorder [(0, ⟨1, some 255⟩)]] }
/-- The notification of a bank switch to 0xFF is declared and answered, and the configuration is admitted. -/
theorem test_witness_bank_switch_notifies : declared tp2 ⟨1, some (0xFF#8 : Byte).toNat⟩ = true ∧
    (match notifyAll tp2 (ports tp2 7) 0 ⟨1, some 255⟩ switched with
      | .ok w => some w
      | .error _ => none) = some switchedTold ∧
    admitted tp2 switched = true ∧
    (∀ o ∈ (board2 cfg0 []).world.observers.getD 0 [], chipModel tp2 o = .recorder) := by decide +kernel
/-- The first byte of the window, after the switch: `winB` alone has it. -/
theorem test_witness_window : Contains tp2 switched 0x8000#16 2 ⟨"winB", .plain, 2, 0, 0x8000, 0x2000, false⟩ ∧
    (∀ k v, Contains tp2 switched 0x8000#16 k v → k = 2) ∧
    storageByte (board2 cfg0 []).world 2 (0 + ((0x8000#16 : Word).toNat - 0x8000)) = some 0x5B#8 := by
  refine ⟨by decide, ?_, by decide +kernel⟩
  rintro k v ⟨h, h1, h2, h3⟩
  rcases k with _ | _ | _ | _ | _ | k
  all_goals first
    | rfl
    | (exact absurd h1 (by decide))
    | (simp only [tp2, List.getElem?_cons_zero, List.getElem?_cons_succ, Option.some.injEq] at h
       subst h
       revert h2 h3
       decide)
    | (exact absurd h (by simp [tp2]))
/-- A switch that the platform does not admit: `winB` lies in the stack's range. -/
theorem test_witness_switch_not_admitted :
    let low := { tp2 with subsets := tp2.subsets.map (fun u => if u.name == "winB" then { u with base := 0x0100 } else u) }
    switched.active ≠ (board2 cfg0 []).world.active ∧ admitted low switched = false ∧ chipModel low 0 = .bankSwitch 1 2 ∧
      declared low ⟨1, some (0xFF#8 : Byte).toNat⟩ = true := by decide +kernel
/-- Accesses with no nesting followed: a register read and a register write of CFG that notify nobody, and a hole. -/
theorem test_witness_depth : (routedLoad tp2 (ports tp2 0) 0xD001#16 (board2 cfg0 []).world).isOk = true ∧
    (routedStore tp2 (ports tp2 0) 0xD001#16 0x5A#8 (board2 cfg0 []).world).isOk = true ∧
    routedStore tp2 (ports tp2 0) 0xA000#16 0x5A#8 (board2 cfg0 []).world = .error (.fault (.noSubset 0xA000#16)) := by
  decide +kernel
theorem test_witness_recording_observers : (board2 cfg0 []).world.observers[0]? = some [1, 2] ∧ [1, 2].Nodup ∧
    (∀ o ∈ [1, 2], chipModel tp2 o = .recorder ∧ ∃ trace, (board2 cfg0 []).world.dev[o]? = some (.recorder trace)) := by
  refine ⟨rfl, by decide, fun o h => ?_⟩
  rcases List.mem_pair.mp h with rfl | rfl
  · exact ⟨rfl, [], rfl⟩
  · exact ⟨rfl, [], rfl⟩
theorem test_witness_observer_lists : (0 : Nat) ∉ [1, 2] ∧ (2 : Nat) ∈ [1, 2] ∧ (1 : Nat) ≠ 0 := by decide
/-- Accesses that run handlers, an accessor that reads memory, and a fetch, all answered. -/
theorem test_witness_accesses : (memRead (board2 cfg0 []) 0xD001#16).isOk = true ∧
    (memWrite (board2 cfg0 []) 0xD000#16 0x01#8).isOk = true ∧ (effAddr (board2 cfg0 []) (.izy 0xFF#8)).isOk = true ∧
    (match fetch (board2 cfg0 [0xAD#8, 0x01#8, 0xD0#8]) with | .ok _ => true | .error _ => false) = true := by decide +kernel

/-! ### The stack and the operands -/

theorem test_witness_stack_writable : Writable (board 0x0200#16 [] []) ((board 0x0200#16 [] []).stackAddr 0x00#8) ∧
    Writable (board 0x0200#16 [] []) ((board 0x0200#16 [] []).stackAddr 0xFF#8) := ⟨board_writable _ _ _ _, board_writable _ _ _ _⟩
theorem test_witness_push : (memWrite (board 0x0200#16 [] []) 0x01FF#16 0x42#8).isOk = true := by decide +kernel
/-- The bytes that a pull, RTS and RTI find, with the stack pointer wrapping from 0xFF. -/
theorem test_witness_pulled_bytes :
    let s := { board 0x0200#16 [] [(0x0100, 0xC3#8), (0x0101, 0x34#8), (0x0102, 0x12#8)] with sp := 0xFF#8 }
    s.peek (s.stackAddr (s.sp + 1#8)) = some 0xC3#8 ∧ s.peek (s.stackAddr (s.sp + 2#8)) = some 0x34#8 ∧
      s.peek (s.stackAddr (s.sp + 3#8)) = some 0x12#8 := by decide +kernel
theorem test_witness_assemble : (assemble tp2).isOk = true := by decide +kernel
/-- The pointers of (FF,X) and (FF),Y wrap in page 0. -/
theorem test_witness_pointers :
    let s := board 0x0200#16 [] [(0x00FF, 0x34#8)]
    s.peek (BitVec.ofNat 16 ((0xFF + s.x.toNat) % 256)) = some 0x34#8 ∧
      s.peek (BitVec.ofNat 16 ((0xFF + s.x.toNat + 1) % 256)) = some 0x00#8 ∧ s.peek (BitVec.ofNat 16 0xFF) = some 0x34#8 ∧
      s.peek (BitVec.ofNat 16 ((0xFF + 1) % 256)) = some 0x00#8 := by decide +kernel
/-- An effective address that crosses a page; the operand there can be read; so can an immediate. -/
theorem test_witness_operand_read :
    let s := { board 0x0200#16 [] [(0x1100, 0x80#8)] with x := 0x01#8, pagePenalty := true }
    effAddr s (.abx 0x10FF#16) = .ok (⟨0x1100#16, true⟩, s) ∧
      loadOperand s (.mem (.abx 0x10FF#16)) = .ok (0x80#8, s.addCycles 1) ∧ loadOperand s (.imm 0xFF#8) = .ok (0xFF#8, s) := by
  decide +kernel
theorem test_witness_ordinary_operand : ReadsOrdinary (board 0x0200#16 [] []) (.mem (.abs 0xFFFF#16)) ∧
    ReadsOrdinary (board 0x0200#16 [] []) (.imm 0x00#8) :=
  ⟨⟨_, rfl, ordinary_of_writable _ _ (board_writable _ _ _ _)⟩, trivial⟩

/-! ### Instructions -/

/-- The addresses of a store to plain memory, to read-only memory and to a register, and the stores themselves. -/
theorem test_witness_stores :
    effAddr (board2 cfg0 []) (.abs 0x7FFF#16) = .ok (⟨0x7FFF#16, false⟩, board2 cfg0 []) ∧
    effAddr (board2 cfg0 []) (.abs 0x8000#16) = .ok (⟨0x8000#16, false⟩, board2 cfg0 []) ∧
    (memWrite (board2 cfg0 []) 0xD001#16 0x5A#8).isOk = true := ⟨rfl, rfl, by decide +kernel⟩
/-- Binary mode with both carries, decimal mode with valid digits, and the platform that refuses decimal mode. -/
theorem test_witness_arithmetic :
    (board 0x0200#16 [] []).flag .d = false ∧
    { board 0x0200#16 [] [] with p := 0x29#8 }.flag .d = true ∧
    (board 0x0200#16 [] []).plat.params.decimalArith = .nmos6502 ∧ ValidBcd 0x99#8 ∧ ValidBcd 0x00#8 ∧
    { board 0x0200#16 [] [] with plat := { Platform.tp1 with params := { Params.default with decimalArith := .refuse } } }.plat.params.decimalArith =
      .refuse := by decide +kernel
/-- A read-modify-write on read-only memory and on a register: what is read, and the write that answers. -/
theorem test_witness_read_modify_write :
    (board2 cfg0 []).peek 0x8000#16 = some 0xA5#8 ∧ Discards (board2 cfg0 []) 0x8000#16 ∧
    (board2 cfg0 []).peek 0x7FFF#16 = some 0x00#8 ∧ Writable (board2 cfg0 []) 0x7FFF#16 ∧
    (match memRead (board2 cfg0 []) 0xD001#16 with
      | .ok (v, s2) => v == 0x00#8 && (memWrite { s2 with p := 0x20#8 } 0xD001#16 0x01#8).isOk
      | .error _ => false) = true :=
  ⟨by decide +kernel, test_witness_discards.1, by decide +kernel, test_witness_writable.1, by decide +kernel⟩
/-- The pointer of JMP ($12FF) in its page. -/
theorem test_witness_jump_pointer :
    let s := board 0x0200#16 [] [(0x1200, 0x40#8)]
    s.peek 0x12FF#16 = some 0x00#8 ∧
      s.peek (BitVec.ofNat 16 (0x12FF / 256 * 256 + (0x12FF + 1) % 256)) = some 0x40#8 := by decide +kernel
/-- The vectors that an entry reads are ordinary memory, for BRK, IRQ and NMI. -/
theorem test_witness_vectors : Ordinary (board 0x0200#16 [] []) 0xFFFE#16 ∧ Ordinary (board 0x0200#16 [] []) 0xFFFF#16 ∧
    Ordinary (board 0x0200#16 [] []) (lineVector Params.default .nmi) ∧ Ordinary (board 0x0200#16 [] []) (lineVector Params.default .nmi + 1#16) :=
  ⟨ordinary_of_writable _ _ (board_writable _ _ _ _), ordinary_of_writable _ _ (board_writable _ _ _ _),
    ordinary_of_writable _ _ (board_writable _ _ _ _), ordinary_of_writable _ _ (board_writable _ _ _ _)⟩
theorem test_witness_jam : (board 0xFFFF#16 [0xFF#8] []).peek 0xFFFF#16 = some 0xFF#8 ∧
    0xFF#8 ∈ (board 0xFFFF#16 [0xFF#8] []).plat.params.jamSet ∧
    (board 0xFFFF#16 [0xFF#8] []).plat.params.jamBlocksInterrupts = true := by decide +kernel
/-- A jam byte that a register answers: CFG's `last`. -/
theorem test_witness_jam_in_a_register :
    (match memRead (board2 (.bankSwitch false 0xFF#8 0x00#8 false) []) 0xD000#16 with
      | .ok (op, _) => tp2.params.jamSet.contains op && tp2.params.jamBlocksInterrupts
      | .error _ => false) = true := by decide +kernel
/-- A run that goes on at its start and ends at a jam one turn later, before its count; and one whose first turn faults. -/
theorem test_witness_run :
    (¬ Jammed (board 0x0200#16 [0xEA#8, 0xFF#8] []) ∧
      (match loopOnce (board 0x0200#16 [0xEA#8, 0xFF#8] []) with
        | .next t => jammed t && t.plat.params.jamBlocksInterrupts
        | .fault _ => false
        | .refused _ => false) = true) ∧
    (¬ Jammed dark ∧ ∀ t, loopOnce dark ≠ .next t) := by
  refine ⟨by decide +kernel, by decide +kernel, fun t h => ?_⟩
  obtain ⟨s1, h1, -⟩ := (loopOnce_next_iff _ _).mp h
  have hf : faultOf dark = some (.noSubset 0x0200#16) := by decide +kernel
  rw [faultOf, h1] at hf
  cases hf

/-! ### The step, the interrupts, reset -/

/-- An instruction whose bytes lie across the end of the address space. -/
theorem test_witness_decoded_at_pc :
    let s := board 0xFFFE#16 [0xAD#8, 0x34#8] [(0, 0x12#8)]
    decodeWith s.plat.params [0xAD#8, 0x34#8, 0x12#8] = .ok (.lda (.mem (.abs 0x1234#16)), []) ∧
      (templateOf s.plat.params [0xAD#8, 0x34#8, 0x12#8]).length = 3 ∧
      ∀ k, k < 3 → s.peek (s.pc + BitVec.ofNat 16 k) = [0xAD#8, 0x34#8, 0x12#8][k]? := by decide +kernel
/-- The four cases of the poll. -/
theorem test_witness_poll :
    let s := board 0x0200#16 [] []
    s.plat.params.intTime = .always ∧ (requesting true true s).world.nmiReq = true ∧
      ((requesting false true s).world.nmiReq = false ∧ (requesting false true s).world.irqReq = true ∧
        (requesting false true s).flag .i = false) ∧
      (requesting false true { s with p := 0x24#8 }).flag .i = true ∧ s.world.nmiReq = false ∧ s.world.irqReq = false ∧
      Line.nmi ≠ Line.irq := by decide +kernel
theorem test_witness_reset_vector : (board 0x0200#16 [] [(0xFFFD, 0x80#8)]).peek 0xFFFC#16 = some 0x00#8 ∧
    (board 0x0200#16 [] [(0xFFFD, 0x80#8)]).peek 0xFFFD#16 = some 0x80#8 := by decide +kernel
theorem test_witness_invariant_and_step : Inv (board 0x0200#16 [0xEA#8] []) ∧
    (after (board 0x0200#16 [0xEA#8] []) id).isSome = true :=
  ⟨⟨by decide +kernel, by decide +kernel, by decide +kernel, by decide +kernel, by decide +kernel⟩, by decide +kernel⟩
theorem test_witness_cycles_of_every_template (bytes : List Byte) :
    2 ≤ (templateOf (board 0x0200#16 [] []).plat.params bytes).cycles := by
  have h : ∀ op, 2 ≤ (optable Params.default op).cycles := by decide +kernel
  show 2 ≤ (templateOf Params.default bytes).cycles
  simp only [templateOf, prefixOf_default]
  exact h _
/-- A step that faults where no register subset is active. -/
theorem test_witness_faulting_step : faultOf dark = some (.noSubset 0x0200#16) ∧
    ∀ (j : SubsetId) (u : Subset) (c : ChipId), dark.plat.subsets[j]? = some u → dark.world.active[j]? = some true →
      u.kind ≠ .register c := by
  refine ⟨by decide +kernel, fun j u c _ h => ?_⟩
  rcases j with _ | _ | _ | _ | _ | j <;> simp [dark] at h

end Sys2Proof.Tests
end

section
/-! PROOFS. What every operation of a step keeps: one proof rule for a property of states and a property of the reasons to
stop, followed once through the operand accesses, the stack, the exceptions, `exec` and the step (R130). -/

namespace Sys2Proof.Machine

/-- A result that, where there is one, satisfies `Q`, and otherwise stops for a reason that satisfies `E`. -/
def Meets {α : Type} (r : Res α) (Q : α → Prop) (E : Stop → Prop) : Prop :=
  match r with
  | .ok x => Q x
  | .error e => E e

/-- The same of the outcome of an instruction or a step. -/
def Ends (o : Out) (I : State → Prop) (E : Stop → Prop) : Prop :=
  match o with
  | .next s => I s
  | .fault f => E (.fault f)
  | .refused r => E (.refusal r)

theorem Meets.bind {α β : Type} {x : Res α} {f : α → Res β} {Q : α → Prop} {R : β → Prop} {E : Stop → Prop}
    (hx : Meets x Q E) (hf : ∀ a, Q a → Meets (f a) R E) : Meets (x >>= f) R E := by
  cases x with
  | ok a => exact hf a hx
  | error e => exact hx

theorem Meets.of_ok {α : Type} {r : Res α} {Q : α → Prop} {E : Stop → Prop} (h : Meets r Q E) {x : α} (hr : r = .ok x) :
    Q x := by
  subst hr; exact h

theorem Meets.exists_ok {α : Type} {r : Res α} {Q : α → Prop} (h : Meets r Q fun _ => False) : ∃ x, r = .ok x ∧ Q x := by
  cases r with
  | ok x => exact ⟨x, rfl, h⟩
  | error e => exact h.elim

theorem Ends.of_meets {r : Res State} {I : State → Prop} {E : Stop → Prop} (h : Meets r I E) : Ends (outcome r) I E := by
  rcases r with (f | r) | s <;> exact h

theorem Ends.of_next {o : Out} {I : State → Prop} {E : Stop → Prop} (h : Ends o I E) {t : State} (ho : o = .next t) :
    I t := by
  subst ho; exact h

theorem Ends.of_fault {o : Out} {I : State → Prop} {E : Stop → Prop} (h : Ends o I E) {f : Fault} (ho : o = .fault f) :
    E (.fault f) := by
  subst ho; exact h

theorem Ends.exists_next {o : Out} {I : State → Prop} (h : Ends o I fun _ => False) : ∃ t, o = .next t ∧ I t := by
  cases o with
  | next t => exact ⟨t, rfl, h⟩
  | fault f => exact h.elim
  | refused r => exact h.elim

/-- From `s` to `t` the CPU alone worked: the world, the platform and the clock stay, and no cycle is taken back. -/
structure CpuOnly (s t : State) : Prop where
  world : t.world = s.world
  plat : t.plat = s.plat
  clk : t.clk = s.clk
  cycles : s.cycles ≤ t.cycles

/-- A property of states that the CPU's own work and the primitive operations of an instruction keep: where one of them
stops, it stops for a reason that satisfies `E`. -/
structure OpsKeep (I : State → Prop) (E : Stop → Prop) : Prop where
  cpu : ∀ {s t}, I s → CpuOnly s t → I t
  read : ∀ s a, I s → Meets (memRead s a) (fun r => I r.2) E
  write : ∀ s a v, I s → Meets (memWrite s a v) I E
  request : ∀ s l b, I s → I (s.setWorld (s.world.setRequest l b))
  decimal : ∀ s, I s → s.plat.params.decimalArith = .refuse → E (.refusal .decimalMode)

section
variable {I : State → Prop} {E : Stop → Prop}

/-! ## Memory and the stack -/

theorem OpsKeep.readPair (hI : OpsKeep I E) (s : State) (aLo aHi : Word) (hs : I s) :
    Meets (memReadPair s aLo aHi) (fun r => I r.2) E :=
  (hI.read s aLo hs).bind fun r hr => (hI.read r.2 aHi hr).bind fun _ hr' => hr'

theorem OpsKeep.values (hI : OpsKeep I E) (n : Nat) (s : State) (a : Word) (hs : I s) :
    Meets (memValues s a n) (fun r => I r.2) E := by
  induction n generalizing s a with
  | zero => exact hs
  | succ n ih => exact (hI.read s a hs).bind fun r hr => (ih r.2 (a + 1#16) hr).bind fun _ hr' => hr'

theorem OpsKeep.push8 (hI : OpsKeep I E) (s : State) (v : Byte) (hs : I s) : Meets (push8 s v) I E :=
  (hI.write s _ v hs).bind fun _ ht => hI.cpu ht ⟨rfl, rfl, rfl, le_rfl⟩

theorem OpsKeep.pull8 (hI : OpsKeep I E) (s : State) (hs : I s) : Meets (pull8 s) (fun r => I r.2) E :=
  hI.read _ _ (hI.cpu hs ⟨rfl, rfl, rfl, le_rfl⟩)

theorem OpsKeep.push16 (hI : OpsKeep I E) (s : State) (x : Word) (hs : I s) : Meets (push16 s x) I E :=
  (hI.push8 s _ hs).bind fun t ht => hI.push8 t _ ht

theorem OpsKeep.pull16 (hI : OpsKeep I E) (s : State) (hs : I s) : Meets (pull16 s) (fun r => I r.2) E :=
  (hI.pull8 s hs).bind fun r hr => (hI.pull8 r.2 hr).bind fun _ hr' => hr'

/-! ## Exceptions -/

theorem OpsKeep.enterException (hI : OpsKeep I E) (s : State) (ret : Word) (status : Byte) (setI : Bool) (vector : Word)
    (hs : I s) : Meets (enterException s ret status setI vector) I E := by
  refine (hI.push16 s ret hs).bind fun s1 h1 => (hI.push8 s1 status h1).bind fun s2 h2 => ?_
  have h3 : I (if setI then s2.setFlag .i true else s2) := by
    split
    · exact hI.cpu h2 ⟨rfl, rfl, rfl, le_rfl⟩
    · exact h2
  exact (hI.readPair _ vector _ h3).bind fun _ h4 => hI.cpu h4 ⟨rfl, rfl, rfl, le_rfl⟩

theorem OpsKeep.returnFromException (hI : OpsKeep I E) (s : State) (hs : I s) : Meets (returnFromException s) I E := by
  refine (hI.pull8 s hs).bind fun r hr => ?_
  have h1 : I (r.2.loadStatus r.1) := hI.cpu hr ⟨rfl, rfl, rfl, le_rfl⟩
  exact (hI.pull16 _ h1).bind fun _ ht => hI.cpu ht ⟨rfl, rfl, rfl, le_rfl⟩

theorem OpsKeep.service (hI : OpsKeep I E) (s : State) (l : Line) (hs : I s) : Meets (service s l) I E :=
  (hI.enterException s _ _ _ _ hs).bind fun t ht =>
    hI.cpu (hI.request t l false ht) ⟨rfl, rfl, rfl, Nat.le_add_right _ _⟩

theorem OpsKeep.pollInterrupts (hI : OpsKeep I E) (s : State) (hs : I s) : Meets (pollInterrupts s) I E := by
  unfold Machine.pollInterrupts
  split
  · exact hI.service s .nmi hs
  · split
    · exact hI.service s .irq hs
    · exact hs

/-! ## Operands -/

theorem OpsKeep.effAddr (hI : OpsKeep I E) (s : State) (m : MemOperand) (hs : I s) :
    Meets (effAddr s m) (fun r => I r.2) E := by
  cases m with
  | izx a => exact (hI.readPair s _ _ hs).bind fun _ hr => hr
  | izy a => exact (hI.readPair s _ _ hs).bind fun _ hr => hr
  | zp | zpx | zpy | abs | abx | aby => exact hs

theorem OpsKeep.loadMem (hI : OpsKeep I E) (s : State) (m : MemOperand) (hs : I s) :
    Meets (loadMem s m) (fun r => I r.2) E := by
  refine (hI.effAddr s m hs).bind fun r hr => hI.read _ _ ?_
  split
  · exact hI.cpu hr ⟨rfl, rfl, rfl, Nat.le_add_right _ _⟩
  · exact hr

theorem OpsKeep.loadOperand (hI : OpsKeep I E) (s : State) (o : Operand) (hs : I s) :
    Meets (loadOperand s o) (fun r => I r.2) E := by
  cases o with
  | imm v => exact hs
  | mem m => exact hI.loadMem s m hs

theorem OpsKeep.storeOperand (hI : OpsKeep I E) (s : State) (m : MemOperand) (v : Byte) (hs : I s) :
    Meets (storeOperand s m v) I E :=
  (hI.effAddr s m hs).bind fun r hr => hI.write r.2 _ v hr

theorem OpsKeep.modifyMem (hI : OpsKeep I E) (s : State) (m : MemOperand) (f : Byte → Byte → Byte × Byte) (hs : I s) :
    Meets (modifyMem s m f) I E :=
  (hI.effAddr s m hs).bind fun r hr => (hI.read r.2 r.1.addr hr).bind fun _ hr' =>
    hI.write _ _ _ (hI.cpu hr' ⟨rfl, rfl, rfl, le_rfl⟩)

theorem OpsKeep.modifyShift (hI : OpsKeep I E) (s : State) (f : Byte → Byte → Byte × Byte) (o : ShiftOperand)
    (hs : I s) : Meets (modifyShift s f o) I E := by
  cases o with
  | acc => exact hI.cpu hs ⟨rfl, rfl, rfl, le_rfl⟩
  | mem m => exact hI.modifyMem s m f hs

/-! ## Instructions -/

/-- The rule for an instruction that is a function of its operand and of the CPU (R173). -/
theorem OpsKeep.readClass (hI : OpsKeep I E) (o : Operand) (f : Byte → State → State) (hf : ∀ v s, CpuOnly s (f v s))
    (s : State) (hs : I s) : Ends (outcome (do let (v, s) ← Machine.loadOperand s o; pure (f v s))) I E :=
  .of_meets ((hI.loadOperand s o hs).bind fun r hr => hI.cpu hr (hf r.1 r.2))

/-- ADC and SBC read as the other read-class instructions do; beyond that they stop only where decimal mode is refused
(R226 (a)). -/
theorem OpsKeep.arithmetic (hI : OpsKeep I E) (o : Operand) (dec bin : Byte → State → AluResult) (s : State) (hs : I s) :
    Ends (outcome (do
      let (m, s) ← Machine.loadOperand s o
      if s.flag .d then
        match s.plat.params.decimalArith with
        | .refuse => .error (.refusal .decimalMode)
        | .nmos6502 => pure (s.setArith (dec m s))
      else pure (s.setArith (bin m s)))) I E := by
  refine .of_meets ((hI.loadOperand s o hs).bind fun r hr => ?_)
  dsimp only
  split
  · split
    · exact hI.decimal r.2 hr (by assumption)
    · exact hI.cpu hr ⟨rfl, rfl, rfl, le_rfl⟩
  · exact hI.cpu hr ⟨rfl, rfl, rfl, le_rfl⟩

theorem cpuOnly_branch (s : State) (cond : Bool) (off : Byte) : CpuOnly s (branch s cond off) := by
  rcases branch_cases s cond off with ⟨-, h⟩ | ⟨-, n, -, h⟩ <;> rw [h]
  · exact ⟨rfl, rfl, rfl, le_rfl⟩
  · exact ⟨rfl, rfl, rfl, Nat.le_add_right _ _⟩

/-- Every instruction keeps what its primitive operations keep. -/
theorem OpsKeep.exec (hI : OpsKeep I E) (i : Instr) (s : State) (hs : I s) : Ends (exec i s) I E := by
  cases i with
  | lda o => exact hI.readClass o (fun v s => (s.setA v).setNZ v) (fun _ _ => ⟨rfl, rfl, rfl, le_rfl⟩) s hs
  | ldx o => exact hI.readClass o (fun v s => (s.setX v).setNZ v) (fun _ _ => ⟨rfl, rfl, rfl, le_rfl⟩) s hs
  | ldy o => exact hI.readClass o (fun v s => (s.setY v).setNZ v) (fun _ _ => ⟨rfl, rfl, rfl, le_rfl⟩) s hs
  | and o =>
    exact hI.readClass o (fun v s => (s.setA (s.a &&& v)).setNZ (s.a &&& v)) (fun _ _ => ⟨rfl, rfl, rfl, le_rfl⟩) s hs
  | ora o =>
    exact hI.readClass o (fun v s => (s.setA (s.a ||| v)).setNZ (s.a ||| v)) (fun _ _ => ⟨rfl, rfl, rfl, le_rfl⟩) s hs
  | eor o =>
    exact hI.readClass o (fun v s => (s.setA (s.a ^^^ v)).setNZ (s.a ^^^ v)) (fun _ _ => ⟨rfl, rfl, rfl, le_rfl⟩) s hs
  | bit m => exact hI.readClass (.mem m) (fun v s => s.setP (putBit s.p s.a v)) (fun _ _ => ⟨rfl, rfl, rfl, le_rfl⟩) s hs
  | cmp o => exact hI.readClass o (fun v s => s.compare s.a v) (fun _ _ => ⟨rfl, rfl, rfl, le_rfl⟩) s hs
  | cpx o => exact hI.readClass o (fun v s => s.compare s.x v) (fun _ _ => ⟨rfl, rfl, rfl, le_rfl⟩) s hs
  | cpy o => exact hI.readClass o (fun v s => s.compare s.y v) (fun _ _ => ⟨rfl, rfl, rfl, le_rfl⟩) s hs
  | adc o => exact hI.arithmetic o (fun m s => addDecimal s.a m (s.flag .c)) (fun m s => add8 s.a m (s.flag .c)) s hs
  | sbc o => exact hI.arithmetic o (fun m s => subDecimal s.a m (s.flag .c)) (fun m s => sub8 s.a m (s.flag .c)) s hs
  | sta m | stx m | sty m => exact .of_meets (hI.storeOperand s m _ hs)
  | asl o | lsr o | rol o | ror o => exact .of_meets (hI.modifyShift s _ o hs)
  | inc m | dec m => exact .of_meets (hI.modifyMem s m _ hs)
  | tax | tay | txa | tya | tsx | txs | inx | iny | dex | dey | clc | sec | cli | sei | cld | sed | clv | jmpAbs | jam =>
    exact hI.cpu hs ⟨rfl, rfl, rfl, le_rfl⟩
  | bpl | bmi | bvc | bvs | bcc | bcs | bne | beq => exact hI.cpu hs (cpuOnly_branch s _ _)
  | nop | undef => exact hs
  | pha | php => exact .of_meets (hI.push8 s _ hs)
  | pla | plp => exact .of_meets ((hI.pull8 s hs).bind fun _ hr => hI.cpu hr ⟨rfl, rfl, rfl, le_rfl⟩)
  | jmpInd ptr => exact .of_meets ((hI.readPair s _ _ hs).bind fun _ hr => hI.cpu hr ⟨rfl, rfl, rfl, le_rfl⟩)
  | jsr => exact .of_meets ((hI.push16 s _ hs).bind fun _ ht => hI.cpu ht ⟨rfl, rfl, rfl, le_rfl⟩)
  | rts => exact .of_meets ((hI.pull16 s hs).bind fun _ hr => hI.cpu hr ⟨rfl, rfl, rfl, le_rfl⟩)
  | brk => exact .of_meets (hI.enterException s _ _ _ _ hs)
  | rti => exact .of_meets (hI.returnFromException s hs)

/-! ## The step -/

theorem OpsKeep.fetch (hI : OpsKeep I E) (s : State) (hs : I s) : Meets (fetch s) (fun r => I r.2) E := by
  have hps : ∀ (s : State) (T : Template) (n : Nat), I s → Meets (fetchParams s T n) (fun r => I r.2) E :=
    fun s T n hs => (hI.values _ s _ hs).bind fun _ hr => hr
  refine (hI.read s _ hs).bind fun r hr => ?_
  dsimp only
  split
  · exact hps _ _ _ hr
  · exact (hI.read r.2 _ hr).bind fun r' hr' => hps _ _ _ hr'

/-- The part of `endStep` before the clock: a jam that blocks the poll, or the poll (R130). -/
theorem OpsKeep.poll (hI : OpsKeep I E) (s : State) (hs : I s) :
    Meets (if s.jamNow && s.plat.params.jamBlocksInterrupts then .ok s else Machine.pollInterrupts s) I E := by
  split
  · exact hs
  · exact hI.pollInterrupts s hs

/-- A step keeps what the primitive operations keep, if the beginning of `Execute` and the end of the step keep it. -/
theorem OpsKeep.step (hI : OpsKeep I E) (hbegin : ∀ s T, I s → I (beginExecute s T)) (hclose : ∀ s, I s → I s.closeStep)
    (s : State) (hs : I s) : Ends (step s) I E := by
  have hf := hI.fetch s hs
  unfold Machine.step
  generalize Machine.fetch s = r at hf ⊢
  rcases r with (_ | _) | ⟨⟨T, ps⟩, s1⟩
  · exact hf
  · exact hf
  · have he := hI.exec (bindParams T ps) _ (hbegin s1 T hf)
    dsimp only
    cases hx : Machine.exec (bindParams T ps) (beginExecute s1 T) with
    | next s2 => exact .of_meets ((hI.poll s2 (he.of_next hx)).bind fun t ht => hclose t ht)
    | fault f => exact he.of_fault hx
    | refused r => rw [hx] at he; exact he

end

end Sys2Proof.Machine
end

section
/-! PROOFS. O59: where all of memory is ordinary, every step has a next state. -/

namespace Sys2Proof.Machine

open Sys2Proof.Safety

/-- Ordinary memory takes stores or discards them (R67). -/
theorem writable_or_discards (s : State) (a : Word) (h : Ordinary s a) : Writable s a ∨ Discards s a := by
  unfold Ordinary State.peek peekByte at h
  split at h
  · rename_i u hu
    split at h
    · cases h
    · exact .inl ⟨u, hu, by assumption, h⟩
    · exact .inr ⟨u, hu, by assumption, h⟩
  · cases h

/-- What is ordinary memory depends on the world and the platform alone. -/
theorem allOrdinary_congr {s t : State} (hw : t.world = s.world) (hp : t.plat = s.plat) (h : AllOrdinary s) :
    AllOrdinary t := by
  intro a
  have := h a
  rwa [Ordinary, State.peek, ← hw, ← hp] at this

theorem allOrdinary_setRequest (s : State) (l : Line) (b : Bool) (h : AllOrdinary s) :
    AllOrdinary (s.setWorld (s.world.setRequest l b)) := by
  intro a
  have := h a
  rw [Ordinary, State.peek, peekByte_eq] at this
  rw [Ordinary, peek_setWorld, peekByte_eq, locate_congr s.plat (setRequest_active s.world l b)]
  simpa [storageByte] using this

theorem allOrdinary_putStorage (s : State) (a : Word) (id : StorageId) (k : Nat) (v : Byte)
    (hl : s.locate a = some (id, k)) (hk : (storageByte s.world id k).isSome = true) (h : AllOrdinary s) :
    AllOrdinary (s.setWorld (putStorage s.world id k v)) := by
  intro b
  rw [Ordinary, peek_putStorage s a id k v hl hk]
  split
  · rfl
  · exact h b

/-- A store where all of memory is ordinary answers, and leaves it so. -/
theorem memWrite_allOrdinary (s : State) (a : Word) (v : Byte) (h : AllOrdinary s) :
    ∃ t, memWrite s a v = .ok t ∧ AllOrdinary t ∧ t.plat = s.plat := by
  rcases writable_or_discards s a (h a) with hw | hd
  · obtain ⟨id, k, hl, hk, ht⟩ := memWrite_of_writable s a v hw
    exact ⟨_, ht, allOrdinary_putStorage s a id k v hl hk h, rfl⟩
  · exact ⟨s, memWrite_of_discards s a v hd, h, rfl⟩

/-- The invariant of O59: no primitive operation stops where all of memory is ordinary and decimal mode is not refused. -/
theorem opsKeep_allOrdinary :
    OpsKeep (fun s => AllOrdinary s ∧ s.plat.params.decimalArith = .nmos6502) (fun _ => False) where
  cpu hs hc := ⟨allOrdinary_congr hc.world hc.plat hs.1, by rw [hc.plat]; exact hs.2⟩
  read s a hs := by
    obtain ⟨v, hv⟩ := Option.isSome_iff_exists.mp (hs.1 a)
    rw [memRead_of_peek s a v hv]
    exact hs
  write s a v hs := by
    obtain ⟨t, ht, hord, hp⟩ := memWrite_allOrdinary s a v hs.1
    rw [ht]
    exact ⟨hord, by rw [hp]; exact hs.2⟩
  request s l b hs := ⟨allOrdinary_setRequest s l b hs.1, hs.2⟩
  decimal s hs hr := by simp [hs.2] at hr

/-- Settles O59: the rule for a step, with an invariant under which no primitive operation stops. -/
theorem stepCompletesOnOrdinaryMemory : Obligations.StepCompletesOnOrdinaryMemory := by
  intro s hord hdec
  obtain ⟨t, ht, hord', -⟩ := (opsKeep_allOrdinary.step
    (fun _ _ hs => ⟨allOrdinary_congr rfl rfl hs.1, hs.2⟩) (fun _ hs => ⟨allOrdinary_congr rfl rfl hs.1, hs.2⟩)
    s ⟨hord, hdec⟩).exists_next
  exact ⟨t, ht, hord'⟩

end Sys2Proof.Machine
end

section
/-! PROOFS. O58: the clock of a step. -/

namespace Sys2Proof.Machine

/-- The invariant of O58: platform and clock stay while an instruction runs, and its cycles do not fall. -/
theorem opsKeep_clock (pl : Platform) (c n : Nat) :
    OpsKeep (fun s => s.plat = pl ∧ s.clk = c ∧ n ≤ s.cycles) (fun _ => True) where
  cpu hs hc := ⟨hc.plat.trans hs.1, hc.clk.trans hs.2.1, hs.2.2.trans hc.cycles⟩
  read s a hs := by
    unfold memRead
    split
    · exact hs
    · trivial
  write s a v hs := by
    unfold memWrite
    split
    · exact hs
    · trivial
  request _ _ _ hs := hs
  decimal _ _ _ := trivial

/-- The template that a fetch answers is one that the opcode tables select for some bytes (R121, R122). -/
theorem fetch_template (s t : State) (T : Template) (ps : List Byte) (h : fetch s = .ok ((T, ps), t)) :
    ∃ bytes, T = templateOf s.plat.params bytes := by
  obtain ⟨op, s1, h1, h⟩ := (fetch_ok_iff s t T ps).mp h
  obtain ⟨-, w1, -, rfl⟩ := (memRead_ok_iff _ _ _ _).mp h1
  rcases h with ⟨hp, rfl, -⟩ | ⟨x, op1, s2, hp, -, rfl, -⟩
  · exact ⟨[op], by simp_all [templateOf]⟩
  · exact ⟨[op, op1], by simp_all [templateOf]⟩

/-- Every opcode byte has two cycles at least with the parameters of R9 (R9, R136). -/
theorem two_le_optable_cycles (op : Byte) : 2 ≤ (optable Params.default op).cycles := by
  revert op; decide +kernel

/-- Settles O58: the fetch selects a template, whose cycles only grow until the clock takes them in. -/
theorem stepAdvancesTheClock : Obligations.StepAdvancesTheClock := by
  refine ⟨fun s t h => ?_, fun bytes => ?_⟩
  · obtain ⟨T, ps, s1, s2, hf, hx, he⟩ := (step_next_iff s t).mp h
    obtain ⟨u, hu, rfl⟩ := (endStep_ok_iff s2 t).mp he
    obtain ⟨hp1, hc1, -⟩ := ((opsKeep_clock s.plat s.clk 0).fetch s ⟨rfl, rfl, Nat.zero_le _⟩).of_ok hf
    have hI := opsKeep_clock s.plat s.clk T.cycles
    have h2 := (hI.exec (bindParams T ps) (beginExecute s1 T) ⟨hp1, hc1, le_rfl⟩).of_next hx
    obtain ⟨hp, hc, hn⟩ := (hI.poll s2 h2).of_ok hu
    obtain ⟨bytes, rfl⟩ := fetch_template s s1 T ps hf
    exact ⟨by simp [hc], hp, fun hall => (hall bytes).trans hn⟩
  · rw [templateOf, prefixOf_default]
    exact two_le_optable_cycles _

end Sys2Proof.Machine
end

section
/-! PROOFS. O60: the only fault of a step. -/

namespace Sys2Proof.Machine

open Sys2Proof.Safety

/-- No register subset is active, so that no access runs a handler (R64, R68). -/
def NoRegisterActive (pl : Platform) (w : World) : Prop :=
  ∀ (j : SubsetId) (u : Subset) (c : ChipId), pl.subsets[j]? = some u → w.active[j]? = some true → u.kind ≠ .register c

/-- A stop that, if it is a fault, is `NoSubset` (R369). -/
def MissingOnly (e : Stop) : Prop := ∀ f, e = .fault f → ∃ a, f = .noSubset a

/-- A stop that, if it is a fault, is `NoSubset` of an address that no active subset of `w` contains, provided no register
subset of `w` is active. -/
def MissingIn (pl : Platform) (w : World) (e : Stop) : Prop :=
  ∀ f, e = .fault f → ∃ a, f = .noSubset a ∧ (NoRegisterActive pl w → ∀ j u, ¬ Contains pl w a j u)

theorem missingOnly_refusal (r : Refusal) : MissingOnly (.refusal r) := by rintro f ⟨⟩

theorem missingIn_refusal (pl : Platform) (w : World) (r : Refusal) : MissingIn pl w (.refusal r) := by rintro f ⟨⟩

/-- The candidates for an address are the active subsets that contain it (R65). -/
theorem mem_candidates_iff (pl : Platform) (w : World) (a : Word) (u : Subset) :
    u ∈ candidates pl w a ↔ ∃ j, Contains pl w a j u := by
  simp only [candidates, List.mem_map, List.mem_filter]
  constructor
  · rintro ⟨e, ⟨he, hans⟩, rfl⟩
    obtain ⟨j, hj⟩ := List.mem_iff_getElem?.mp he
    obtain ⟨hu, hb⟩ := List.getElem?_zip_eq_some.mp hj
    simp only [answers, Bool.and_eq_true, decide_eq_true_eq] at hans
    obtain ⟨hactive, hlo, hhi⟩ := hans
    exact ⟨j, hu, hactive ▸ hb, hlo, hhi⟩
  · rintro ⟨j, hu, hb, hlo, hhi⟩
    have hj : (pl.subsets.zip w.active)[j]? = some (u, true) := List.getElem?_zip_eq_some.mpr ⟨hu, hb⟩
    exact ⟨(u, true), ⟨List.mem_of_getElem? hj, by simp [answers, hlo, hhi]⟩, rfl⟩

/-- Resolution answers one of the active subsets that contain the address (R65). -/
theorem resolve_contains (pl : Platform) (w : World) (a : Word) (u : Subset) (h : resolve pl w a = .ok u) :
    ∃ j, Contains pl w a j u := by
  rw [resolve_ok_iff] at h
  exact (mem_candidates_iff pl w a u).mp (by simp [h])

/-- A resolution that faults found no active subset (R74). -/
theorem resolve_fault (pl : Platform) (w : World) (a : Word) (f : Fault) (h : resolve pl w a = .error (.fault f)) :
    f = .noSubset a ∧ ∀ j u, ¬ Contains pl w a j u := by
  unfold resolve at h
  split at h
  · rename_i hc
    cases h
    refine ⟨rfl, fun j u hu => ?_⟩
    have := (mem_candidates_iff pl w a u).mpr ⟨j, hu⟩
    simp [hc] at this
  · cases h
  · cases h

theorem resolve_kind_ne_register (pl : Platform) (w : World) (a : Word) (u : Subset) (c : ChipId)
    (hw : NoRegisterActive pl w) (h : resolve pl w a = .ok u) : u.kind ≠ .register c := by
  obtain ⟨j, hu, hj, -⟩ := resolve_contains pl w a u h
  exact hw j u c hu hj

/-! ## The faults that handlers pass on -/

/-- Ports whose accesses and deliveries have no fault but `NoSubset`. -/
structure PortsMissingOnly (io : Ports) : Prop where
  load : ∀ a w e, io.load a w = .error e → MissingOnly e
  store : ∀ a v w e, io.store a v w = .error e → MissingOnly e
  notify : ∀ n ev w e, io.notify n ev w = .error e → MissingOnly e

theorem switch_error (pl : Platform) (w : World) (changes : List (SubsetId × Bool)) (e : Stop)
    (h : w.switch pl changes = .error e) : MissingOnly e := by
  unfold World.switch at h
  dsimp only at h
  split at h
  · cases h
  · cases h; exact missingOnly_refusal _

theorem backingStore_error (pl : Platform) (c : ChipId) (u : SubsetId) (offset : Nat) (v : Byte) (w : World) (e : Stop)
    (h : backingStore pl c u offset v w = .error e) : MissingOnly e := by
  unfold backingStore at h
  split at h
  · split at h
    · cases h
    · cases h; exact missingOnly_refusal _
  · cases h; exact missingOnly_refusal _

/-- A handler has no fault of its own (R101): it passes on those of its ports. -/
theorem runHandler_error (pl : Platform) {io : Ports} (hio : PortsMissingOnly io) (c : ChipId) {α : Type} (hd : Handler α)
    (w : World) (e : Stop) (h : runHandler pl io c hd w = .error e) : MissingOnly e := by
  induction hd generalizing w with
  | ret v => cases h
  | look k ih => exact ih w w h
  | setOwn d k ih => exact ih _ h
  | switch changes k ih =>
    simp only [runHandler] at h
    split at h
    · exact ih _ h
    · rename_i hx; cases h; exact switch_error pl w changes _ hx
  | backing u o v k ih =>
    simp only [runHandler] at h
    split at h
    · exact ih _ h
    · rename_i hx; cases h; exact backingStore_error pl c u o v w _ hx
  | load a k ih =>
    simp only [runHandler] at h
    split at h
    · exact ih _ _ h
    · rename_i hx; cases h; exact hio.load a w _ hx
  | store a v k ih =>
    simp only [runHandler] at h
    split at h
    · exact ih _ h
    · rename_i hx; cases h; exact hio.store a v w _ hx
  | request l k ih => exact ih _ h
  | notify ev k ih =>
    simp only [runHandler] at h
    split at h
    · split at h
      · exact ih _ h
      · rename_i hx; cases h; exact hio.notify c ev w _ hx
    · cases h; exact missingOnly_refusal _
  | observe n k ih => exact ih _ h
  | unobserve n k ih => exact ih _ h

theorem deliver_error (pl : Platform) {io : Ports} (hio : PortsMissingOnly io) (n : ChipId) (ev : Event)
    (l : List ChipId) (w : World) (e : Stop) (h : deliver pl io n ev l w = .error e) : MissingOnly e := by
  induction l generalizing w with
  | nil => cases h
  | cons o l ih =>
    simp only [deliver] at h
    split at h
    · exact ih _ h
    · rename_i hx; cases h; exact runHandler_error pl hio _ _ _ _ hx

/-! ## The faults of an access -/

/-- An access through a handler faults, if at all, where a register subset is active. -/
theorem MissingOnly.missingIn {e : Stop} (he : MissingOnly e) {pl : Platform} {w : World} {a : Word} {u : Subset}
    {c : ChipId} (hu : resolve pl w a = .ok u) (hk : u.kind = .register c) : MissingIn pl w e := by
  intro f hf
  obtain ⟨b, hb⟩ := he f hf
  exact ⟨b, hb, fun hw => absurd hk (resolve_kind_ne_register pl w a u c hw hu)⟩

theorem MissingIn.missingOnly {pl : Platform} {w : World} {e : Stop} (h : MissingIn pl w e) : MissingOnly e := by
  intro f hf
  obtain ⟨a, ha, -⟩ := h f hf
  exact ⟨a, ha⟩

theorem resolve_error (pl : Platform) (w : World) (a : Word) (e : Stop) (h : resolve pl w a = .error e) :
    MissingIn pl w e := by
  rintro f rfl
  obtain ⟨hf, hno⟩ := resolve_fault pl w a f h
  exact ⟨a, hf, fun _ => hno⟩

theorem routedLoad_error (pl : Platform) {io : Ports} (hio : PortsMissingOnly io) (a : Word) (w : World) (e : Stop)
    (h : routedLoad pl io a w = .error e) : MissingIn pl w e := by
  unfold routedLoad at h
  split at h
  · rename_i hr; cases h; exact resolve_error pl w a _ hr
  · rename_i u hu
    split at h
    · rename_i c hk
      exact (runHandler_error pl hio c _ w e h).missingIn hu hk
    all_goals
      unfold plainLoad at h
      split at h
      · cases h
      · rename_i hx
        split at hx
        · cases hx
        · cases hx; cases h; exact missingIn_refusal pl w _

theorem routedStore_error (pl : Platform) {io : Ports} (hio : PortsMissingOnly io) (a : Word) (v : Byte) (w : World)
    (e : Stop) (h : routedStore pl io a v w = .error e) : MissingIn pl w e := by
  unfold routedStore at h
  split at h
  · rename_i hr; cases h; exact resolve_error pl w a _ hr
  · rename_i u hu
    split at h
    · rename_i c hk
      split at h
      · cases h
      · rename_i hx; cases h
        exact (runHandler_error pl hio c _ w _ hx).missingIn hu hk
    · cases h
    · unfold plainStore at h
      split at h
      · cases h
      · cases h; exact missingIn_refusal pl w _

/-- At every depth of nesting the ports have no fault but `NoSubset`. -/
theorem ports_missingOnly (pl : Platform) (depth : Nat) : PortsMissingOnly (ports pl depth) := by
  induction depth with
  | zero =>
    refine ⟨fun _ _ _ h => ?_, fun _ _ _ _ h => ?_, fun _ _ _ _ h => ?_⟩ <;> cases h <;> exact missingOnly_refusal _
  | succ depth ih =>
    exact ⟨fun a w e h => (routedLoad_error pl ih a w e h).missingOnly,
      fun a v w e h => (routedStore_error pl ih a v w e h).missingOnly,
      fun n ev w e h => deliver_error pl ih n ev _ w e h⟩

/-- What every depth says of its stops, a nesting says of its own (R97). -/
theorem nested_error {α : Type} {f : Nat → Res α} {E : Stop → Prop} (hf : ∀ depth e, f depth = .error e → E e)
    (hn : E (.refusal .handlerNesting)) {e : Stop} (h : nested f = .error e) : E e := by
  rcases nested_cases f with ⟨depth, hd, -⟩ | ⟨hd, -⟩
  · exact hf depth e (hd ▸ h)
  · rw [hd] at h; cases h; exact hn

theorem worldLoad_error (pl : Platform) (a : Word) (w : World) (e : Stop) (h : worldLoad pl a w = .error e) :
    MissingIn pl w e :=
  nested_error (fun depth e h => routedLoad_error pl (ports_missingOnly pl depth) a w e h) (missingIn_refusal pl w _) h

theorem worldStore_error (pl : Platform) (a : Word) (v : Byte) (w : World) (e : Stop)
    (h : worldStore pl a v w = .error e) : MissingIn pl w e :=
  nested_error (fun depth e h => routedStore_error pl (ports_missingOnly pl depth) a v w e h)
    (missingIn_refusal pl w _) h

/-! ## The configuration during a step without handlers -/

theorem worldLoad_active (pl : Platform) (a : Word) (w w' : World) (v : Byte) (hw : NoRegisterActive pl w)
    (h : worldLoad pl a w = .ok (v, w')) : w'.active = w.active := by
  obtain ⟨depth, h⟩ := (worldLoad_ok_iff pl a w (v, w')).mp h
  unfold routedLoad at h
  split at h
  · cases h
  · rename_i u hu
    split at h
    · exact absurd (by assumption) (resolve_kind_ne_register pl w a u _ hw hu)
    all_goals
      split at h <;> cases h
      rfl

theorem worldStore_active (pl : Platform) (a : Word) (v : Byte) (w w' : World) (hw : NoRegisterActive pl w)
    (h : worldStore pl a v w = .ok w') : w'.active = w.active := by
  obtain ⟨depth, h⟩ := (worldStore_ok_iff pl a v w w').mp h
  unfold routedStore at h
  split at h
  · cases h
  · rename_i u hu
    split at h
    · exact absurd (by assumption) (resolve_kind_ne_register pl w a u _ hw hu)
    · cases h; rfl
    · unfold plainStore at h
      split at h <;> cases h
      rfl

/-- The platform is `pl`, and as long as `w` has no register subset active, the configuration is that of `w`. -/
def ConfiguredAs (pl : Platform) (w : World) (s : State) : Prop :=
  s.plat = pl ∧ (NoRegisterActive pl w → s.world.active = w.active)

theorem noRegisterActive_congr {pl : Platform} {w w' : World} (h : w'.active = w.active) (hw : NoRegisterActive pl w) :
    NoRegisterActive pl w' := by
  rwa [NoRegisterActive, h]

/-- A stop in a state configured as `w` is says of `w` what it says of that state. -/
theorem MissingIn.of_configuredAs {pl : Platform} {w : World} {s : State} {e : Stop} (hs : ConfiguredAs pl w s)
    (he : MissingIn s.plat s.world e) : MissingIn pl w e := by
  obtain ⟨rfl, hact⟩ := hs
  intro f hf
  obtain ⟨a, ha, hno⟩ := he f hf
  refine ⟨a, ha, fun hw j u hc => hno (noRegisterActive_congr (hact hw) hw) j u ?_⟩
  rwa [Contains, hact hw]

/-- The invariant of O60: the configuration of `w`, and no fault but one that `MissingIn` allows. -/
theorem opsKeep_configuredAs (pl : Platform) (w : World) : OpsKeep (ConfiguredAs pl w) (MissingIn pl w) where
  cpu hs hc := ⟨hc.plat.trans hs.1, by rw [hc.world]; exact hs.2⟩
  read s a hs := by
    unfold memRead
    split
    · rename_i v w' h
      refine ⟨hs.1, fun hw => ?_⟩
      have hw' := noRegisterActive_congr (hs.2 hw) (hs.1 ▸ hw)
      exact (worldLoad_active s.plat a s.world w' v (hs.1 ▸ hw') h).trans (hs.2 hw)
    · rename_i e h
      exact (worldLoad_error s.plat a s.world e h).of_configuredAs hs
  write s a v hs := by
    unfold memWrite
    split
    · rename_i w' h
      refine ⟨hs.1, fun hw => ?_⟩
      have hw' := noRegisterActive_congr (hs.2 hw) (hs.1 ▸ hw)
      exact (worldStore_active s.plat a v s.world w' (hs.1 ▸ hw') h).trans (hs.2 hw)
    · rename_i e h
      exact (worldStore_error s.plat a v s.world e h).of_configuredAs hs
  request s l b hs := ⟨hs.1, fun hw => (setRequest_active s.world l b).trans (hs.2 hw)⟩
  decimal _ _ _ := missingIn_refusal pl w _

/-- Settles O60: the rule for a step, with the configuration as the invariant. -/
theorem onlyMissingSubsetFaults : Obligations.OnlyMissingSubsetFaults := by
  intro s f h
  exact ((opsKeep_configuredAs s.plat s.world).step (fun _ _ hs => hs) (fun _ hs => hs) s
    ⟨rfl, fun _ => rfl⟩).of_fault h f rfl

end Sys2Proof.Machine
end

section
/-! PROOFS. O5: the timing of every documented opcode, row by row of the encoder's tables against R136. -/

namespace Sys2Proof

open Sys2Proof.Safety

/-- With the parameters of R9 the opcode selects a template of this base cycle count, page penalty and length. -/
abbrev Selects (op : Byte) (cycles : Nat) (penalty : Bool) (length : Nat) : Prop :=
  (optable Params.default op).cycles = cycles ∧ (optable Params.default op).pagePenalty = penalty ∧
    (optable Params.default op).length = length

/-- Every opcode that an encoder's table lists for a mode has the timing of its class in that mode. -/
abbrev TableSelects (table : List (MemMode × Byte)) (cycles : MemMode → Nat) (penalty : MemMode → Bool) : Prop :=
  ∀ e ∈ table, Selects e.2 (cycles e.1) (penalty e.1) (paramCount e.1 + 1)

/-- The modes in which `paysPenalty` has a read-class instruction pay (R134). -/
def paysIn (m : MemMode) : Bool := m == .abx || m == .aby || m == .izy

/-- What is known of the opcode `op0` of a code with parameters `ps0` is known of that code's first byte. -/
theorem selects_of_code {op0 op : Byte} {ps0 ps : List Byte} {cycles : Nat} {penalty : Bool} {length : Nat}
    (hsel : Selects op0 cycles penalty length) (hlen : ps0.length + 1 = length) (h : op0 :: ps0 = op :: ps) :
    Selects op cycles penalty (ps.length + 1) := by
  obtain ⟨rfl, rfl⟩ := List.cons.inj h
  exact hlen ▸ hsel

theorem memParams_length (m : MemOperand) : (memParams m).length = paramCount m.mode := by
  cases m <;> rfl

theorem mem_of_lookup {table : List (MemMode × Byte)} {mode : MemMode} {op : Byte} (h : table.lookup mode = some op) :
    (mode, op) ∈ table := by
  obtain ⟨l, l', rfl, -⟩ := List.lookup_eq_some_iff.mp h
  simp

theorem encodeMem_selects {table : List (MemMode × Byte)} {cycles : MemMode → Nat} {penalty : MemMode → Bool}
    (htable : TableSelects table cycles penalty) {m : MemOperand} {op : Byte} {ps : List Byte}
    (h : encodeMem table m = op :: ps) : Selects op (cycles m.mode) (penalty m.mode) (ps.length + 1) := by
  unfold encodeMem at h
  split at h
  · rename_i op0 hop
    exact selects_of_code (htable _ (mem_of_lookup hop)) (by rw [memParams_length]) h
  · cases h

/-- The code of an instruction other than the undefined one begins with an opcode of the instruction's timing. -/
theorem encode_selects (i : Instr) (op : Byte) (ps : List Byte) (hi : ∀ o l, i ≠ .undef o l) (h : encode i = op :: ps) :
    Selects op (baseCycles i) (paysPenalty i) (ps.length + 1) := by
  cases i with
  | lda o | ldx o | ldy o | and o | ora o | eor o | adc o | sbc o | cmp o =>
    cases o with
    | imm v => exact selects_of_code (length := 2) ⟨rfl, rfl, rfl⟩ rfl h
    | mem m => exact encodeMem_selects (cycles := readCycles) (penalty := paysIn) (by decide) h
  | cpx o | cpy o =>
    cases o with
    | imm v => exact selects_of_code (length := 2) ⟨rfl, rfl, rfl⟩ rfl h
    | mem m => exact encodeMem_selects (cycles := readCycles) (penalty := fun _ => false) (by decide) h
  | bit => exact encodeMem_selects (cycles := readCycles) (penalty := fun _ => false) (by decide) h
  | sta | stx | sty => exact encodeMem_selects (cycles := storeCycles) (penalty := fun _ => false) (by decide) h
  | inc | dec => exact encodeMem_selects (cycles := rmwCycles) (penalty := fun _ => false) (by decide) h
  | asl o | lsr o | rol o | ror o =>
    cases o with
    | acc => exact selects_of_code (length := 1) ⟨rfl, rfl, rfl⟩ rfl h
    | mem m => exact encodeMem_selects (cycles := rmwCycles) (penalty := fun _ => false) (by decide) h
  | tax | tay | txa | tya | tsx | txs | inx | iny | dex | dey | clc | sec | cli | sei | cld | sed | clv | nop | pha | php
    | pla | plp | rts | rti | brk | jam => exact selects_of_code (length := 1) ⟨rfl, rfl, rfl⟩ rfl h
  | bpl | bmi | bvc | bvs | bcc | bcs | bne | beq => exact selects_of_code (length := 2) ⟨rfl, rfl, rfl⟩ rfl h
  | jmpAbs | jmpInd | jsr => exact selects_of_code (length := 3) ⟨rfl, rfl, rfl⟩ rfl h
  | undef o l => exact absurd rfl (hi o l)

/-- Settles O5: an instruction that has a code at all stands in a row of the encoder's tables, which gives its timing. -/
theorem baseCyclesByClassAndMode : Obligations.BaseCyclesByClassAndMode :=
  fun i op ps _ hi h => encode_selects i op ps hi h

end Sys2Proof
end

section
/-! PROOFS. O28, O29, O32: addition and subtraction in integers (R12, R220 to R222), and the frame of a read-class
instruction. -/

namespace Sys2Proof.Machine

open Sys2Proof.Safety

/-! ## The frame of a read-class instruction -/

/-- Reading an ordinary operand leaves the world alone (R66, R173). -/
theorem loadOperand_ordinary (s s1 : State) (o : Operand) (v : Byte) (ho : ReadsOrdinary s o)
    (h : loadOperand s o = .ok (v, s1)) : s1.world = s.world := by
  cases o with
  | imm x => cases h; rfl
  | mem m =>
    obtain ⟨e, he, hord⟩ := ho
    obtain ⟨b, hb⟩ := Option.isSome_iff_exists.mp hord
    obtain ⟨e', s', he', hr⟩ := (loadMem_ok_iff s m v s1).mp h
    obtain ⟨rfl, rfl⟩ := Prod.mk.inj (Except.ok.inj (he.symm.trans he'))
    split at hr
    · have hb' : (s.addCycles 1).peek e.addr = some b := hb
      rw [memRead_of_peek _ _ _ hb'] at hr
      cases hr; rfl
    · rw [memRead_of_peek _ _ _ hb] at hr
      cases hr; rfl

/-- An instruction that works on registers and flags once its operand is read has the frame of the read (R173). -/
theorem readFrame_of_registerFrame (s s1 t : State) (o : Operand) (v : Byte) (regs : List Reg) (flags : List Flag)
    (h : loadOperand s o = .ok (v, s1)) (hf : RegisterFrame s1 t regs flags) : ReadFrame s s1 t o regs flags := by
  have hord : ReadsOrdinary s o → t.world = s.world := fun ho => hf.world.trans (loadOperand_ordinary s s1 o v ho h)
  obtain ⟨n, w, -, rfl⟩ := loadOperand_world s o v s1 h
  exact {
    cpuRegs := fun r hr => (hf.cpu.regs r hr).trans (by cases r <;> rfl)
    cpuFlags := hf.cpu.flags
    bit5 := hf.cpu.bit5
    anomaly := by simpa using hf.cpu.anomaly
    clk := hf.cpu.clk
    jamNow := hf.cpu.jamNow
    pagePenalty := hf.cpu.pagePenalty
    plat := hf.cpu.plat
    pc := hf.pc
    cycles := hf.cycles
    world := hf.world
    ordinary := fun ho => ⟨memKept_of_world s t (hord ho) hf.cpu.plat, fun l => by rw [hord ho]⟩ }

/-- Reading a flag after ADC or SBC wrote its four. -/
theorem getFlag_putArith (p : Byte) (r : AluResult) (g : Flag) :
    getFlag (putArith p r) g = if g = .n then r.negative else if g = .z then r.zero else
      if g = .v then r.overflow else if g = .c then r.carry else getFlag p g := by
  simp only [putArith, getFlag_putFlag]

theorem setArith_frame (s : State) (r : AluResult) : RegisterFrame s (s.setArith r) [.a] [.n, .v, .z, .c] where
  cpu := {
    regs := fun g hg => by cases g <;> simp_all [regOf]
    flags := fun f hf => by cases f <;> simp_all [State.flag, getFlag_putArith]
    bit5 := putArith_bit5 s.p r
    anomaly := by simp
    latches := fun _ => rfl
    clk := rfl
    jamNow := rfl
    pagePenalty := rfl
    plat := rfl }
  pc := rfl
  cycles := rfl
  world := rfl
  memory := memKept_of_world s _ rfl rfl

/-! ## `ADD8` and `SUB8` in integers -/

theorem getLsbD_seven (b : Byte) : b.getLsbD 7 = decide (128 ≤ b.toNat) := by
  revert b; decide +kernel

theorem toInt_eq_ite (b : Byte) : b.toInt = if 128 ≤ b.toNat then (b.toNat : Int) - 256 else b.toNat := by
  rw [BitVec.toInt_eq_toNat_cond]
  have := b.isLt
  split <;> split <;> omega

theorem add8_toNat (a b : Byte) (c : Bool) : (add8 a b c).r.toNat = (a.toNat + b.toNat + c.toNat) % 256 := by
  simp [add8]

theorem add8_carry (a b : Byte) (c : Bool) : (add8 a b c).carry = decide (256 ≤ a.toNat + b.toNat + c.toNat) := by
  have ha := a.isLt
  have hb := b.isLt
  have hc := c.toNat_le
  simp only [add8, Nat.testBit_eq_decide_div_mod_eq, decide_eq_decide]
  omega

/-- Overflow (R222): the operands agree in sign and the result does not, which is where the signed sum does not fit. -/
theorem add8_overflow (a b : Byte) (c : Bool) :
    (add8 a b c).overflow = decide (a.toInt + b.toInt + (c.toNat : Int) < -128 ∨
      127 < a.toInt + b.toInt + (c.toNat : Int)) := by
  have hsigns : (add8 a b c).overflow = (a.getLsbD 7 == b.getLsbD 7 && a.getLsbD 7 != (add8 a b c).r.getLsbD 7) := by
    simp only [add8, BitVec.getLsbD_and, BitVec.getLsbD_not, BitVec.getLsbD_xor]
    cases a.getLsbD 7 <;> cases b.getLsbD 7 <;> simp
  have ha := a.isLt
  have hb := b.isLt
  have hc := c.toNat_le
  rw [hsigns, getLsbD_seven, getLsbD_seven, getLsbD_seven, add8_toNat, toInt_eq_ite, toInt_eq_ite, Bool.eq_iff_iff]
  simp only [Bool.and_eq_true, beq_iff_eq, bne_iff_ne, ne_eq, decide_eq_decide, decide_eq_true_eq]
  split <;> split <;> omega

theorem not_toInt (b : Byte) : (~~~b).toInt = -b.toInt - 1 := by
  have := b.isLt
  rw [toInt_eq_ite, toInt_eq_ite, BitVec.toNat_not]
  split <;> split <;> omega

/-! ## ADC and SBC -/

/-- A read leaves what ADC and SBC look at: `A`, the flags, `DecimalArith`. -/
theorem loadOperand_arith (s s1 : State) (o : Operand) (m : Byte) (h : loadOperand s o = .ok (m, s1)) :
    s1.a = s.a ∧ (∀ f, s1.flag f = s.flag f) ∧ s1.plat = s.plat := by
  obtain ⟨n, w, -, rfl⟩ := loadOperand_world s o m s1 h
  exact ⟨rfl, fun _ => rfl, rfl⟩

theorem exec_adc_binary (s s1 : State) (o : Operand) (m : Byte) (h : loadOperand s o = .ok (m, s1))
    (hd : s.flag .d = false) : exec (.adc o) s = .next (s1.setArith (add8 s.a m (s.flag .c))) := by
  obtain ⟨ha, hf, -⟩ := loadOperand_arith s s1 o m h
  show execAdc o s = _
  rw [← ha, ← hf .c]
  simp [execAdc, h, bind, Except.bind, hf, hd, pure, Except.pure, outcome]

theorem exec_sbc_binary (s s1 : State) (o : Operand) (m : Byte) (h : loadOperand s o = .ok (m, s1))
    (hd : s.flag .d = false) : exec (.sbc o) s = .next (s1.setArith (sub8 s.a m (s.flag .c))) := by
  obtain ⟨ha, hf, -⟩ := loadOperand_arith s s1 o m h
  show execSbc o s = _
  rw [← ha, ← hf .c]
  simp [execSbc, h, bind, Except.bind, hf, hd, pure, Except.pure, outcome]

/-- Settles O28: the equation of ADC in binary mode, and `ADD8` in integers. -/
theorem binaryAddition : Obligations.BinaryAddition := by
  intro o s s1 m h hd
  refine ⟨_, exec_adc_binary s s1 o m h hd, add8_toNat _ _ _, ?_, ?_, ?_, ?_,
    readFrame_of_registerFrame s s1 _ o m _ _ h (setArith_frame s1 _)⟩
  · exact (getFlag_putArith _ _ .c).trans (add8_carry _ _ _)
  · exact (getFlag_putArith _ _ .v).trans (add8_overflow _ _ _)
  · exact getFlag_putArith _ _ .z
  · exact getFlag_putArith _ _ .n

/-- Settles O29: the equation of SBC in binary mode, and `SUB8` as `ADD8` of the complement in integers. -/
theorem binarySubtraction : Obligations.BinarySubtraction := by
  intro o s s1 m h hd
  have hm := m.isLt
  refine ⟨_, exec_sbc_binary s s1 o m h hd, ?_, ?_, ?_, ?_, ?_,
    readFrame_of_registerFrame s s1 _ o m _ _ h (setArith_frame s1 _)⟩
  · rw [State.setArith_a, sub8, add8_toNat, BitVec.toNat_not]
    omega
  · refine ((getFlag_putArith _ _ .c).trans (add8_carry _ _ _)).trans ?_
    rw [BitVec.toNat_not, decide_eq_decide]
    omega
  · refine ((getFlag_putArith _ _ .v).trans (add8_overflow _ _ _)).trans ?_
    rw [not_toInt, decide_eq_decide]
    omega
  · exact getFlag_putArith _ _ .z
  · exact getFlag_putArith _ _ .n

/-- Settles O32: ADC and SBC read their operand and then stop (R226 (a)). -/
theorem decimalModeRefused : Obligations.DecimalModeRefused := by
  intro o s s1 m h hd hr
  obtain ⟨-, hf, hp⟩ := loadOperand_arith s s1 o m h
  constructor
  · show execAdc o s = _
    simp [execAdc, h, bind, Except.bind, hf, hd, hp, hr, outcome]
  · show execSbc o s = _
    simp [execSbc, h, bind, Except.bind, hf, hd, hp, hr, outcome]

end Sys2Proof.Machine
end

section
/-! PROOFS. O54: the state after reset. -/

namespace Sys2Proof.Machine

/-- The blank memory of TP1 shows the blank byte everywhere (log 4). -/
theorem peek_reset (a : Word) : State.reset.peek a = some blankByte := by
  have ha := a.isLt
  have h : resolve Platform.tp1 World.reset a = .ok ⟨"ram", .plain, 0, 0, 0, 65536, true⟩ := by
    rw [resolve_ok_iff]
    simp [candidates, Platform.tp1, World.reset, answers]
    omega
  show peekByte Platform.tp1 World.reset a = _
  rw [peekByte, h]
  simp [storageByte, viewIndex, World.reset, Platform.tp1, cellAt]
  omega

/-- Settles O54: the values of R9 and R37 stand in `State.reset`; the reset vector reads as blank memory. -/
theorem resetStateValues : Obligations.ResetStateValues := by
  refine ⟨⟨_, rfl, ?_⟩, by decide, by decide, rfl, rfl, rfl, rfl, blankByte, blankByte, peek_reset _, peek_reset _, rfl⟩
  simp [State.reset, Platform.tp1, Params.default, DataWidth.bits, AddrWidth.bits]

end Sys2Proof.Machine
end

section
/-! PROOFS. What the operations of an instruction can do to the CPU, where they answer: they change the world, `SP` and the
anomaly by the number of pushes or pulls, and the registers they name, and nothing else (R79 to R83, R330, R331, R360). -/

namespace Sys2Proof.Machine

/-! ## Memory accesses and the fetch -/

theorem memRead_world {s t : State} {a : Word} {v : Byte} (h : memRead s a = .ok (v, t)) : ∃ w, t = s.setWorld w := by
  obtain ⟨w, -, ht⟩ := (memRead_world_iff s a v t).mp h
  exact ⟨w, ht⟩

theorem memWrite_world {s t : State} {a : Word} {v : Byte} (h : memWrite s a v = .ok t) : ∃ w, t = s.setWorld w := by
  obtain ⟨w, -, ht⟩ := (memWrite_world_iff s a v t).mp h
  exact ⟨w, ht⟩

theorem memValues_world {n : Nat} {s t : State} {a : Word} {l : List Byte} (h : memValues s a n = .ok (l, t)) :
    ∃ w, t = s.setWorld w := by
  induction n generalizing s a l with
  | zero => cases h; exact ⟨t.world, rfl⟩
  | succ n ih =>
    obtain ⟨⟨v, s1⟩, h1, h⟩ := (bind_ok_iff _ _ _).mp h
    obtain ⟨⟨vs, s2⟩, h2, h⟩ := (bind_ok_iff _ _ _).mp h
    cases h
    obtain ⟨w1, rfl⟩ := memRead_world h1
    obtain ⟨w2, rfl⟩ := ih h2
    exact ⟨w2, rfl⟩

/-- The fetch changes at most the world (R123). -/
theorem fetch_world {s t : State} {r : Template × List Byte} (h : fetch s = .ok (r, t)) : ∃ w, t = s.setWorld w := by
  obtain ⟨op, s1, h1, h⟩ := (fetch_ok_iff s t r.1 r.2).mp h
  obtain ⟨w1, rfl⟩ := memRead_world h1
  rcases h with ⟨-, -, h2⟩ | ⟨x, op1, s2, -, h2, -, h3⟩
  · obtain ⟨w2, rfl⟩ := memValues_world h2
    exact ⟨w2, rfl⟩
  · obtain ⟨w2, rfl⟩ := memRead_world h2
    obtain ⟨w3, rfl⟩ := memValues_world h3
    exact ⟨w3, rfl⟩

/-! ## The stack -/

/-- The CPU after `n` pushes: `SP` is `n` less modulo 256, and the anomaly is noted if it wrapped on the way (R79, R83). -/
def State.pushed (s : State) (n : Nat) : State :=
  (s.noteAnomaly (decide (s.sp.toNat < n))).setSp (s.sp - BitVec.ofNat 8 n)

/-- The CPU after `n` pulls: `SP` is `n` more modulo 256, and the anomaly is noted if it wrapped on the way (R80, R83). -/
def State.pulled (s : State) (n : Nat) : State :=
  (s.noteAnomaly (decide (256 ≤ s.sp.toNat + n))).setSp (s.sp + BitVec.ofNat 8 n)

@[simp] theorem State.pushed_sp (s : State) (n : Nat) : (s.pushed n).sp = s.sp - BitVec.ofNat 8 n := rfl
@[simp] theorem State.pushed_a (s : State) (n : Nat) : (s.pushed n).a = s.a := rfl
@[simp] theorem State.pushed_x (s : State) (n : Nat) : (s.pushed n).x = s.x := rfl
@[simp] theorem State.pushed_y (s : State) (n : Nat) : (s.pushed n).y = s.y := rfl
@[simp] theorem State.pushed_pc (s : State) (n : Nat) : (s.pushed n).pc = s.pc := rfl
@[simp] theorem State.pushed_p (s : State) (n : Nat) : (s.pushed n).p = s.p := rfl
@[simp] theorem State.pushed_stackAnomaly (s : State) (n : Nat) :
    (s.pushed n).stackAnomaly = (s.stackAnomaly || decide (s.sp.toNat < n)) := rfl
@[simp] theorem State.pushed_clk (s : State) (n : Nat) : (s.pushed n).clk = s.clk := rfl
@[simp] theorem State.pushed_cycles (s : State) (n : Nat) : (s.pushed n).cycles = s.cycles := rfl
@[simp] theorem State.pushed_jamNow (s : State) (n : Nat) : (s.pushed n).jamNow = s.jamNow := rfl
@[simp] theorem State.pushed_pagePenalty (s : State) (n : Nat) : (s.pushed n).pagePenalty = s.pagePenalty := rfl
@[simp] theorem State.pushed_world (s : State) (n : Nat) : (s.pushed n).world = s.world := rfl
@[simp] theorem State.pushed_plat (s : State) (n : Nat) : (s.pushed n).plat = s.plat := rfl

@[simp] theorem State.pulled_sp (s : State) (n : Nat) : (s.pulled n).sp = s.sp + BitVec.ofNat 8 n := rfl
@[simp] theorem State.pulled_a (s : State) (n : Nat) : (s.pulled n).a = s.a := rfl
@[simp] theorem State.pulled_x (s : State) (n : Nat) : (s.pulled n).x = s.x := rfl
@[simp] theorem State.pulled_y (s : State) (n : Nat) : (s.pulled n).y = s.y := rfl
@[simp] theorem State.pulled_pc (s : State) (n : Nat) : (s.pulled n).pc = s.pc := rfl
@[simp] theorem State.pulled_p (s : State) (n : Nat) : (s.pulled n).p = s.p := rfl
@[simp] theorem State.pulled_stackAnomaly (s : State) (n : Nat) :
    (s.pulled n).stackAnomaly = (s.stackAnomaly || decide (256 ≤ s.sp.toNat + n)) := rfl
@[simp] theorem State.pulled_clk (s : State) (n : Nat) : (s.pulled n).clk = s.clk := rfl
@[simp] theorem State.pulled_cycles (s : State) (n : Nat) : (s.pulled n).cycles = s.cycles := rfl
@[simp] theorem State.pulled_jamNow (s : State) (n : Nat) : (s.pulled n).jamNow = s.jamNow := rfl
@[simp] theorem State.pulled_pagePenalty (s : State) (n : Nat) : (s.pulled n).pagePenalty = s.pagePenalty := rfl
@[simp] theorem State.pulled_world (s : State) (n : Nat) : (s.pulled n).world = s.world := rfl
@[simp] theorem State.pulled_plat (s : State) (n : Nat) : (s.pulled n).plat = s.plat := rfl

theorem State.noteAnomaly_noteAnomaly (s : State) (b c : Bool) :
    (s.noteAnomaly b).noteAnomaly c = s.noteAnomaly (b || c) := by
  simp only [State.noteAnomaly, Bool.or_assoc]

/-- Pushes add up: `SP` wraps in one of two series exactly when it wraps in the whole (R83). -/
theorem State.pushed_pushed (s : State) (m n : Nat) (hm : m ≤ 256) : (s.pushed m).pushed n = s.pushed (m + n) := by
  have hsp : s.sp - BitVec.ofNat 8 m - BitVec.ofNat 8 n = s.sp - BitVec.ofNat 8 (m + n) := by
    rw [BitVec.ofNat_add, sub_sub]
  have hwrap : (decide (s.sp.toNat < m) || decide ((s.sp - BitVec.ofNat 8 m).toNat < n)) =
      decide (s.sp.toNat < m + n) := by
    have := s.sp.isLt
    rw [← Bool.decide_or, decide_eq_decide, BitVec.toNat_sub, BitVec.toNat_ofNat]
    omega
  calc (s.pushed m).pushed n
      = ((s.noteAnomaly (decide (s.sp.toNat < m))).noteAnomaly
          (decide ((s.sp - BitVec.ofNat 8 m).toNat < n))).setSp (s.sp - BitVec.ofNat 8 m - BitVec.ofNat 8 n) := rfl
    _ = s.pushed (m + n) := by rw [State.noteAnomaly_noteAnomaly, hwrap, hsp]; rfl

/-- Pulls add up: `SP` wraps in one of two series exactly when it wraps in the whole (R83). -/
theorem State.pulled_pulled (s : State) (m n : Nat) : (s.pulled m).pulled n = s.pulled (m + n) := by
  have hsp : s.sp + BitVec.ofNat 8 m + BitVec.ofNat 8 n = s.sp + BitVec.ofNat 8 (m + n) := by
    rw [BitVec.ofNat_add, BitVec.add_assoc]
  have hwrap : (decide (256 ≤ s.sp.toNat + m) || decide (256 ≤ (s.sp + BitVec.ofNat 8 m).toNat + n)) =
      decide (256 ≤ s.sp.toNat + (m + n)) := by
    have := s.sp.isLt
    rw [← Bool.decide_or, decide_eq_decide, BitVec.toNat_add, BitVec.toNat_ofNat]
    omega
  calc (s.pulled m).pulled n
      = ((s.noteAnomaly (decide (256 ≤ s.sp.toNat + m))).noteAnomaly
          (decide (256 ≤ (s.sp + BitVec.ofNat 8 m).toNat + n))).setSp (s.sp + BitVec.ofNat 8 m + BitVec.ofNat 8 n) := rfl
    _ = s.pulled (m + n) := by rw [State.noteAnomaly_noteAnomaly, hwrap, hsp]; rfl

theorem State.pushed_zero (s : State) : s.pushed 0 = s := by
  simp [State.pushed, State.noteAnomaly, State.setSp]

/-- One push, in the terms of `push8`. -/
theorem State.pushed_one (s : State) : (s.noteAnomaly (s.sp == 0x00#8)).setSp (s.sp - 1#8) = s.pushed 1 := by
  have : (s.sp == 0x00#8) = decide (s.sp.toNat < 1) := by
    generalize s.sp = b
    revert b; decide
  rw [this]; rfl

/-- One pull, in the terms of `pull8`. -/
theorem State.pulled_one (s : State) : (s.noteAnomaly (s.sp == 0xFF#8)).setSp (s.sp + 1#8) = s.pulled 1 := by
  have : (s.sp == 0xFF#8) = decide (256 ≤ s.sp.toNat + 1) := by
    generalize s.sp = b
    revert b; decide
  rw [this]; rfl

theorem push8_world {s t : State} {v : Byte} (h : push8 s v = .ok t) : ∃ w, t = (s.pushed 1).setWorld w := by
  obtain ⟨s1, h1, rfl⟩ := (push8_ok_iff s v t).mp h
  obtain ⟨w, rfl⟩ := memWrite_world h1
  rw [State.pushed_one]
  exact ⟨w, rfl⟩

theorem pull8_world {s t : State} {v : Byte} (h : pull8 s = .ok (v, t)) : ∃ w, t = (s.pulled 1).setWorld w := by
  rw [pull8_ok_iff, State.pulled_one] at h
  exact memRead_world h

theorem push16_world {s t : State} {x : Word} (h : push16 s x = .ok t) : ∃ w, t = (s.pushed 2).setWorld w := by
  obtain ⟨s1, h1, h2⟩ := (push16_ok_iff s x t).mp h
  obtain ⟨w1, rfl⟩ := push8_world h1
  obtain ⟨w2, rfl⟩ := push8_world h2
  rw [← s.pushed_pushed 1 1 (by decide)]
  exact ⟨w2, rfl⟩

theorem pull16_world {s t : State} {x : Word} (h : pull16 s = .ok (x, t)) : ∃ w, t = (s.pulled 2).setWorld w := by
  obtain ⟨lo, s1, hi, h1, h2, -⟩ := (pull16_ok_iff s x t).mp h
  obtain ⟨w1, rfl⟩ := pull8_world h1
  obtain ⟨w2, rfl⟩ := pull8_world h2
  rw [← s.pulled_pulled 1 1]
  exact ⟨w2, rfl⟩

/-! ## Exceptions -/

/-- Entering an exception pushes three bytes, sets I if it is told to, and goes to a word it read (R330, R360). -/
theorem enterException_world {s t : State} {ret : Word} {status : Byte} {setI : Bool} {vector : Word}
    (h : enterException s ret status setI vector = .ok t) :
    ∃ w target, t = (((s.pushed 3).setP (if setI then putFlag s.p .i true else s.p)).setWorld w).setPc target := by
  obtain ⟨s1, s2, target, s3, h1, h2, h3, rfl⟩ := (enterException_ok_iff s ret status setI vector t).mp h
  obtain ⟨w1, rfl⟩ := push16_world h1
  obtain ⟨w2, rfl⟩ := push8_world h2
  obtain ⟨w3, rfl⟩ := memReadPair_world _ _ _ _ _ h3
  rw [← s.pushed_pushed 2 1 (by decide)]
  exact ⟨w3, target, by cases setI <;> rfl⟩

/-- Returning from an exception pulls three bytes, the first of them into `P` (R331). -/
theorem returnFromException_world {s t : State} (h : returnFromException s = .ok t) :
    ∃ v w target, t = (((s.pulled 3).loadStatus v).setWorld w).setPc target := by
  obtain ⟨v, s1, target, s2, h1, h2, rfl⟩ := (returnFromException_ok_iff s t).mp h
  obtain ⟨w1, rfl⟩ := pull8_world h1
  obtain ⟨w2, rfl⟩ := pull16_world h2
  rw [← s.pulled_pulled 1 2]
  exact ⟨v, w2, target, rfl⟩

/-! ## Operands -/

theorem storeOperand_world {s t : State} {m : MemOperand} {v : Byte} (h : storeOperand s m v = .ok t) :
    ∃ w, t = s.setWorld w := by
  obtain ⟨e, s1, h1, h2⟩ := (storeOperand_ok_iff s m v t).mp h
  obtain ⟨w1, rfl⟩ := effAddr_world _ _ _ _ h1
  obtain ⟨w2, rfl⟩ := memWrite_world h2
  exact ⟨w2, rfl⟩

/-- A read-modify-write of memory sets `P` to what its function says of the byte read (R260). -/
theorem modifyMem_world {s t : State} {m : MemOperand} {f : Byte → Byte → Byte × Byte} (h : modifyMem s m f = .ok t) :
    ∃ v w, t = (s.setP (f s.p v).2).setWorld w := by
  obtain ⟨e, s1, v, s2, h1, h2, h3⟩ := (modifyMem_ok_iff s m f t).mp h
  obtain ⟨w1, rfl⟩ := effAddr_world _ _ _ _ h1
  obtain ⟨w2, rfl⟩ := memRead_world h2
  obtain ⟨w3, rfl⟩ := memWrite_world h3
  exact ⟨v, w3, rfl⟩

end Sys2Proof.Machine
end

section
/-! PROOFS. O57: what every step keeps of the memory, the observer lists and the configuration, and bit 5 of `P`. -/

namespace Sys2Proof.Machine

open Sys2Proof.Safety

/-! ## The world -/

/-- An observer list stays free of repetitions under a registration: who is in it already is not added (R94). -/
theorem nodup_append_unless_mem (l : List ChipId) (o : ChipId) (h : l.Nodup) :
    (if l.contains o then l else l ++ [o]).Nodup := by
  split
  · exact h
  · rename_i ho
    rw [← List.concat_eq_append]
    exact h.concat (by simpa using ho)

/-- Changing one observer list to a list without repetitions keeps the others as they are (R94). -/
theorem observersOnce_modify (w : World) (n : ChipId) (f : List ChipId → List ChipId)
    (hf : ∀ l, l.Nodup → (f l).Nodup) (h : observersOnce w = true) :
    observersOnce { w with observers := w.observers.modify n f } = true := by
  simp only [observersOnce, List.all_eq_true, decide_eq_true_eq] at h ⊢
  intro l hl
  obtain ⟨i, hi⟩ := List.mem_iff_getElem?.mp hl
  rw [List.getElem?_modify] at hi
  obtain ⟨l0, hl0, rfl⟩ := Option.map_eq_some_iff.mp hi
  have h0 := h l0 (List.mem_of_getElem? hl0)
  split
  · exact hf l0 h0
  · exact h0

/-- Each observer stays registered once under every action of a handler (R94). -/
theorem observersOnce_kept (pl : Platform) : WorldKept pl (fun w => observersOnce w = true) where
  dev _ _ h := h
  active _ _ _ h := h
  put _ _ _ _ _ h := h
  request w l b h := by rwa [observersOnce, setRequest_observers]
  observe w n o h := observersOnce_modify w n _ (fun l => nodup_append_unless_mem l o) h
  unobserve w n o h := observersOnce_modify w n _ (fun _ hl => hl.filter _) h

/-- What the actions of R101 keep of the world, every operation of a step keeps: none of them changes the world but by an
access, or by a request latch. -/
theorem opsKeep_of_worldKept {Q : World → Prop} (pl : Platform) (hQ : WorldKept pl Q) :
    OpsKeep (fun s => s.plat = pl ∧ Q s.world) (fun _ => True) where
  cpu hs hc := ⟨hc.plat.trans hs.1, hc.world ▸ hs.2⟩
  read s a hs := by
    obtain ⟨rfl, hw⟩ := hs
    cases h : memRead s a with
    | error e => trivial
    | ok r =>
      obtain ⟨w, hr⟩ := memRead_world h
      exact ⟨by rw [hr]; rfl, memRead_keeps s hQ a r.1 r.2 h hw⟩
  write s a v hs := by
    obtain ⟨rfl, hw⟩ := hs
    cases h : memWrite s a v with
    | error e => trivial
    | ok t =>
      obtain ⟨w, rfl⟩ := memWrite_world h
      exact ⟨rfl, memWrite_keeps s hQ a v _ h hw⟩
  request s l b hs := ⟨hs.1, hQ.request s.world l b hs.2⟩
  decimal _ _ _ := trivial

/-- A step keeps of the world what the actions of R101 keep. -/
theorem step_keeps_world {Q : World → Prop} {s t : State} (hQ : WorldKept s.plat Q) (h : step s = .next t)
    (hs : Q s.world) : Q t.world := by
  obtain ⟨-, ht⟩ := ((opsKeep_of_worldKept s.plat hQ).step (fun _ _ hs => hs) (fun _ hs => hs) s ⟨rfl, hs⟩).of_next h
  exact ht

/-! ## Bit 5 of `P` -/

/-- A read-modify-write function that leaves bit 5 of the status byte (R27). -/
def KeepsBit5 (f : Byte → Byte → Byte × Byte) : Prop := ∀ p v, (f p v).2.getLsbD 5 = p.getLsbD 5

/-- A shift writes C, then N and Z (R250 to R253). -/
theorem putNZ_putFlag_bit5 (p r : Byte) (c : Bool) : (putNZ (putFlag p .c c) r).getLsbD 5 = p.getLsbD 5 := by
  rw [putNZ_bit5, putFlag_bit5]

theorem keepsBit5_aslF : KeepsBit5 aslF := fun p _ => putNZ_putFlag_bit5 p _ _
theorem keepsBit5_lsrF : KeepsBit5 lsrF := fun p _ => putNZ_putFlag_bit5 p _ _
theorem keepsBit5_rolF : KeepsBit5 rolF := fun p _ => putNZ_putFlag_bit5 p _ _
theorem keepsBit5_rorF : KeepsBit5 rorF := fun p _ => putNZ_putFlag_bit5 p _ _
theorem keepsBit5_incF : KeepsBit5 incF := fun p _ => putNZ_bit5 p _
theorem keepsBit5_decF : KeepsBit5 decF := fun p _ => putNZ_bit5 p _

theorem modifyMem_bit5 {s t : State} {m : MemOperand} {f : Byte → Byte → Byte × Byte} (hf : KeepsBit5 f)
    (h : modifyMem s m f = .ok t) : t.p.getLsbD 5 = s.p.getLsbD 5 := by
  obtain ⟨v, w, rfl⟩ := modifyMem_world h
  exact hf s.p v

theorem modifyShift_bit5 {s t : State} {o : ShiftOperand} {f : Byte → Byte → Byte × Byte} (hf : KeepsBit5 f)
    (h : modifyShift s f o = .ok t) : t.p.getLsbD 5 = s.p.getLsbD 5 := by
  cases o with
  | acc => cases h; exact hf s.p s.a
  | mem m => exact modifyMem_bit5 hf h

/-- A read-class instruction that keeps bit 5 once it has its operand keeps bit 5 (R173). -/
theorem readClass_bit5 {s t : State} {o : Operand} (f : Byte → State → State)
    (hf : ∀ v s, (f v s).p.getLsbD 5 = s.p.getLsbD 5)
    (h : outcome (do let (v, s) ← loadOperand s o; pure (f v s)) = .next t) : t.p.getLsbD 5 = s.p.getLsbD 5 := by
  obtain ⟨⟨v, s1⟩, h1, h2⟩ := (bind_ok_iff _ _ _).mp ((outcome_next_iff _ _).mp h)
  obtain ⟨n, w, -, rfl⟩ := loadOperand_world s o v s1 h1
  cases h2
  exact hf v _

/-- ADC and SBC write four flags, whichever of their two results they take (R225 to R227). -/
theorem arithmetic_bit5 {s t : State} {o : Operand} (dec bin : Byte → State → AluResult)
    (h : outcome (do
      let (m, s) ← loadOperand s o
      if s.flag .d then
        match s.plat.params.decimalArith with
        | .refuse => .error (.refusal .decimalMode)
        | .nmos6502 => pure (s.setArith (dec m s))
      else pure (s.setArith (bin m s))) = .next t) : t.p.getLsbD 5 = s.p.getLsbD 5 := by
  obtain ⟨⟨v, s1⟩, h1, h2⟩ := (bind_ok_iff _ _ _).mp ((outcome_next_iff _ _).mp h)
  obtain ⟨n, w, -, rfl⟩ := loadOperand_world s o v s1 h1
  dsimp only at h2
  split at h2
  · split at h2
    · cases h2
    · cases h2; exact putArith_bit5 _ _
  · cases h2; exact putArith_bit5 _ _

theorem enterException_bit5 {s t : State} {ret : Word} {status : Byte} {setI : Bool} {vector : Word}
    (h : enterException s ret status setI vector = .ok t) : t.p.getLsbD 5 = s.p.getLsbD 5 := by
  obtain ⟨w, target, rfl⟩ := enterException_world h
  cases setI with
  | false => rfl
  | true => exact putFlag_bit5 s.p .i true

theorem branch_p (s : State) (cond : Bool) (off : Byte) : (branch s cond off).p = s.p := by
  rcases branch_cases s cond off with ⟨-, h⟩ | ⟨-, n, -, h⟩ <;> rw [h]
  rfl

/-- Every instruction keeps bit 5 of `P` at 1: PLP and RTI set it, every other leaves it (R27). -/
theorem exec_bit5 {i : Instr} {s t : State} (h : exec i s = .next t) (hs : s.p.getLsbD 5 = true) :
    t.p.getLsbD 5 = true := by
  cases i with
  | lda o => exact (readClass_bit5 (fun v s => (s.setA v).setNZ v) (fun v s => putNZ_bit5 s.p v) h).trans hs
  | ldx o => exact (readClass_bit5 (fun v s => (s.setX v).setNZ v) (fun v s => putNZ_bit5 s.p v) h).trans hs
  | ldy o => exact (readClass_bit5 (fun v s => (s.setY v).setNZ v) (fun v s => putNZ_bit5 s.p v) h).trans hs
  | and o =>
    have h5 := readClass_bit5 (fun v s => (s.setA (s.a &&& v)).setNZ (s.a &&& v)) (fun _ s => putNZ_bit5 s.p _) h
    exact h5.trans hs
  | ora o =>
    have h5 := readClass_bit5 (fun v s => (s.setA (s.a ||| v)).setNZ (s.a ||| v)) (fun _ s => putNZ_bit5 s.p _) h
    exact h5.trans hs
  | eor o =>
    have h5 := readClass_bit5 (fun v s => (s.setA (s.a ^^^ v)).setNZ (s.a ^^^ v)) (fun _ s => putNZ_bit5 s.p _) h
    exact h5.trans hs
  | bit m =>
    have h5 := readClass_bit5 (o := .mem m) (fun v s => s.setP (putBit s.p s.a v)) (fun v s => putBit_bit5 s.p s.a v) h
    exact h5.trans hs
  | cmp o => exact (readClass_bit5 (fun v s => s.compare s.a v) (fun v s => putCompare_bit5 s.p s.a v) h).trans hs
  | cpx o => exact (readClass_bit5 (fun v s => s.compare s.x v) (fun v s => putCompare_bit5 s.p s.x v) h).trans hs
  | cpy o => exact (readClass_bit5 (fun v s => s.compare s.y v) (fun v s => putCompare_bit5 s.p s.y v) h).trans hs
  | adc o =>
    have h5 := arithmetic_bit5 (fun m s => addDecimal s.a m (s.flag .c)) (fun m s => add8 s.a m (s.flag .c)) h
    exact h5.trans hs
  | sbc o =>
    have h5 := arithmetic_bit5 (fun m s => subDecimal s.a m (s.flag .c)) (fun m s => sub8 s.a m (s.flag .c)) h
    exact h5.trans hs
  | sta | stx | sty =>
    obtain ⟨w, rfl⟩ := storeOperand_world ((outcome_next_iff _ _).mp h)
    exact hs
  | asl => exact (modifyShift_bit5 keepsBit5_aslF ((outcome_next_iff _ _).mp h)).trans hs
  | lsr => exact (modifyShift_bit5 keepsBit5_lsrF ((outcome_next_iff _ _).mp h)).trans hs
  | rol => exact (modifyShift_bit5 keepsBit5_rolF ((outcome_next_iff _ _).mp h)).trans hs
  | ror => exact (modifyShift_bit5 keepsBit5_rorF ((outcome_next_iff _ _).mp h)).trans hs
  | inc => exact (modifyMem_bit5 keepsBit5_incF ((outcome_next_iff _ _).mp h)).trans hs
  | dec => exact (modifyMem_bit5 keepsBit5_decF ((outcome_next_iff _ _).mp h)).trans hs
  | tax | tay | txa | tya | tsx | inx | iny | dex | dey => cases h; exact (putNZ_bit5 s.p _).trans hs
  | clc | sec | cli | sei | cld | sed | clv => cases h; exact (putFlag_bit5 s.p _ _).trans hs
  | bpl | bmi | bvc | bvs | bcc | bcs | bne | beq => cases h; rw [branch_p]; exact hs
  | txs | jmpAbs | nop | undef | jam => cases h; exact hs
  | pha | php =>
    obtain ⟨w, rfl⟩ := push8_world ((outcome_next_iff _ _).mp h)
    exact hs
  | pla =>
    obtain ⟨⟨v, s1⟩, h1, h2⟩ := (bind_ok_iff _ _ _).mp ((outcome_next_iff _ _).mp h)
    obtain ⟨w, rfl⟩ := pull8_world h1
    cases h2
    exact (putNZ_bit5 s.p v).trans hs
  | plp =>
    obtain ⟨⟨v, s1⟩, h1, h2⟩ := (bind_ok_iff _ _ _).mp ((outcome_next_iff _ _).mp h)
    cases h2
    exact loadStatus_bit5 v
  | jmpInd =>
    obtain ⟨⟨x, s1⟩, h1, h2⟩ := (bind_ok_iff _ _ _).mp ((outcome_next_iff _ _).mp h)
    obtain ⟨w, rfl⟩ := memReadPair_world _ _ _ _ _ h1
    cases h2
    exact hs
  | jsr =>
    obtain ⟨s1, h1, h2⟩ := (bind_ok_iff _ _ _).mp ((outcome_next_iff _ _).mp h)
    obtain ⟨w, rfl⟩ := push16_world h1
    cases h2
    exact hs
  | rts =>
    obtain ⟨⟨x, s1⟩, h1, h2⟩ := (bind_ok_iff _ _ _).mp ((outcome_next_iff _ _).mp h)
    obtain ⟨w, rfl⟩ := pull16_world h1
    cases h2
    exact hs
  | brk => exact (enterException_bit5 ((outcome_next_iff _ _).mp h)).trans hs
  | rti =>
    obtain ⟨v, w, target, rfl⟩ := returnFromException_world ((outcome_next_iff _ _).mp h)
    exact loadStatus_bit5 v

theorem service_bit5 {s t : State} {l : Line} (h : service s l = .ok t) : t.p.getLsbD 5 = s.p.getLsbD 5 := by
  obtain ⟨s1, h1, rfl⟩ := (service_ok_iff s l t).mp h
  exact enterException_bit5 (t := s1) h1

theorem pollInterrupts_bit5 {s t : State} (h : pollInterrupts s = .ok t) : t.p.getLsbD 5 = s.p.getLsbD 5 := by
  rcases pollInterrupts_cases s t h with ⟨-, h⟩ | ⟨-, -, h⟩ | ⟨-, -, rfl⟩
  · exact service_bit5 h
  · exact service_bit5 h
  · rfl

/-- The end of a step leaves bit 5, and nothing of the bound instruction or of a jam (R34, R35). -/
theorem endStep_inv {s t : State} (h : endStep s = .ok t) :
    t.p.getLsbD 5 = s.p.getLsbD 5 ∧ t.jamNow = false ∧ t.pagePenalty = false := by
  obtain ⟨u, hu, rfl⟩ := (endStep_ok_iff s t).mp h
  refine ⟨?_, rfl, rfl⟩
  split at hu
  · cases hu; rfl
  · exact pollInterrupts_bit5 (t := u) hu

theorem step_plat {s t : State} (h : step s = .next t) : t.plat = s.plat := (stepAdvancesTheClock.1 s t h).2.1

/-- Settles O57: the world by the rule for a step, bit 5 instruction by instruction, the transient values by the end of the
step. -/
theorem stepKeepsInvariant : Obligations.StepKeepsInvariant := by
  intro s t hs h
  obtain ⟨T, ps, s1, s2, hf, hx, he⟩ := (step_next_iff s t).mp h
  obtain ⟨w, rfl⟩ := fetch_world hf
  obtain ⟨h5, htransient⟩ := endStep_inv he
  exact {
    bit5 := h5.trans (exec_bit5 hx hs.bit5)
    memory := step_keeps_world (memoryWf_kept s.plat) h hs.memory
    observers := step_keeps_world (observersOnce_kept s.plat) h hs.observers
    configuration := by
      rw [step_plat h]
      exact step_keeps_world (admitted_kept s.plat) h hs.configuration
    transient := htransient }

end Sys2Proof.Machine
end

section
/-! PROOFS. O38, O39, O46, O47, O53: pulls from ordinary memory, and pulls after pushes (R79 to R83, R283, R284, R330, R331,
R360). -/

namespace Sys2Proof.Machine

open Sys2Proof.Safety

/-! ## Pulls from ordinary memory -/

/-- A pull from ordinary memory answers the byte that memory shows and changes `SP` and the anomaly alone (R66, R80). -/
theorem pull8_of_peek {s : State} {v : Byte} (h : s.peek (s.stackAddr (s.sp + 1#8)) = some v) :
    pull8 s = .ok (v, s.pulled 1) := by
  rw [pull8_ok_iff, State.pulled_one]
  exact memRead_of_peek (s.pulled 1) _ v h

theorem pull16_of_peek {s : State} {lo hi : Byte} (hlo : s.peek (s.stackAddr (s.sp + 1#8)) = some lo)
    (hhi : s.peek (s.stackAddr (s.sp + 2#8)) = some hi) : pull16 s = .ok (wordOf hi lo, s.pulled 2) := by
  have hsp : (s.pulled 1).sp + 1#8 = s.sp + 2#8 := BitVec.add_assoc s.sp 1#8 1#8
  have hpull : pull8 (s.pulled 1) = .ok (hi, (s.pulled 1).pulled 1) := pull8_of_peek (by rw [hsp]; exact hhi)
  rw [State.pulled_pulled] at hpull
  exact (pull16_ok_iff s _ _).mpr ⟨lo, s.pulled 1, hi, pull8_of_peek hlo, hpull, rfl⟩

theorem returnFromException_of_peek {s : State} {v lo hi : Byte} (hv : s.peek (s.stackAddr (s.sp + 1#8)) = some v)
    (hlo : s.peek (s.stackAddr (s.sp + 2#8)) = some lo) (hhi : s.peek (s.stackAddr (s.sp + 3#8)) = some hi) :
    returnFromException s = .ok (((s.pulled 3).loadStatus v).setPc (wordOf hi lo)) := by
  have hsp1 : (s.pulled 1).sp + 1#8 = s.sp + 2#8 := BitVec.add_assoc s.sp 1#8 1#8
  have hsp2 : (s.pulled 1).sp + 2#8 = s.sp + 3#8 := BitVec.add_assoc s.sp 1#8 2#8
  have hpull : pull16 ((s.pulled 1).loadStatus v) = .ok (wordOf hi lo, ((s.pulled 1).pulled 2).loadStatus v) :=
    pull16_of_peek (s := (s.pulled 1).loadStatus v) (by rw [State.loadStatus_sp, hsp1]; exact hlo)
      (by rw [State.loadStatus_sp, hsp2]; exact hhi)
  rw [State.pulled_pulled] at hpull
  exact (returnFromException_ok_iff s _).mpr ⟨v, s.pulled 1, _, _, pull8_of_peek hv, hpull, rfl⟩

theorem exec_pla_of_peek {s : State} {v : Byte} (h : s.peek (s.stackAddr (s.sp + 1#8)) = some v) :
    exec .pla s = .next (((s.pulled 1).setA v).setNZ v) :=
  (outcome_next_iff _ _).mpr ((bind_ok_iff _ _ _).mpr ⟨_, pull8_of_peek h, rfl⟩)

theorem exec_plp_of_peek {s : State} {v : Byte} (h : s.peek (s.stackAddr (s.sp + 1#8)) = some v) :
    exec .plp s = .next ((s.pulled 1).loadStatus v) :=
  (outcome_next_iff _ _).mpr ((bind_ok_iff _ _ _).mpr ⟨_, pull8_of_peek h, rfl⟩)

theorem exec_rti_of_peek {s : State} {v lo hi : Byte} (hv : s.peek (s.stackAddr (s.sp + 1#8)) = some v)
    (hlo : s.peek (s.stackAddr (s.sp + 2#8)) = some lo) (hhi : s.peek (s.stackAddr (s.sp + 3#8)) = some hi) :
    exec .rti s = .next (((s.pulled 3).loadStatus v).setPc (wordOf hi lo)) :=
  (outcome_next_iff _ _).mpr (returnFromException_of_peek hv hlo hhi)

/-- One pull wraps where `SP` was 0xFF (R83). -/
theorem State.pulled_one_stackAnomaly (s : State) :
    (s.pulled 1).stackAnomaly = (s.stackAnomaly || decide (s.sp = 0xFF#8)) := by
  rw [← State.pulled_one]; rfl

/-- Pulls change no byte register but `SP`. -/
theorem regOf_pulled (s : State) (n : Nat) (r : Reg) (hr : r ≠ .sp) : regOf (s.pulled n) r = regOf s r := by
  cases r with
  | a | x | y => rfl
  | sp => exact absurd rfl hr

/-- PLA writes `A` and the flags N and Z beyond what the pull does (R283). -/
theorem pla_kept (s : State) (v : Byte) :
    CpuKept s (((s.pulled 1).setA v).setNZ v) [.a, .sp] [.n, .z] (decide (s.sp = 0xFF#8)) where
  regs r hr := by
    cases r with
    | x | y => rfl
    | a | sp => simp at hr
  flags f hf := by
    have hn : f ≠ .n := fun h => hf (by simp [h])
    have hz : f ≠ .z := fun h => hf (by simp [h])
    exact (getFlag_putNZ s.p v f).trans (by rw [if_neg hz, if_neg hn]; rfl)
  bit5 := putNZ_bit5 s.p v
  anomaly := s.pulled_one_stackAnomaly
  latches _ := rfl
  clk := rfl
  jamNow := rfl
  pagePenalty := rfl
  plat := rfl

/-- Settles O38: the pull, and then what PLA and PLP do with the byte. -/
theorem pullInstructions : Obligations.PullInstructions := by
  intro s v h
  refine ⟨⟨_, exec_pla_of_peek h, rfl, rfl, getFlag_putNZ s.p v .n, getFlag_putNZ s.p v .z, pla_kept s v, rfl, rfl,
    memKept_of_world s _ rfl rfl⟩, ⟨_, exec_plp_of_peek h, rfl, rfl, fun r hr => ?_, s.pulled_one_stackAnomaly,
    fun _ => rfl, rfl, rfl, rfl, rfl, rfl, rfl, memKept_of_world s _ rfl rfl⟩⟩
  exact (show regOf ((s.pulled 1).loadStatus v) r = regOf (s.pulled 1) r by cases r <;> rfl).trans (regOf_pulled s 1 r hr)

/-- Settles O46: three pulls in order; the anomaly is that of all three. -/
theorem returnFromInterrupt : Obligations.ReturnFromInterrupt := by
  intro s v lo hi hv hlo hhi
  have hwrap : decide (256 ≤ s.sp.toNat + 3) = decide (253 ≤ s.sp.toNat) := by
    rw [decide_eq_decide]; omega
  have hregs : ∀ r, regOf (((s.pulled 3).loadStatus v).setPc (wordOf hi lo)) r = regOf (s.pulled 3) r := by
    intro r; cases r <;> rfl
  exact ⟨_, exec_rti_of_peek hv hlo hhi, rfl, rfl, rfl, fun r hr => (hregs r).trans (regOf_pulled s 3 r hr),
    (s.pulled_stackAnomaly 3).trans (by rw [hwrap]), fun _ => rfl, rfl, rfl, rfl, rfl, rfl, memKept_of_world s _ rfl rfl⟩

/-! ## Pushes to plain memory -/

/-- A store changes memory only at the addresses that show the byte stored (R63, R67). -/
structure StoredAt (s : State) (a : Word) (v : Byte) (w : World) : Prop where
  active : w.active = s.world.active
  shows : ∀ b, (s.setWorld w).peek b = if s.locate b = s.locate a then some v else s.peek b

theorem memWrite_storedAt {s : State} {a : Word} (v : Byte) (h : Writable s a) :
    ∃ w, memWrite s a v = .ok (s.setWorld w) ∧ StoredAt s a v w := by
  obtain ⟨id, k, hl, hs, ht⟩ := memWrite_of_writable s a v h
  exact ⟨_, ht, rfl, peek_putStorage s a id k v hl hs⟩

/-- Memory that stores change is ordinary memory in a plain subset. -/
theorem writable_iff (s : State) (a : Word) :
    Writable s a ↔ Ordinary s a ∧ ∃ u, resolve s.plat s.world a = .ok u ∧ u.kind = .plain := by
  have hpeek : ∀ u, resolve s.plat s.world a = .ok u → u.kind = .plain →
      s.peek a = storageByte s.world u.storage (viewIndex u a) := by
    intro u hu hk
    simp [State.peek, peekByte, hu, hk]
  constructor
  · rintro ⟨u, hu, hk, hb⟩
    exact ⟨by rwa [Ordinary, hpeek u hu hk], u, hu, hk⟩
  · rintro ⟨hord, u, hu, hk⟩
    exact ⟨u, hu, hk, by rwa [Ordinary, hpeek u hu hk] at hord⟩

/-- A store leaves ordinary memory ordinary. -/
theorem StoredAt.ordinary {s : State} {a : Word} {v : Byte} {w : World} (h : StoredAt s a v w) {b : Word}
    (hb : Ordinary s b) : Ordinary (s.setWorld w) b := by
  rw [Ordinary, h.shows b]
  split
  · rfl
  · exact hb

/-- A store moves no view (R63), so the stack stays as R82 requires. -/
theorem StoredAt.stackReady {s : State} {a : Word} {v : Byte} {w : World} (h : StoredAt s a v w) (hs : StackReady s) :
    StackReady (s.setWorld w) where
  plain sp := by
    obtain ⟨hord, u, hu, hk⟩ := (writable_iff s _).mp (hs.plain sp)
    exact (writable_iff _ _).mpr ⟨h.ordinary hord, u, (resolve_congr s.plat h.active _).trans hu, hk⟩
  separate sp sp' heq := by
    have hloc : ∀ b, (s.setWorld w).locate b = s.locate b := locate_congr s.plat h.active
    rw [hloc, hloc] at heq
    exact hs.separate sp sp' heq

/-- A push to plain memory stores the byte at `STACK_BASE + SP` (R79). -/
theorem push8_storedAt {s : State} (v : Byte) (h : Writable s (s.stackAddr s.sp)) :
    ∃ w, push8 s v = .ok ((s.pushed 1).setWorld w) ∧ StoredAt s (s.stackAddr s.sp) v w := by
  obtain ⟨w, hw, hst⟩ := memWrite_storedAt v h
  refine ⟨w, (push8_ok_iff s v _).mpr ⟨s.setWorld w, hw, ?_⟩, hst⟩
  rw [← State.pushed_one]; rfl

/-- A pull right after a push finds the byte pushed, for every `SP` (R79, R80). -/
theorem StoredAt.peek_pushed {s : State} {v : Byte} {w : World} (h : StoredAt s (s.stackAddr s.sp) v w) :
    ((s.pushed 1).setWorld w).peek (s.stackAddr (s.sp - 1#8 + 1#8)) = some v := by
  rw [BitVec.sub_add_cancel]
  exact (h.shows _).trans (if_pos rfl)

/-- PHP's pushed copy is what PLP makes of it: bits 5 and 4 are set already (R284, R290). -/
theorem pushedByProgram_or (p : Byte) : pushedByProgram p ||| 0x20#8 = p ||| 0x30#8 := by
  rw [pushedByProgram, BitVec.or_assoc]; rfl

theorem pushedByInterrupt_or (p : Byte) : pushedByInterrupt p ||| 0x20#8 = (p &&& 0xEF#8) ||| 0x20#8 := by
  rw [pushedByInterrupt, BitVec.or_assoc, BitVec.or_self]

/-- Settles O39: each pull reads the byte that the push stored. -/
theorem pushThenPullRestores : Obligations.PushThenPullRestores := by
  intro s h
  constructor
  · obtain ⟨w, hpush, hst⟩ := push8_storedAt s.a h
    exact ⟨_, _, (outcome_next_iff _ _).mpr hpush, exec_pla_of_peek hst.peek_pushed, rfl, BitVec.sub_add_cancel s.sp 1#8⟩
  · obtain ⟨w, hpush, hst⟩ := push8_storedAt (pushedByProgram s.p) h
    exact ⟨_, _, (outcome_next_iff _ _).mpr hpush, exec_plp_of_peek hst.peek_pushed, pushedByProgram_or s.p,
      BitVec.sub_add_cancel s.sp 1#8⟩

/-! ## Context saves -/

/-- In world `w` the bytes `l` lie where pushing them in order from `s` puts them (R79), the stack is as R82 requires, and
ordinary memory is ordinary. -/
structure OnStack (s : State) (l : List Byte) (w : World) : Prop where
  ready : StackReady (s.setWorld w)
  ordinary : ∀ b, Ordinary s b → Ordinary (s.setWorld w) b
  shows : ∀ k v, l[k]? = some v → (s.setWorld w).peek (s.stackAddr (s.sp - BitVec.ofNat 8 k)) = some v

theorem OnStack.nil {s : State} (h : StackReady s) : OnStack s [] s.world := ⟨h, fun _ hb => hb, fun _ _ h => by simp at h⟩

/-- One push more: it goes below the bytes pushed before, whose storage bytes are others (R63, R82). -/
theorem OnStack.push {s : State} {l : List Byte} {w : World} (h : OnStack s l w) (hlen : l.length < 256) (v : Byte) :
    ∃ w', push8 ((s.pushed l.length).setWorld w) v = .ok ((s.pushed (l.length + 1)).setWorld w') ∧
      OnStack s (l ++ [v]) w' := by
  obtain ⟨w', hpush, hst⟩ := push8_storedAt (s := (s.pushed l.length).setWorld w) v (h.ready.plain _)
  have hst' : StoredAt (s.setWorld w) (s.stackAddr (s.sp - BitVec.ofNat 8 l.length)) v w' :=
    ⟨hst.active, hst.shows⟩
  refine ⟨w', ?_, hst'.stackReady h.ready, fun b hb => hst'.ordinary (h.ordinary b hb), fun k x hk => ?_⟩
  · rw [← s.pushed_pushed l.length 1 hlen.le]
    exact hpush
  · refine (hst'.shows _).trans ?_
    rcases Nat.lt_trichotomy k l.length with hlt | rfl | hgt
    · rw [List.getElem?_append_left hlt] at hk
      rw [if_neg, h.shows k x hk]
      intro heq
      have hne := h.ready.separate _ _ heq
      bv_omega
    · rw [List.getElem?_concat_length] at hk
      rw [if_pos rfl, hk]
    · simp [List.getElem?_append_right hgt.le, Nat.sub_ne_zero_of_lt hgt] at hk

/-- Entering an exception answers where the stack is ready and the vector ordinary, with the return address and the status
on the stack (R330, R360). -/
theorem enterException_onStack {s : State} (ret : Word) (status : Byte) (setI : Bool) {vector : Word}
    (hs : StackReady s) (h0 : Ordinary s vector) (h1 : Ordinary s (vector + 1#16)) :
    ∃ w target, enterException s ret status setI vector =
        .ok ((((s.pushed 3).setP (if setI then putFlag s.p .i true else s.p)).setWorld w).setPc target) ∧
      OnStack s [hiByte ret, loByte ret, status] w := by
  obtain ⟨w1, hp1, hw1⟩ := (OnStack.nil hs).push (Nat.zero_lt_succ _) (hiByte ret)
  obtain ⟨w2, hp2, hw2⟩ := hw1.push (show 1 < 256 by decide) (loByte ret)
  obtain ⟨w3, hp3, hw3⟩ := hw2.push (show 2 < 256 by decide) status
  rw [List.length_nil, State.pushed_zero] at hp1
  obtain ⟨lo, hlo⟩ := Option.isSome_iff_exists.mp (hw3.ordinary _ h0)
  obtain ⟨hi, hhi⟩ := Option.isSome_iff_exists.mp (hw3.ordinary _ h1)
  refine ⟨w3, wordOf hi lo, (enterException_ok_iff s ret status setI vector _).mpr
    ⟨(s.pushed 2).setWorld w2, (s.pushed 3).setWorld w3, wordOf hi lo, _, ?_, hp3, ?_, rfl⟩, hw3⟩
  · exact (push16_ok_iff s ret _).mpr ⟨(s.pushed 1).setWorld w1, hp1, hp2⟩
  · cases setI <;> exact memReadPair_of_peek _ vector (vector + 1#16) lo hi hlo hhi

/-- RTI takes back a context save: status, return address and `SP` (R331, R366). -/
theorem exec_rti_of_onStack {s t : State} {ret : Word} {status : Byte} {w : World}
    (h : OnStack s [hiByte ret, loByte ret, status] w) (hpeek : t.peek = (s.setWorld w).peek) (hp : t.plat = s.plat)
    (hsp : t.sp = s.sp - 3#8) :
    exec .rti t = .next (((t.pulled 3).loadStatus status).setPc ret) := by
  have haddr : ∀ (i : Byte) (k : Nat), i + BitVec.ofNat 8 k = 3#8 →
      t.stackAddr (t.sp + i) = s.stackAddr (s.sp - BitVec.ofNat 8 k) := by
    intro i k hk
    have : t.sp + i = s.sp - BitVec.ofNat 8 k := by rw [hsp, ← hk]; bv_omega
    rw [State.stackAddr, hp, this]; rfl
  have hshows : ∀ (i : Byte) (k : Nat) (v : Byte), i + BitVec.ofNat 8 k = 3#8 →
      [hiByte ret, loByte ret, status][k]? = some v → t.peek (t.stackAddr (t.sp + i)) = some v := by
    intro i k v hk hv
    rw [hpeek, haddr i k hk]
    exact h.shows k v hv
  rw [exec_rti_of_peek (hshows 1#8 2 status rfl rfl) (hshows 2#8 1 (loByte ret) rfl rfl)
    (hshows 3#8 0 (hiByte ret) rfl rfl), wordOf_hi_lo]

/-- Settles O47: BRK leaves on the stack what RTI takes back. -/
theorem breakThenReturn : Obligations.BreakThenReturn := by
  intro s hs h0 h1
  obtain ⟨w, target, hent, hw⟩ := enterException_onStack (s.pc + 1#16) (pushedByProgram s.p) true hs h0 h1
  have hbrk : exec .brk s = .next _ := (outcome_next_iff _ _).mpr hent
  refine ⟨_, _, hbrk, exec_rti_of_onStack hw rfl rfl rfl, ?_, ?_, pushedByProgram_or s.p, ?_, ?_, ?_⟩ <;> simp

/-- Clearing a request changes nothing that memory shows. -/
theorem peek_setRequest (s : State) (w : World) (l : Line) (b : Bool) :
    (s.setWorld (w.setRequest l b)).peek = (s.setWorld w).peek := by
  cases l <;> rfl

/-- Settles O53: service leaves on the stack what RTI takes back; clearing the request does not touch it. -/
theorem serviceThenReturn : Obligations.ServiceThenReturn := by
  intro s l hs h0 h1
  obtain ⟨w, target, hent, hw⟩ := enterException_onStack s.pc (pushedByInterrupt s.p)
    (l == .irq || s.plat.params.nmiSetsI) hs h0 h1
  have hserve := (service_ok_iff s l _).mpr ⟨_, hent, rfl⟩
  refine ⟨_, _, hserve, exec_rti_of_onStack hw (peek_setRequest s w l false) rfl rfl, ?_, ?_, pushedByInterrupt_or s.p,
    ?_, ?_, ?_⟩ <;> simp

end Sys2Proof.Machine
end

section
/-! PROOFS. O49: the jam, a step at a byte of `JAMSET`, and where a run ends (R35, R129, R334, R416). -/

namespace Sys2Proof.Machine

open Sys2Proof.Safety

/-- An access changes the world alone, whatever handlers it runs (R101). -/
theorem sameCpu_setWorld (s : State) (w : World) : SameCpu s (s.setWorld w) :=
  ⟨rfl, rfl, rfl, rfl, rfl, rfl, rfl, rfl, rfl, rfl, rfl, rfl⟩

/-- `PC` is none of what `CpuKept` speaks of. -/
theorem cpuKept_setPc (s : State) (x : Word) : CpuKept s (s.setPc x) [] [] false where
  regs r _ := by cases r <;> rfl
  flags _ _ := rfl
  bit5 := rfl
  anomaly := (Bool.or_false _).symm
  latches _ := rfl
  clk := rfl
  jamNow := rfl
  pagePenalty := rfl
  plat := rfl

theorem jams_iff (pr : Params) (op : Byte) : pr.jams op = true ↔ op ∈ pr.jamSet := List.contains_iff_mem

/-- The CPU is jammed exactly where a load at `PC` answers a member of `JAMSET` (R35, log 25). -/
theorem jammed_iff (s : State) : jammed s = true ↔ ∃ op s', memRead s s.pc = .ok (op, s') ∧ op ∈ s.plat.params.jamSet := by
  unfold jammed
  cases h : memRead s s.pc with
  | error e => simp
  | ok r => simp [jams_iff, Prod.ext_iff]

theorem runEnds_iff (s : State) : runEnds s = true ↔ Jammed s ∧ s.plat.params.jamBlocksInterrupts = true := by
  rw [runEnds, Bool.and_eq_true]

/-- A byte of `JAMSET` at `PC` is fetched with one load, and selects the jam (R122, R129). -/
theorem fetch_jam {s s' : State} {op : Byte} (h : memRead s s.pc = .ok (op, s')) (hop : s.plat.params.jams op = true) :
    fetch s = .ok ((⟨.jam, 1, s.plat.params.jamCycles, false⟩, []), s') := by
  obtain ⟨w, rfl⟩ := memRead_world h
  refine (fetch_ok_iff _ _ _ _).mpr ⟨op, _, h, .inl ⟨prefixOf_jam _ op hop, (optable_jam _ op hop).symm, rfl⟩⟩

/-- A step at a byte of `JAMSET`, where the platform lets a jam block interrupts: `PC` goes past the byte and back, no poll
follows, and the clock takes the jam's cycles (R130, R334). -/
theorem step_jam {s s' : State} {op : Byte} (h : memRead s s.pc = .ok (op, s')) (hop : s.plat.params.jams op = true)
    (hblock : s.plat.params.jamBlocksInterrupts = true) :
    step s = .next { s' with
      clk := s.clk + s.plat.params.jamCycles
      cycles := s.plat.params.jamCycles
      jamNow := false
      pagePenalty := false } := by
  have hf := fetch_jam h hop
  obtain ⟨w, rfl⟩ := memRead_world h
  refine (step_next_iff _ _).mpr ⟨_, _, _, _, hf, rfl, (endStep_ok_iff _ _).mpr ⟨_, if_pos ?_, ?_⟩⟩
  · simpa using hblock
  · have hpc : s.pc + BitVec.ofNat 16 1 - 1#16 = s.pc := BitVec.add_sub_cancel s.pc 1#16
    simp [State.closeStep, State.setJam, State.setPc, State.setWorld, beginExecute, hpc]

/-! ## Runs -/

/-- A run from a state that ends runs takes no turn (R416 (b), log 28). -/
theorem run_of_runEnds {s : State} (h : runEnds s = true) (n : Nat) : run n s = .next s := by
  cases n with
  | zero => rfl
  | succ n => simp [run, h]

/-- A run goes through the turns that begin in states that do not end it (R415, R416). -/
theorem run_after_turns {n k : Nat} {c : Nat → State} (hk : k ≤ n)
    (h : ∀ j, j < k → loopOnce (c j) = .next (c (j + 1)) ∧ runEnds (c j) = false) :
    run n (c 0) = run (n - k) (c k) := by
  induction k with
  | zero => rfl
  | succ k ih =>
    obtain ⟨hturn, hgoes⟩ := h k k.lt_succ_self
    obtain ⟨m, hm⟩ : ∃ m, n - k = m + 1 := ⟨n - k - 1, by omega⟩
    rw [ih (by omega) fun j hj => h j (by omega), hm, show n - (k + 1) = m by omega]
    simp [run, hgoes, hturn]

/-- Settles O49: a step at a jam byte is the jam, and a run goes from turn to turn up to the state that ends it. -/
theorem jamDoesNotAdvance : Obligations.JamDoesNotAdvance := by
  refine ⟨fun s => ?_, jammed_iff, fun s s' op h hop hblock => ?_, fun n k c hk hturns => ?_, fun s n hj hblock => ?_⟩
  · exact ⟨_, rfl, rfl, rfl, rfl, cpuKept_setPc s _, memKept_of_world s _ rfl rfl⟩
  · refine ⟨step_jam h ((jams_iff _ op).mpr hop) hblock, ?_, fun hpeek => ?_⟩
    · obtain ⟨w, rfl⟩ := memRead_world h
      exact sameCpu_setWorld s w
    · rw [memRead_of_peek s s.pc op hpeek] at h
      cases h; rfl
  · have hrun := run_after_turns hk fun j hj =>
      ⟨(hturns j hj).1, Bool.eq_false_iff.mpr fun he => (hturns j hj).2 ((runEnds_iff _).mp he)⟩
    refine ⟨fun hend => ?_, fun hlt hgoes hstops t ht => ?_⟩
    · rw [hrun]
      rcases hend with rfl | ⟨-, hend⟩
      · rw [Nat.sub_self]; rfl
      · exact run_of_runEnds ((runEnds_iff _).mpr hend) _
    · obtain ⟨m, hm⟩ : ∃ m, n - k = m + 1 := ⟨n - k - 1, by omega⟩
      rw [hrun, hm, run_succ m _ _ (Bool.eq_false_iff.mpr fun he => hgoes ((runEnds_iff _).mp he))] at ht
      obtain ⟨s1, h1, -⟩ := ht
      exact hstops s1 h1
  · exact run_of_runEnds ((runEnds_iff s).mpr ⟨hj, hblock⟩) n

end Sys2Proof.Machine
end

section
/-! PROOFS. O50: the step and the decoder agree on the instruction at `PC` (R121, R122, R130). -/

namespace Sys2Proof.Machine

open Sys2Proof.Safety

/-- What is left after binding parameters is nothing exactly where the template is as long as the bytes (R120, R122). -/
theorem takeParams_all {op : Byte} {T : Template} {n : Nat} {ps : List Byte} {i : Instr}
    (h : takeParams op T n ps = .ok (i, [])) (hlen : T.length = ps.length + n) : i = bindParams T ps := by
  rw [takeParams_ok op T n ps hlen.le, hlen, Nat.add_sub_cancel, List.take_length] at h
  exact (Prod.mk.inj (Except.ok.inj h)).1.symm

/-- The bytes of an instruction in ordinary memory are what the fetch answers, with the template they select and the
parameters that decoding binds (R121, R122). -/
theorem fetch_of_peek {s : State} {bytes : List Byte} {i : Instr}
    (hdec : decodeWith s.plat.params bytes = .ok (i, [])) (hlen : (templateOf s.plat.params bytes).length = bytes.length)
    (hpeek : ∀ k, k < bytes.length → s.peek (s.pc + BitVec.ofNat 16 k) = bytes[k]?) :
    ∃ ps, fetch s = .ok ((templateOf s.plat.params bytes, ps), s) ∧
      i = bindParams (templateOf s.plat.params bytes) ps := by
  have hparams : ∀ n : Nat, memValues s (s.pc + BitVec.ofNat 16 n) (bytes.drop n).length = .ok (bytes.drop n, s) := by
    intro n
    refine memValues_of_peek s _ _ fun k hk => ?_
    rw [List.length_drop] at hk
    rw [BitVec.add_assoc, ← BitVec.ofNat_add, hpeek (n + k) (by omega), List.getElem?_drop]
  rcases bytes with _ | ⟨op, ps⟩
  · cases hdec
  have hop : memRead s s.pc = .ok (op, s) := memRead_of_peek s _ op (by simpa using hpeek 0 (by simp))
  cases hp : s.plat.params.prefixOf op with
  | none =>
    simp only [templateOf, decodeWith, List.headD_cons, hp] at hdec hlen ⊢
    refine ⟨ps, (fetch_ok_iff _ _ _ _).mpr ⟨op, s, hop, .inl ⟨hp, rfl, ?_⟩⟩, takeParams_all hdec hlen⟩
    rw [hlen]
    exact hparams 1
  | some x =>
    rcases ps with _ | ⟨op1, qs⟩
    · simp [decodeWith, hp] at hdec
    have hop1 : memRead s (s.pc + 1#16) = .ok (op1, s) := memRead_of_peek s _ op1 (hpeek 1 (by simp))
    simp only [templateOf, decodeWith, List.headD_cons, List.tail_cons, hp] at hdec hlen ⊢
    refine ⟨qs, (fetch_ok_iff _ _ _ _).mpr ⟨op, s, hop, .inr ⟨x, op1, s, hp, hop1, rfl, ?_⟩⟩, takeParams_all hdec hlen⟩
    rw [hlen]
    exact hparams 2

/-- After a jam that blocks interrupts, the step ends with the clock (R130). -/
theorem endStep_of_jam {t : State} (h : t.jamNow = true ∧ t.plat.params.jamBlocksInterrupts = true) :
    endStep t = .ok t.closeStep :=
  (endStep_ok_iff t _).mpr ⟨t, if_pos (by simpa using h), rfl⟩

/-- Otherwise it ends with the poll, then the clock (R130). -/
theorem endStep_of_poll {t : State} (h : ¬(t.jamNow = true ∧ t.plat.params.jamBlocksInterrupts = true)) :
    endStep t = (pollInterrupts t).map State.closeStep := by
  rw [endStep, if_neg (by simpa using h)]
  cases pollInterrupts t <;> rfl

/-- Settles O50: the fetch answers what the bytes decode to, and the rest of the step is the poll and the clock. -/
theorem stepRunsDecodedInstruction : Obligations.StepRunsDecodedInstruction := by
  rintro s bytes i T hdec rfl hlen hpeek
  obtain ⟨ps, hfetch, rfl⟩ := fetch_of_peek hdec hlen hpeek
  have hstep : step s = finishStep (exec (bindParams (templateOf s.plat.params bytes) ps)
      (beginExecute s (templateOf s.plat.params bytes))) := by
    rw [step, hfetch]
  rw [hstep, ← hlen, beginExecute]
  generalize exec _ _ = out
  cases out with
  | next t =>
    change outcome (endStep t) = _
    dsimp only
    by_cases hjam : t.jamNow = true ∧ t.plat.params.jamBlocksInterrupts = true
    · rw [if_pos hjam, endStep_of_jam hjam]
      rfl
    · rw [if_neg hjam, endStep_of_poll hjam]
      cases pollInterrupts t <;> rfl
  | fault f => rfl
  | refused r => rfl

end Sys2Proof.Machine
end

section
/-! PROOFS. O55, O56: reset. -/

namespace Sys2Proof.Machine

open Sys2Proof.Safety

/-- No named flag is bit 5 (R24). -/
theorem getFlag_or_bit5 (p : Byte) (f : Flag) : getFlag (p ||| 0x20#8) f = getFlag p f := by
  cases f <;> simp [getFlag, flagBit]

/-- Settles O55: nothing of the state but the two loads of the vector decides what `Reset` answers. -/
theorem resetProcedure : Obligations.ResetProcedure := by
  intro s d lo hi hlo hhi
  have hflag : ∀ f, getFlag (putFlag (d.p ||| 0x20#8) .i true) f = if f = .i then true else getFlag d.p f := by
    intro f
    rw [getFlag_putFlag, getFlag_or_bit5]
  refine ⟨_, (bind_ok_iff _ _ _).mpr ⟨_, memReadPair_of_peek _ _ _ lo hi hlo hhi, rfl⟩, rfl, rfl, rfl, rfl, rfl, ?_, ?_, ?_,
    rfl, rfl, rfl, rfl, rfl, rfl, ?_⟩
  · exact (hflag .i).trans (if_pos rfl)
  · exact (putFlag_bit5 _ .i true).trans (loadStatus_bit5 d.p)
  · exact fun f hf => (hflag f).trans (if_neg hf)
  · exact ⟨fun _ _ => rfl, fun _ _ _ => rfl, fun _ => rfl, rfl, rfl, rfl⟩

/-- On TP1 after reset the one subset answers every address (R65). -/
theorem candidates_reset (a : Word) : candidates Platform.tp1 World.reset a = [⟨"ram", .plain, 0, 0, 0, 65536, true⟩] := by
  have := a.isLt
  simp [candidates, Platform.tp1, World.reset, answers]
  omega

/-- Settles O56: a single plain subset over all of memory overlaps none and answers the stack's range. -/
theorem resetMeetsInvariant : Obligations.ResetMeetsInvariant where
  bit5 := by decide
  memory := memoryWf_reset
  observers := by decide
  configuration := by
    have hstack : stackRouted Platform.tp1 World.reset = true := by
      simp only [stackRouted, candidates_reset]
      simp [Platform.tp1]
    have hoverlap : overlapFree Platform.tp1 World.reset = true := by decide
    exact Bool.and_eq_true_iff.mpr ⟨hoverlap, hstack⟩
  transient := ⟨rfl, rfl⟩

end Sys2Proof.Machine
end

section
/-! PROOFS. O6, O7, O9, O19: which subset answers an address (R65), and what an access then does (R66, R74); the stack
range of an assembled machine (R63, R82, R405). -/

namespace Sys2Proof.Machine

open Sys2Proof.Safety

/-! ## Resolution -/

/-- An active subset that contains the address is an entry of the configuration that answers it. -/
theorem contains_iff (pl : Platform) (w : World) (a : Word) (j : SubsetId) (u : Subset) :
    Contains pl w a j u ↔ (pl.subsets.zip w.active)[j]? = some (u, true) ∧ answers a (u, true) = true := by
  simp only [Contains, List.getElem?_zip_eq_some, answers, Bool.true_and, Bool.and_eq_true, decide_eq_true_eq,
    and_assoc]

/-- An entry that answers belongs to an active subset. -/
theorem contains_of_answers {pl : Platform} {w : World} {a : Word} {j : SubsetId} {e : Subset × Bool}
    (he : (pl.subsets.zip w.active)[j]? = some e) (ha : answers a e = true) : Contains pl w a j e.1 := by
  obtain ⟨u, b⟩ := e
  obtain ⟨rfl, -⟩ := Bool.and_eq_true_iff.mp ha
  exact (contains_iff pl w a j u).mpr ⟨he, ha⟩

/-- The candidates before the subset at position `j`, that subset, and those after it. -/
theorem candidates_split {pl : Platform} {w : World} {a : Word} {j : Nat} {u : Subset} (h : Contains pl w a j u) :
    candidates pl w a = (((pl.subsets.zip w.active).take j).filter (answers a)).map Prod.fst ++
      u :: (((pl.subsets.zip w.active).drop (j + 1)).filter (answers a)).map Prod.fst := by
  obtain ⟨hj, ha⟩ := (contains_iff pl w a j u).mp h
  obtain ⟨hlt, hget⟩ := List.getElem?_eq_some_iff.mp hj
  rw [candidates]
  conv_lhs => rw [← List.take_append_drop j (pl.subsets.zip w.active), List.drop_eq_getElem_cons hlt, hget]
  rw [List.filter_append, List.filter_cons_of_pos ha, List.map_append, List.map_cons]

/-- The one active subset that contains the address is the one candidate (R65). -/
theorem resolve_of_contains {pl : Platform} {w : World} {a : Word} {j : Nat} {u : Subset} (h : Contains pl w a j u)
    (hone : ∀ (k : Nat) (v : Subset), Contains pl w a k v → k = j) : resolve pl w a = .ok u := by
  have hbefore : ((pl.subsets.zip w.active).take j).filter (answers a) = [] := by
    refine List.filter_eq_nil_iff.mpr fun e he ha => ?_
    obtain ⟨k, hk, hek⟩ := List.mem_take_iff_getElem.mp he
    have := hone k _ (contains_of_answers (List.getElem?_eq_some_iff.mpr ⟨_, hek⟩) ha)
    omega
  have hafter : ((pl.subsets.zip w.active).drop (j + 1)).filter (answers a) = [] := by
    refine List.filter_eq_nil_iff.mpr fun e he ha => ?_
    obtain ⟨k, hk⟩ := List.mem_iff_getElem?.mp he
    rw [List.getElem?_drop] at hk
    have := hone _ _ (contains_of_answers hk ha)
    omega
  rw [resolve_ok_iff, candidates_split h, hbefore, hafter]
  rfl

/-- Two active subsets that contain the address are two candidates (R75). -/
theorem resolve_of_two {pl : Platform} {w : World} {a : Word} {j k : Nat} {u v : Subset} (hu : Contains pl w a j u)
    (hv : Contains pl w a k v) (hjk : j < k) : resolve pl w a = .error (.refusal (.ambiguousOverlap a)) := by
  obtain ⟨hk, ha⟩ := (contains_iff pl w a k v).mp hv
  have hafter : (v, true) ∈ ((pl.subsets.zip w.active).drop (j + 1)).filter (answers a) := by
    refine List.mem_filter.mpr ⟨List.mem_iff_getElem?.mpr ⟨k - (j + 1), ?_⟩, ha⟩
    rwa [List.getElem?_drop, show j + 1 + (k - (j + 1)) = k by omega]
  have hlen : 2 ≤ (candidates pl w a).length := by
    have := List.length_pos_of_mem hafter
    simp only [candidates_split hu, List.length_append, List.length_cons, List.length_map]
    omega
  unfold resolve
  split
  · rename_i hc; simp [hc] at hlen
  · rename_i hc; simp [hc] at hlen
  · rfl

/-- Where no active subset contains the address, resolution faults (R74). -/
theorem resolve_of_none {pl : Platform} {w : World} {a : Word} (h : ∀ j u, ¬ Contains pl w a j u) :
    resolve pl w a = .error (.fault (.noSubset a)) := by
  have hc : candidates pl w a = [] := List.eq_nil_iff_forall_not_mem.mpr fun u hu => by
    obtain ⟨j, hj⟩ := (mem_candidates_iff pl w a u).mp hu
    exact h j u hj
  rw [resolve, hc]

/-- Settles O6: none, one, or two subsets among the candidates. -/
theorem resolveFindsTheOneSubset : Obligations.ResolveFindsTheOneSubset := by
  refine fun pl w a => ⟨resolve_of_none, fun j u => resolve_of_contains, fun j k u v hu hv hne => ?_⟩
  rcases Nat.lt_or_gt_of_ne hne with hjk | hkj
  · exact resolve_of_two hu hv hjk
  · exact resolve_of_two hv hu hkj

/-! ## Accesses -/

/-- Plain and read-only memory shows the storage byte that the subset views (R63, R66). -/
theorem peekByte_of_resolve {pl : Platform} {w : World} {a : Word} {u : Subset} (hu : resolve pl w a = .ok u)
    (hk : u.kind = .plain ∨ u.kind = .readonly) : peekByte pl w a = storageByte w u.storage (viewIndex u a) := by
  rcases hk with hk | hk <;> simp [peekByte, hu, hk]

/-- Settles O7: such an address is ordinary memory, in every state with this world. -/
theorem plainReadReturnsStoredByte : Obligations.PlainReadReturnsStoredByte := by
  intro s a u v hu hk hv
  have hpeek : peekByte s.plat s.world a = some v := (peekByte_of_resolve hu hk).trans hv
  refine ⟨memRead_of_peek s a v hpeek, fun t hw hp => memRead_of_peek t a v ?_⟩
  rw [State.peek, hw, hp, hpeek]

/-- A nesting that stops at some depth, otherwise than for its nesting, stops so (R97). -/
theorem nested_of_error {α : Type} {f : Nat → Res α} (hf : Stable f) {e : Stop} (he : e ≠ .refusal .handlerNesting)
    {depth : Nat} (h : f depth = .error e) : nested f = .error e := by
  have hreached : reached (f depth) = true := by
    by_contra hr
    rw [not_reached (Bool.eq_false_iff.mpr hr)] at h
    exact he (Except.error.inj h).symm
  rw [nested_of_reached hf depth hreached, h]

theorem memRead_of_routed_error {s : State} {a : Word} {e : Stop} {depth : Nat} (he : e ≠ .refusal .handlerNesting)
    (h : routedLoad s.plat (ports s.plat depth) a s.world = .error e) : memRead s a = .error e := by
  rw [memRead, worldLoad, nested_of_error (stable_load s.plat a s.world) he h]

theorem memWrite_of_routed_error {s : State} {a : Word} {v : Byte} {e : Stop} {depth : Nat}
    (he : e ≠ .refusal .handlerNesting) (h : routedStore s.plat (ports s.plat depth) a v s.world = .error e) :
    memWrite s a v = .error e := by
  rw [memWrite, worldStore, nested_of_error (stable_store s.plat a v s.world) he h]

/-- Settles O9: each of the three accesses begins with the resolution that faults. -/
theorem holeAccessFaults : Obligations.HoleAccessFaults := by
  intro s a v h
  have hres := resolve_of_none h
  have hread : memRead s a = .error (.fault (.noSubset a)) :=
    memRead_of_routed_error (depth := 0) (by simp) (by rw [routedLoad, hres])
  refine ⟨hread, memWrite_of_routed_error (depth := 0) (by simp) (by rw [routedStore, hres]), ?_⟩
  rintro rfl
  rw [step, fetch, hread]
  rfl

/-! ## The stack of an assembled machine -/

/-- Wiring observers leaves the storages as the platform gives them (R37, R94). -/
theorem initialWorld_storages (pl : Platform) : (initialWorld pl).storages = pl.storages :=
  List.foldlRecOn pl.wiring _ (motive := fun w : World => w.storages = pl.storages) rfl fun _ h _ _ => h

/-- A machine that assembly accepts stands in its initial world, with fitting views and a routed stack (R405). -/
theorem assemble_ok {pl : Platform} {s : State} (h : assemble pl = .ok s) :
    (∀ u ∈ pl.subsets, viewFits pl u = true) ∧ stackRouted pl (initialWorld pl) = true ∧
      s = { State.reset with world := initialWorld pl, plat := pl } := by
  unfold assemble at h
  split at h
  · cases h
  split at h
  · cases h
  split at h
  · cases h
  split at h
  · cases h
  rename_i hfits _ _ hstack
  exact ⟨by simpa using hfits, by simpa using hstack, (Except.ok.inj h).symm⟩

/-- Where the stack is routed, one plain subset answers all 256 stack addresses (R78, R82). -/
theorem stackRouted_resolve {pl : Platform} {w : World} (h : stackRouted pl w = true) :
    ∃ u ∈ pl.subsets, u.kind = .plain ∧ ∀ sp : Byte, resolve pl w (pl.params.stackBase + zext16 sp) = .ok u := by
  unfold stackRouted at h
  split at h
  · rename_i u hu
    simp only [Bool.and_eq_true, beq_iff_eq, List.all_eq_true, List.mem_range] at h
    obtain ⟨hk, hall⟩ := h
    refine ⟨u, List.mem_of_getElem? hu, hk, fun sp => (resolve_ok_iff pl w _ u).mpr ?_⟩
    rw [zext16, ← BitVec.ofNat_toNat]
    exact hall sp.toNat (lt_max_of_lt_left sp.isLt)
  · cases h

/-- A plain subset that fits its storage shows a byte at every address it contains (R63). -/
theorem storageByte_of_viewFits {pl : Platform} {u : Subset} {a : Word} {w : World} (hfits : viewFits pl u = true)
    (hk : u.kind = .plain) (hw : w.storages = pl.storages) (ha : u.base ≤ a.toNat) (ha' : a.toNat < u.base + u.size) :
    (storageByte w u.storage (viewIndex u a)).isSome = true := by
  simp only [viewFits, hk, Bool.and_eq_true] at hfits
  obtain ⟨-, hfits⟩ := hfits
  cases hst : pl.storages[u.storage]? with
  | none => simp [hst] at hfits
  | some st =>
    simp only [hst, decide_eq_true_eq] at hfits
    have hlt : viewIndex u a < st.size := by
      rw [viewIndex]; omega
    simp [storageByte, hw, hst, hlt]

/-- Settles O19: the plain subset that answers the stack shows a byte of its own at each address (R63). -/
theorem assembledStackIsReady : Obligations.AssembledStackIsReady := by
  intro pl s h
  obtain ⟨hfits, hstack, rfl⟩ := assemble_ok h
  obtain ⟨u, hu, hk, hres⟩ := stackRouted_resolve hstack
  have hrange : ∀ sp : Byte, u.base ≤ (pl.params.stackBase + zext16 sp).toNat ∧
      (pl.params.stackBase + zext16 sp).toNat < u.base + u.size := by
    intro sp
    obtain ⟨j, -, -, hrange⟩ := resolve_contains pl _ _ u (hres sp)
    exact hrange
  refine ⟨fun sp => ⟨u, hres sp, hk, ?_⟩, fun sp sp' heq => ?_⟩
  · exact storageByte_of_viewFits (hfits u hu) hk (initialWorld_storages pl) (hrange sp).1 (hrange sp).2
  · have hloc : ∀ sp : Byte, Machine.locate pl (initialWorld pl) (pl.params.stackBase + zext16 sp) =
        some (u.storage, viewIndex u (pl.params.stackBase + zext16 sp)) := by
      intro sp
      simp [Machine.locate, hres sp, hk]
    have hindex := (hloc sp).symm.trans (Eq.trans heq (hloc sp'))
    simp only [Option.some.injEq, Prod.mk.injEq, true_and, viewIndex] at hindex
    have haddr : pl.params.stackBase + zext16 sp = pl.params.stackBase + zext16 sp' := by
      apply BitVec.eq_of_toNat_eq
      have := hrange sp
      have := hrange sp'
      omega
    have hzext : zext16 sp = zext16 sp' := by bv_omega
    apply BitVec.eq_of_toNat_eq
    have := congrArg BitVec.toNat hzext
    simp only [zext16] at this
    bv_omega

end Sys2Proof.Machine
end

section
/-! PROOFS. O12, O13, O14: registration, and the delivery of events (R94 to R99). -/

namespace Sys2Proof.Machine

/-! ## Registration -/

/-- Changing one observer list leaves those of the other notifiers (R94). -/
theorem observers_modify_ne (w : World) (f : List ChipId → List ChipId) {n m : ChipId} (h : m ≠ n) :
    (w.observers.modify n f)[m]? = w.observers[m]? :=
  List.getElem?_modify_ne f _ h.symm

/-- Registering who is registered already changes nothing (R94). -/
theorem observe_of_mem {w : World} {n o : ChipId} {l : List ChipId} (hl : w.observers[n]? = some l) (ho : o ∈ l) :
    w.observe n o = w := by
  have hmodify : w.observers.modify n (fun l => if l.contains o then l else l ++ [o]) = w.observers := by
    refine List.ext_getElem? fun m => ?_
    by_cases hm : m = n
    · subst hm
      simp [List.getElem?_modify_eq, hl, ho]
    · exact observers_modify_ne w _ hm
  rw [World.observe, hmodify]

/-- Settles O14: what the change of one list does to it and to the others. -/
theorem observerRegistration : Obligations.ObserverRegistration := by
  intro w n o l hl
  refine ⟨fun ho => ?_, observe_of_mem hl, ?_, fun m hm => ⟨observers_modify_ne w _ hm, observers_modify_ne w _ hm⟩⟩
  · simp [World.observe, List.getElem?_modify_eq, hl, ho]
  · simp [World.unobserve, List.getElem?_modify_eq, hl, bne, Bool.beq_eq_decide_eq]

/-! ## Delivery in order, nesting to any depth -/

/-- Delivery runs the observers' handlers in list order, each on the world that the one before it left (R95). -/
theorem deliver_eq_foldlM (pl : Platform) (io : Ports) (n : ChipId) (e : Event) (l : List ChipId) (w : World) :
    deliver pl io n e l w =
      l.foldlM (fun w' o => (runHandler pl io o (eventHandler pl o e n) w').map Prod.snd) w := by
  induction l generalizing w with
  | nil => rfl
  | cons o l ih =>
    rw [deliver, List.foldlM_cons]
    cases runHandler pl io o (eventHandler pl o e n) w with
    | ok r => exact ih r.2
    | error err => rfl

/-- Settles O12: delivery is the sequence of the handlers, and an access follows them as deep as they nest. -/
theorem notifyRunsObserversInOrder : Obligations.NotifyRunsObserversInOrder := by
  refine ⟨fun pl io n e w => deliver_eq_foldlM pl io n e _ w, fun s a v x w depth => ⟨fun h => ?_, fun h => ?_,
    fun e he => ⟨memRead_of_routed_error he, memWrite_of_routed_error he⟩⟩⟩
  · exact (memRead_ok_iff s a x _).mpr ⟨depth, w, h, rfl⟩
  · exact (memWrite_ok_iff s a v _).mpr ⟨depth, w, h, rfl⟩

/-! ## Recording observers -/

/-- A recorder's state after it was given one more event; a state of another shape counts as an empty trace. -/
def recorded (d : DevState) (entry : ChipId × Event) : DevState :=
  match d with
  | .recorder trace => .recorder (trace ++ [entry])
  | _ => .recorder [entry]

/-- The chips' states after the recorders in a list were given an event, one after the other. -/
def recordAll (entry : ChipId × Event) (l : List ChipId) (dev : List DevState) : List DevState :=
  l.foldl (fun dev o => dev.set o (recorded (dev.getD o (.words [])) entry)) dev

/-- A recorder's event handler changes the recorder's own state and nothing else (95_test_vectors.md section 2.10). -/
theorem runHandler_recordEvent (pl : Platform) (io : Ports) (o : ChipId) (e : Event) (n : ChipId) (w : World) :
    runHandler pl io o (recordEvent o e n) w =
      .ok ((), { w with dev := w.dev.set o (recorded (w.dev.getD o (.words [])) (n, e)) }) := by
  simp only [recordEvent, runHandler]
  cases w.dev.getD o (.words []) <;> rfl

/-- Delivery to recorders changes their states and nothing else. -/
theorem deliver_recorders (pl : Platform) (io : Ports) (n : ChipId) (e : Event) (l : List ChipId) (w : World)
    (h : ∀ o ∈ l, chipModel pl o = .recorder) :
    deliver pl io n e l w = .ok { w with dev := recordAll (n, e) l w.dev } := by
  induction l generalizing w with
  | nil => rfl
  | cons o l ih =>
    obtain ⟨ho, hl⟩ := List.forall_mem_cons.mp h
    have hhandler : eventHandler pl o e n = recordEvent o e n := by
      rw [eventHandler, ho]
    rw [deliver, hhandler, runHandler_recordEvent]
    exact ih _ hl

/-- A chip that is not in the list keeps its state. -/
theorem recordAll_of_not_mem {entry : ChipId × Event} {l : List ChipId} {o : ChipId} (ho : o ∉ l)
    (dev : List DevState) : (recordAll entry l dev)[o]? = dev[o]? := by
  induction l generalizing dev with
  | nil => rfl
  | cons o' l ih =>
    obtain ⟨hne, hl⟩ := List.ne_and_not_mem_of_not_mem_cons ho
    exact (ih hl _).trans (List.getElem?_set_ne hne.symm)

/-- A recorder that the list names once is given the event once (R96). -/
theorem recordAll_of_mem {entry : ChipId × Event} {l : List ChipId} {o : ChipId} (hl : l.Nodup) (ho : o ∈ l)
    {dev : List DevState} {d : DevState} (hd : dev[o]? = some d) :
    (recordAll entry l dev)[o]? = some (recorded d entry) := by
  induction l generalizing dev with
  | nil => cases ho
  | cons o' l ih =>
    obtain ⟨ho', hl⟩ := List.nodup_cons.mp hl
    by_cases heq : o = o'
    · subst heq
      refine (recordAll_of_not_mem ho' _).trans ?_
      obtain ⟨hlt, -⟩ := List.getElem?_eq_some_iff.mp hd
      rw [List.getElem?_set_self hlt, List.getD_eq_getElem?_getD, hd, Option.getD_some]
    · exact ih hl (List.mem_of_ne_of_mem heq ho) ((List.getElem?_set_ne (Ne.symm heq)).trans hd)

/-- Settles O13: delivery to the recorders of the list, each of which it names once. -/
theorem eventReachesEachObserverOnce : Obligations.EventReachesEachObserverOnce := by
  intro pl io n e w l hl hnodup hrec
  have hdeliver : notifyAll pl io n e w = .ok { w with dev := recordAll (n, e) l w.dev } := by
    rw [notifyAll, List.getD_eq_getElem?_getD, hl]
    exact deliver_recorders pl io n e l w fun o ho => (hrec o ho).1
  exact ⟨_, hdeliver, fun o ho trace ht => recordAll_of_mem hnodup ho ht, fun o ho => recordAll_of_not_mem ho _, rfl⟩

end Sys2Proof.Machine
end

section
/-! PROOFS. O10, O11: chip CFG of test platform TP2 behind its registers (95_test_vectors.md section 2.10). -/

namespace Sys2Proof.Machine

open Sys2Proof.Safety

/-- An access to a register runs its owner's handler, at the offset of the address (R68, R69). -/
theorem routedLoad_of_registerAt {s : State} {a : Word} {c : ChipId} {k : Nat} (io : Ports) (h : RegisterAt s a c k) :
    routedLoad s.plat io a s.world = runHandler s.plat io c (readHandler s.plat c k) s.world := by
  obtain ⟨u, hu, hk, ha⟩ := h
  have hoff : a.toNat - u.base = k := by omega
  simp only [routedLoad, hu, hk, hoff]

theorem routedStore_of_registerAt {s : State} {a : Word} {c : ChipId} {k : Nat} (io : Ports) (v : Byte)
    (h : RegisterAt s a c k) :
    routedStore s.plat io a v s.world = (runHandler s.plat io c (writeHandler s.plat c k v) s.world).map Prod.snd := by
  obtain ⟨u, hu, hk, ha⟩ := h
  have hoff : a.toNat - u.base = k := by omega
  simp only [routedStore, hu, hk, hoff]
  cases runHandler s.plat io c (writeHandler s.plat c k v) s.world <;> rfl

/-- Where a register's handler answers with nesting followed to some depth, the load answers so (R68, R97). -/
theorem memRead_of_handler {s : State} {a : Word} {c : ChipId} {k depth : Nat} {v : Byte} {w : World}
    (ha : RegisterAt s a c k)
    (h : runHandler s.plat (ports s.plat depth) c (readHandler s.plat c k) s.world = .ok (v, w)) :
    memRead s a = .ok (v, s.setWorld w) :=
  (memRead_ok_iff s a v _).mpr ⟨depth, w, (routedLoad_of_registerAt _ ha).trans h, rfl⟩

/-- Where a register's handler answers with nesting followed to some depth, the store answers so (R69, R97). -/
theorem memWrite_of_handler {s : State} {a : Word} {c : ChipId} {k depth : Nat} {v : Byte} {w : World}
    (ha : RegisterAt s a c k)
    (h : runHandler s.plat (ports s.plat depth) c (writeHandler s.plat c k v) s.world = .ok ((), w)) :
    memWrite s a v = .ok (s.setWorld w) :=
  (memWrite_ok_iff s a v _).mpr ⟨depth, w, by rw [routedStore_of_registerAt _ v ha, h]; rfl, rfl⟩

/-- A register stays where it is as long as the configuration does (R76). -/
theorem registerAt_setWorld {s : State} {a : Word} {c : ChipId} {k : Nat} {w : World} (hw : w.active = s.world.active)
    (h : RegisterAt s a c k) : RegisterAt (s.setWorld w) a c k := by
  obtain ⟨u, hu, hk⟩ := h
  exact ⟨u, (resolve_congr s.plat hw a).trans hu, hk⟩

/-- The world with the state of one chip set. -/
def World.setDev (w : World) (c : ChipId) (d : DevState) : World := { w with dev := w.dev.set c d }

@[simp] theorem World.setDev_setDev (w : World) (c : ChipId) (d d' : DevState) :
    (w.setDev c d).setDev c d' = w.setDev c d' := by
  simp [World.setDev]

/-- A write to the request register sets the latches of the lines that bits 0 and 7 name (R352). -/
theorem runHandler_cfg_request {pl : Platform} {c : ChipId} {winA winB : SubsetId}
    (hc : chipModel pl c = .bankSwitch winA winB) (io : Ports) (v : Byte) (w : World) :
    runHandler pl io c (writeHandler pl c 3 v) w = .ok ((),
      { w with irqReq := w.irqReq || v.getLsbD 0, nmiReq := w.nmiReq || v.getLsbD 7 }) := by
  simp only [writeHandler, hc, cfgWrite, runHandler]
  cases v.getLsbD 0 <;> cases v.getLsbD 7 <;> simp [runHandler, World.setRequest]

/-- A switch to a changed configuration that is not admitted is refused (R75, R82; log 17). -/
theorem switch_refused {pl : Platform} {w w' : World} {changes : List (SubsetId × Bool)}
    (hw' : w' = { w with active := setBits w.active changes }) (hne : w'.active ≠ w.active)
    (hadm : admitted pl w' = false) : w.switch pl changes = .error (.refusal .inadmissibleConfiguration) := by
  subst hw'
  have hne' : setBits w.active changes ≠ w.active := hne
  simp [World.switch, hne', hadm]

section
variable {pl : Platform} {c : ChipId} {winA winB : SubsetId} (hc : chipModel pl c = .bankSwitch winA winB)
  {w : World} {bank : Bool} {last rdcount : Byte} {oneshot : Bool}
  (hdev : w.dev[c]? = some (.bankSwitch bank last rdcount oneshot))
include hc hdev

/-- A read of the one-shot register answers the flag and clears it (R106). -/
theorem runHandler_cfg_oneshot (io : Ports) :
    runHandler pl io c (readHandler pl c 2) w = .ok (if oneshot then 1#8 else 0#8,
      w.setDev c (.bankSwitch bank last rdcount false)) := by
  simp [World.setDev, readHandler, hc, cfgRead, runHandler, List.getD_eq_getElem?_getD, hdev, cfgFields]

/-- A write to the bank-select register takes CFG's state over, switches the windows, and then notifies (R69, R95). -/
theorem runHandler_cfg_bank (io : Ports) (v : Byte) :
    runHandler pl io c (writeHandler pl c 0 v) w =
      runHandler pl io c (.switch [(winA, !v.getLsbD 0), (winB, v.getLsbD 0)] (.notify ⟨1, some v.toNat⟩ (.ret ())))
        (w.setDev c (.bankSwitch (v.getLsbD 0) v rdcount oneshot)) := by
  simp [World.setDev, writeHandler, hc, cfgWrite, runHandler, List.getD_eq_getElem?_getD, hdev, cfgFields]

variable {v : Byte} {w0 : World}
  (hw0 : w0 = { w.setDev c (.bankSwitch (v.getLsbD 0) v rdcount oneshot) with
    active := setBits w.active [(winA, !v.getLsbD 0), (winB, v.getLsbD 0)] })
include hw0

/-- Where the switch is refused, so is the write. -/
theorem runHandler_cfg_bank_refused (io : Ports) (hne : w0.active ≠ w.active) (hadm : admitted pl w0 = false) :
    runHandler pl io c (writeHandler pl c 0 v) w = .error (.refusal .inadmissibleConfiguration) := by
  rw [runHandler_cfg_bank hc hdev, runHandler,
    switch_refused (w := w.setDev c (.bankSwitch (v.getLsbD 0) v rdcount oneshot)) hw0 hne hadm]

/-- Otherwise the write answers what the delivery of its event in the switched world answers (R95, R100). -/
theorem runHandler_cfg_bank_notified {io : Ports} {w' : World} (hok : w0.active = w.active ∨ admitted pl w0 = true)
    (hdecl : declared pl ⟨1, some v.toNat⟩ = true) (hnotify : io.notify c ⟨1, some v.toNat⟩ w0 = .ok w') :
    runHandler pl io c (writeHandler pl c 0 v) w = .ok ((), w') := by
  have hswitch := (switch_ok_iff pl (w.setDev c (.bankSwitch (v.getLsbD 0) v rdcount oneshot)) w0
    [(winA, !v.getLsbD 0), (winB, v.getLsbD 0)]).mpr ⟨hw0, hok⟩
  rw [runHandler_cfg_bank hc hdev, runHandler, hswitch]
  simp only [runHandler, hdecl, if_true, hnotify]

end

/-- Settles O11: the two handlers; a latch is no part of memory. -/
theorem deviceRegisterSideEffects : Obligations.DeviceRegisterSideEffects := by
  intro s a c winA winB bank last rdcount oneshot hc hdev
  constructor
  · intro ha
    obtain ⟨hlt, -⟩ := List.getElem?_eq_some_iff.mp hdev
    have hfirst := memRead_of_handler (depth := 0) ha (runHandler_cfg_oneshot hc hdev _)
    refine ⟨_, hfirst, ?_⟩
    have hdev' : (s.world.setDev c (.bankSwitch bank last rdcount false)).dev[c]? = _ := List.getElem?_set_self hlt
    have hsecond := memRead_of_handler (depth := 0)
      (s := s.setWorld (s.world.setDev c (.bankSwitch bank last rdcount false)))
      (registerAt_setWorld rfl ha) (runHandler_cfg_oneshot hc hdev' _)
    simpa using hsecond
  · intro ha v
    exact ⟨_, memWrite_of_handler (depth := 0) ha (runHandler_cfg_request hc _ v _), rfl, rfl,
      ⟨fun _ _ => rfl, fun _ _ _ => rfl, fun _ => rfl, rfl, rfl, rfl⟩⟩

/-- Settles O10: the switch, then the event, then the return; recording observers leave the configuration alone. -/
theorem bankSelectTakesEffectAtOnce : Obligations.BankSelectTakesEffectAtOnce := by
  intro s a v c winA winB bank last rdcount oneshot w0 ha hc hdev hdecl hw0
  refine ⟨fun hne hadm => ?_, fun w depth hok hnotify => ?_⟩
  · refine memWrite_of_routed_error (depth := 0) (by simp) ?_
    rw [routedStore_of_registerAt _ v ha, runHandler_cfg_bank_refused hc hdev hw0 _ hne hadm]
    rfl
  · have hhandler := runHandler_cfg_bank_notified (io := ports s.plat (depth + 1)) hc hdev hw0 hok hdecl hnotify
    refine ⟨memWrite_of_handler ha hhandler, fun hrec b u x hu hone hk hx => ?_⟩
    have hw : w = { w0 with dev := recordAll (c, ⟨1, some v.toNat⟩) (w0.observers.getD c []) w0.dev } := by
      have hdeliver := deliver_recorders s.plat (ports s.plat depth) c ⟨1, some v.toNat⟩ (w0.observers.getD c []) w0
        (by rw [hw0]; exact hrec)
      exact Except.ok.inj (hnotify.symm.trans hdeliver)
    have hres : resolve s.plat w b = .ok u := by
      rw [resolve_congr s.plat (w := w0) (by rw [hw])]
      exact resolve_of_contains hu hone
    have hbyte : storageByte w u.storage (viewIndex u b) = some x := by
      rw [hw, hw0]
      exact hx
    exact memRead_of_peek _ b x ((peekByte_of_resolve hres hk).trans hbyte)

end Sys2Proof.Machine
end

section
/-! PROOFS. O8, O15, O24: what an access leaves alone (R62, R67, R101, R160), and the store instructions (R193 to
R195). -/

namespace Sys2Proof.Machine

open Sys2Proof.Safety

/-- Settles O15: each of the four changes the world alone. -/
theorem accessesKeepCpuRegisters : Obligations.AccessesKeepCpuRegisters := by
  refine ⟨fun s t a v h => ?_, fun s t a v h => ?_, fun s t m e h => ?_, fun s t x h => ?_⟩
  · obtain ⟨w, rfl⟩ := memRead_world h
    exact sameCpu_setWorld s w
  · obtain ⟨w, rfl⟩ := memWrite_world h
    exact sameCpu_setWorld s w
  · obtain ⟨w, rfl⟩ := effAddr_world s m e t h
    exact sameCpu_setWorld s w
  · obtain ⟨w, rfl⟩ := fetch_world h
    exact sameCpu_setWorld s w

/-! ## The frame of a store -/

/-- In world `w`, of all that `s` holds in memory, at most the bytes behind the addresses `stored` differ, and no
request latch. -/
structure OnlyStored (s : State) (stored : List Word) (w : World) : Prop where
  memory : MemKept s (s.setWorld w) stored
  latches : ∀ l, w.requested l = s.world.requested l

/-- A store to plain memory answers, stores the byte, and changes no other byte and no latch (R67). -/
theorem memWrite_onlyStored {s : State} {a : Word} (v : Byte) (h : Writable s a) :
    ∃ w, memWrite s a v = .ok (s.setWorld w) ∧ StoredAt s a v w ∧ OnlyStored s [a] w := by
  obtain ⟨id, k, hl, hs, ht⟩ := memWrite_of_writable s a v h
  exact ⟨_, ht, ⟨rfl, peek_putStorage s a id k v hl hs⟩, memKept_putStorage s a id k v hl hs,
    fun l => by cases l <;> rfl⟩

/-- A change of the world that keeps the latches keeps the CPU. -/
theorem OnlyStored.cpuKept {s : State} {stored : List Word} {w : World} (h : OnlyStored s stored w) :
    CpuKept s (s.setWorld w) [] [] false where
  regs r _ := by cases r <;> rfl
  flags _ _ := rfl
  bit5 := rfl
  anomaly := (Bool.or_false _).symm
  latches := h.latches
  clk := rfl
  jamNow := rfl
  pagePenalty := rfl
  plat := rfl

/-- Settles O8: the store of a byte, and the store that is discarded. -/
theorem plainWriteReplacesStoredByte : Obligations.PlainWriteReplacesStoredByte := by
  refine fun s a v => ⟨fun h => ?_, memWrite_of_discards s a v⟩
  obtain ⟨w, ht, hst, hw⟩ := memWrite_onlyStored v h
  exact ⟨_, ht, fun b hb => memRead_of_peek _ b v ((hst.shows b).trans (if_pos hb)), hw.cpuKept, rfl, rfl, hw.memory⟩

/-! ## The store instructions -/

/-- An instruction that is one `StoreOperand` of `v` stores `v` and does nothing else (R173). -/
theorem storesByte_of_storeOperand {i : Instr} {v : Byte} {m : MemOperand} {s : State}
    (hi : exec i s = outcome (storeOperand s m v)) : StoresByte i v m s := by
  intro e s1 he
  have hexec : ∀ t, memWrite s1 e.addr v = .ok t → exec i s = .next t := fun t ht =>
    hi.trans ((outcome_next_iff _ t).mpr ((storeOperand_ok_iff s m v t).mpr ⟨e, s1, he, ht⟩))
  obtain ⟨w1, rfl⟩ := effAddr_world s m e s1 he
  refine ⟨fun t ht => ?_, fun hw => ?_, fun hd => hexec _ (memWrite_of_discards _ _ v hd)⟩
  · have hnext := hexec t ht
    obtain ⟨w, rfl⟩ := memWrite_world ht
    exact ⟨hnext, rfl, fun r => by cases r <;> rfl, rfl, rfl, rfl, rfl, rfl, rfl, rfl⟩
  · obtain ⟨w, ht, hst, hstored⟩ := memWrite_onlyStored v hw
    exact ⟨_, hexec _ ht, (hst.shows _).trans (if_pos rfl), hstored.cpuKept, rfl, rfl, hstored.memory⟩

/-- Settles O24: STA, STX and STY are `StoreOperand` of their register. -/
theorem storeInstructions : Obligations.StoreInstructions :=
  fun _ _ => ⟨storesByte_of_storeOperand rfl, storesByte_of_storeOperand rfl, storesByte_of_storeOperand rfl⟩

end Sys2Proof.Machine
end

section
/-! PROOFS. O16, O17, O18, O37, O42, O43, O45, O52: pushes and pulls with their frames, and the instructions and the
interrupt service made of them (R78 to R83, R282, R290, R302, R303, R330, R360). -/

namespace Sys2Proof.Machine

open Sys2Proof.Safety

/-! ## Frames in sequence -/

/-- What memory keeps depends on the worlds and the platform alone. -/
theorem memKept_congr {s s' t t' : State} {stored : List Word} (h : MemKept s t stored) (hs : s'.world = s.world)
    (hsp : s'.plat = s.plat) (ht : t'.world = t.world) (htp : t'.plat = t.plat) : MemKept s' t' stored := by
  have hloc : s'.locate = s.locate := by
    funext a; rw [State.locate, State.locate, hs, hsp]
  have hpeek : ∀ {x y : State}, y.world = x.world → y.plat = x.plat → y.peek = x.peek := by
    intro x y hw hp
    funext a; rw [State.peek, State.peek, hw, hp]
  exact {
    bytes := by rw [hloc, hpeek hs hsp, hpeek ht htp]; exact h.bytes
    storage := by rw [hloc, hs, ht]; exact h.storage
    storages := by rw [hs, ht]; exact h.storages
    active := by rw [hs, ht]; exact h.active
    dev := by rw [hs, ht]; exact h.dev
    observers := by rw [hs, ht]; exact h.observers }

/-- What two operations in a row keep, they keep together: the first moves no view (R63). -/
theorem memKept_trans {s t u : State} {l l' : List Word} (h : MemKept s t l) (h' : MemKept t u l')
    (hp : t.plat = s.plat) : MemKept s u (l ++ l') := by
  have hloc : ∀ a, t.locate a = s.locate a := by
    intro a
    rw [State.locate, State.locate, hp]
    exact locate_congr s.plat h.active a
  refine ⟨fun b hb => ?_, fun id k hk => ?_, fun hnil => ?_, h'.active.trans h.active, h'.dev.trans h.dev,
    h'.observers.trans h.observers⟩
  · refine (h'.bytes b fun a ha => ?_).trans (h.bytes b fun a ha => hb a (List.mem_append_left _ ha))
    rw [hloc, hloc]
    exact hb a (List.mem_append_right _ ha)
  · refine (h'.storage id k fun a ha => ?_).trans (h.storage id k fun a ha => hk a (List.mem_append_left _ ha))
    rw [hloc]
    exact hk a (List.mem_append_right _ ha)
  · obtain ⟨hl, hl'⟩ := List.append_eq_nil_iff.mp hnil
    exact (h'.storages hl').trans (h.storages hl)

/-! ## What pushes and pulls do to the CPU -/

/-- A change of `SP` and of the world that keeps the latches keeps the rest of the CPU. -/
theorem cpuKept_setSp (s : State) (wrap : Bool) (sp : Byte) {w : World}
    (hl : ∀ l, w.requested l = s.world.requested l) :
    CpuKept s (((s.noteAnomaly wrap).setSp sp).setWorld w) [.sp] [] wrap where
  regs r hr := by
    cases r with
    | a | x | y => rfl
    | sp => simp at hr
  flags _ _ := rfl
  bit5 := rfl
  anomaly := rfl
  latches := hl
  clk := rfl
  jamNow := rfl
  pagePenalty := rfl
  plat := rfl

theorem cpuKept_pulled (s : State) (n : Nat) : CpuKept s (s.pulled n) [.sp] [] (decide (256 ≤ s.sp.toNat + n)) :=
  cpuKept_setSp s (decide (256 ≤ s.sp.toNat + n)) (s.sp + BitVec.ofNat 8 n) (w := s.world) fun _ => rfl

/-- A jump changes nothing of what `CpuKept` speaks of. -/
theorem cpuKept_then_setPc {s t : State} {regs : List Reg} {flags : List Flag} {wrap : Bool}
    (h : CpuKept s t regs flags wrap) (x : Word) : CpuKept s (t.setPc x) regs flags wrap :=
  ⟨fun r hr => (show regOf (t.setPc x) r = regOf t r by cases r <;> rfl).trans (h.regs r hr), h.flags, h.bit5,
    h.anomaly, h.latches, h.clk, h.jamNow, h.pagePenalty, h.plat⟩

/-! ## One push, one pull -/

/-- The stack address, in numbers (R21, R79). -/
theorem stackAddr_toNat (s : State) (sp : Byte) :
    (s.stackAddr sp).toNat = (s.plat.params.stackBase.toNat + sp.toNat) % 65536 := by
  have := sp.isLt
  rw [State.stackAddr, BitVec.toNat_add, zext16, BitVec.toNat_setWidth]
  omega

/-- A push to plain memory stores the byte at `STACK_BASE + SP`, and no other (R79). -/
theorem push8_onlyStored {s : State} (v : Byte) (h : Writable s (s.stackAddr s.sp)) :
    ∃ w, push8 s v = .ok ((s.pushed 1).setWorld w) ∧ StoredAt s (s.stackAddr s.sp) v w ∧
      OnlyStored s [s.stackAddr s.sp] w := by
  obtain ⟨w, hw, hst, honly⟩ := memWrite_onlyStored v h
  refine ⟨w, (push8_ok_iff s v _).mpr ⟨s.setWorld w, hw, ?_⟩, hst, honly⟩
  rw [← State.pushed_one]; rfl

/-- Settles O16: the store and what the push adds to it, then both on plain memory. -/
theorem pushStoresThenDecrements : Obligations.PushStoresThenDecrements := by
  refine fun s v => ⟨stackAddr_toNat s s.sp, fun hbase => ?_, fun t ht => ?_, fun h => ?_⟩
  · have hdefault : Params.default.stackBase.toNat = 0x0100 := rfl
    have := s.sp.isLt
    rw [stackAddr_toNat, hbase, hdefault]
    omega
  · obtain ⟨w, rfl⟩ := memWrite_world ht
    exact (push8_ok_iff s v _).mpr ⟨_, ht, rfl⟩
  · obtain ⟨w, hpush, hst, honly⟩ := push8_onlyStored v h
    refine ⟨_, hpush, rfl, (hst.shows _).trans (if_pos rfl), ?_, rfl, rfl, memKept_congr honly.memory rfl rfl rfl rfl⟩
    rw [← State.pushed_one]
    exact cpuKept_setSp s _ _ honly.latches

/-- Settles O17: a pull is a load from the state with the new `SP`; from ordinary memory it changes no world. -/
theorem pullIncrementsThenLoads : Obligations.PullIncrementsThenLoads := by
  refine fun s => ⟨fun r hr => hr, fun v hv => ?_⟩
  refine ⟨_, pull8_of_peek hv, rfl, ?_, rfl, rfl, memKept_of_world s _ rfl rfl⟩
  rw [← State.pulled_one]
  exact cpuKept_setSp s (s.sp == 0xFF#8) (s.sp + 1#8) (w := s.world) fun _ => rfl

/-- An instruction that is one push, where the stack address is plain memory (R79). -/
theorem exec_push_of_writable {s : State} {i : Instr} {v : Byte} (hi : exec i s = outcome (push8 s v))
    (h : Writable s (s.stackAddr s.sp)) :
    ∃ t, exec i s = .next t ∧ t.peek (s.stackAddr s.sp) = some v ∧ t.sp = s.sp - 1#8 ∧
      CpuKept s t [.sp] [] (decide (s.sp = 0x00#8)) ∧ t.pc = s.pc ∧ t.cycles = s.cycles ∧
      MemKept s t [s.stackAddr s.sp] := by
  obtain ⟨-, -, -, hplain⟩ := pushStoresThenDecrements s v
  obtain ⟨t, ht, hsp, hpeek, hkept⟩ := hplain h
  exact ⟨t, hi.trans ((outcome_next_iff _ t).mpr ht), hpeek, hsp, hkept⟩

/-- Settles O37: PHA and PHP are one push each. -/
theorem pushInstructions : Obligations.PushInstructions :=
  fun s h => ⟨exec_push_of_writable (i := .pha) rfl h,
    exec_push_of_writable (i := .php) (v := pushedByProgram s.p) rfl h⟩

/-! ## Several pushes -/

/-- The addresses to which `n` pushes from `s` store, in order (R79). -/
def pushAddrs (s : State) (n : Nat) : List Word := (List.range n).map fun k => s.stackAddr (s.sp - BitVec.ofNat 8 k)

theorem pushAddrs_succ (s : State) (n : Nat) :
    pushAddrs s (n + 1) = pushAddrs s n ++ [s.stackAddr (s.sp - BitVec.ofNat 8 n)] := by
  simp [pushAddrs, List.range_succ]

/-- The bytes `l` lie on the stack as pushes from `s` put them, and nothing else of memory or latches differs. -/
structure OnlyPushed (s : State) (l : List Byte) (w : World) : Prop where
  onStack : OnStack s l w
  only : OnlyStored s (pushAddrs s l.length) w

theorem OnlyPushed.nil {s : State} (h : StackReady s) : OnlyPushed s [] s.world :=
  ⟨.nil h, memKept_of_world s _ rfl rfl, fun _ => rfl⟩

/-- One push more stores at one address more. -/
theorem OnlyPushed.push {s : State} {l : List Byte} {w : World} (h : OnlyPushed s l w) (hlen : l.length < 256)
    (v : Byte) : ∃ w', push8 ((s.pushed l.length).setWorld w) v = .ok ((s.pushed (l.length + 1)).setWorld w') ∧
      OnlyPushed s (l ++ [v]) w' := by
  obtain ⟨w', hpush, hst⟩ := h.onStack.push hlen v
  obtain ⟨w1, hpush1, -, honly⟩ := push8_onlyStored (s := (s.pushed l.length).setWorld w) v (h.onStack.ready.plain _)
  have hw : w1 = w' := congrArg State.world (Except.ok.inj (hpush1.symm.trans hpush))
  subst hw
  refine ⟨w1, hpush, hst, ?_, fun line => (honly.latches line).trans (h.only.latches line)⟩
  rw [List.length_append, List.length_singleton, pushAddrs_succ]
  exact memKept_trans h.only.memory (memKept_congr honly.memory rfl rfl rfl rfl) rfl

/-- Two pushes to a ready stack (R81). -/
theorem push16_onlyPushed {s : State} (x : Word) (hs : StackReady s) :
    ∃ w, push16 s x = .ok ((s.pushed 2).setWorld w) ∧ OnlyPushed s [hiByte x, loByte x] w := by
  obtain ⟨w1, hp1, hw1⟩ := (OnlyPushed.nil hs).push (Nat.zero_lt_succ _) (hiByte x)
  obtain ⟨w2, hp2, hw2⟩ := hw1.push (show 1 < 256 by decide) (loByte x)
  rw [List.length_nil, State.pushed_zero] at hp1
  exact ⟨w2, (push16_ok_iff s x _).mpr ⟨(s.pushed 1).setWorld w1, hp1, hp2⟩, hw2⟩

/-- The byte pushed first lies at the stack address. -/
theorem OnlyPushed.peek_first {s : State} {v : Byte} {l : List Byte} {w : World} (h : OnlyPushed s (v :: l) w) :
    (s.setWorld w).peek (s.stackAddr s.sp) = some v := by
  have hv := h.onStack.shows 0 v rfl
  rwa [BitVec.sub_zero] at hv

/-- Where pushes store, with the address of the first written as the stack address is. -/
theorem pushAddrs_two (s : State) : pushAddrs s 2 = [s.stackAddr s.sp, s.stackAddr (s.sp - 1#8)] := by
  simp [pushAddrs, List.range_succ]

theorem pushAddrs_three (s : State) :
    pushAddrs s 3 = [s.stackAddr s.sp, s.stackAddr (s.sp - 1#8), s.stackAddr (s.sp - 2#8)] := by
  simp [pushAddrs, List.range_succ]

/-! ## Words on the stack -/

/-- Two pulls below two pushes find the word pushed and restore `SP` (R81), whatever `PC` is by then. -/
theorem OnlyPushed.pull16 {s t : State} {x : Word} {w : World} (h : OnlyPushed s [hiByte x, loByte x] w)
    (hw : t.world = w) (hp : t.plat = s.plat) (hsp : t.sp = s.sp - 2#8) :
    Machine.pull16 t = .ok (x, t.pulled 2) ∧ (t.pulled 2).sp = s.sp := by
  have hpeek : ∀ a, t.peek a = (s.setWorld w).peek a := by
    intro a; rw [State.peek, hw, hp]; rfl
  have haddr : ∀ sp, t.stackAddr sp = s.stackAddr sp := by
    intro sp; rw [State.stackAddr, hp]; rfl
  have hsp1 : t.sp + 1#8 = s.sp - 1#8 := by rw [hsp]; bv_omega
  have hsp2 : t.sp + 2#8 = s.sp := by rw [hsp, BitVec.sub_add_cancel]
  refine ⟨?_, hsp2⟩
  rw [pull16_of_peek (lo := loByte x) (hi := hiByte x), wordOf_hi_lo]
  · rw [hpeek, haddr, hsp1]
    exact h.onStack.shows 1 _ rfl
  · rw [hpeek, haddr, hsp2]
    exact h.peek_first

/-- Settles O18: two pushes to a ready stack, and the pulls that take them back. -/
theorem pushedWordIsPulledBack : Obligations.PushedWordIsPulledBack := by
  intro s x hs
  obtain ⟨w, hpush, hw⟩ := push16_onlyPushed x hs
  obtain ⟨hpull, hsp⟩ := hw.pull16 (t := (s.pushed 2).setWorld w) rfl rfl rfl
  exact ⟨_, _, hpush, rfl, hw.peek_first, hw.onStack.shows 1 _ rfl, hpull, hsp⟩

/-- JSR pushes the address of its own last byte and jumps (R302). -/
theorem exec_jsr_onlyPushed {s : State} (x : Word) (hs : StackReady s) :
    ∃ w, exec (.jsr x) s = .next (((s.pushed 2).setWorld w).setPc x) ∧
      OnlyPushed s [hiByte (s.pc - 1#16), loByte (s.pc - 1#16)] w := by
  obtain ⟨w, hpush, hw⟩ := push16_onlyPushed (s.pc - 1#16) hs
  exact ⟨w, (outcome_next_iff _ _).mpr ((bind_ok_iff _ _ _).mpr ⟨_, hpush, rfl⟩), hw⟩

/-- RTS goes past the address that it pulls (R303). -/
theorem exec_rts_of_pull16 {s t : State} {x : Word} (h : pull16 s = .ok (x, t)) :
    exec .rts s = .next (t.setPc (x + 1#16)) :=
  (outcome_next_iff _ _).mpr ((bind_ok_iff _ _ _).mpr ⟨_, h, rfl⟩)

theorem wordOf_toNat (hi lo : Byte) : (wordOf hi lo).toNat = 256 * hi.toNat + lo.toNat := by
  have := lo.isLt
  rw [wordOf, BitVec.toNat_append, ← Nat.shiftLeft_add_eq_or_of_lt this, Nat.shiftLeft_eq]
  omega

/-- Settles O42: JSR as two pushes, RTS as two pulls. -/
theorem subroutineInstructions : Obligations.SubroutineInstructions := by
  refine fun s => ⟨fun x hs => ?_, fun lo hi hlo hhi => ?_⟩
  · obtain ⟨w, hjsr, hw⟩ := exec_jsr_onlyPushed x hs
    refine ⟨_, hjsr, rfl, rfl, hw.peek_first, hw.onStack.shows 1 _ rfl, rfl,
      cpuKept_then_setPc (cpuKept_setSp s _ _ hw.only.latches) x, ?_⟩
    rw [← pushAddrs_two]
    exact memKept_congr hw.only.memory rfl rfl rfl rfl
  · refine ⟨_, exec_rts_of_pull16 (pull16_of_peek hlo hhi), ?_, rfl, rfl, ?_, memKept_of_world s _ rfl rfl⟩
    · rw [State.setPc_pc, BitVec.toNat_add, wordOf_toNat]
      rfl
    · have hwrap : decide (254 ≤ s.sp.toNat) = decide (256 ≤ s.sp.toNat + 2) := by
        rw [decide_eq_decide]; omega
      rw [hwrap]
      exact cpuKept_then_setPc (cpuKept_pulled s 2) _

/-- Settles O43: RTS pulls what JSR pushed. -/
theorem callThenReturn : Obligations.CallThenReturn := by
  intro s x hs
  obtain ⟨w, hjsr, hw⟩ := exec_jsr_onlyPushed x hs
  obtain ⟨hpull, hsp⟩ := hw.pull16 (t := ((s.pushed 2).setWorld w).setPc x) rfl rfl rfl
  exact ⟨_, _, hjsr, rfl, exec_rts_of_pull16 hpull, BitVec.sub_add_cancel s.pc 1#16, hsp⟩

/-! ## Exceptions -/

/-- The state that entering an exception leaves, with the world `w` and the handler's address `target` (R330, R360). -/
def State.entered (s : State) (setI : Bool) (w : World) (target : Word) : State :=
  (((s.pushed 3).setP (if setI then putFlag s.p .i true else s.p)).setWorld w).setPc target

/-- Entering an exception pushes three bytes to a ready stack and goes to the word that the vector shows then (R330,
R360, R363). -/
theorem enterException_onlyPushed {s : State} (ret : Word) (status : Byte) (setI : Bool) {vector : Word}
    (hs : StackReady s) (h0 : Ordinary s vector) (h1 : Ordinary s (vector + 1#16)) :
    ∃ w lo hi, enterException s ret status setI vector = .ok (s.entered setI w (wordOf hi lo)) ∧
      (s.setWorld w).peek vector = some lo ∧ (s.setWorld w).peek (vector + 1#16) = some hi ∧
      OnlyPushed s [hiByte ret, loByte ret, status] w := by
  obtain ⟨w2, hp2, hw2⟩ := push16_onlyPushed ret hs
  obtain ⟨w3, hp3, hw3⟩ := hw2.push (show 2 < 256 by decide) status
  obtain ⟨lo, hlo⟩ := Option.isSome_iff_exists.mp (hw3.onStack.ordinary _ h0)
  obtain ⟨hi, hhi⟩ := Option.isSome_iff_exists.mp (hw3.onStack.ordinary _ h1)
  refine ⟨w3, lo, hi, (enterException_ok_iff s ret status setI vector _).mpr
    ⟨_, _, wordOf hi lo, _, hp2, hp3, ?_, rfl⟩, hlo, hhi, hw3⟩
  cases setI <;> exact memReadPair_of_peek _ vector (vector + 1#16) lo hi hlo hhi

theorem entered_peek (s : State) (setI : Bool) (w : World) (target a : Word) :
    (s.entered setI w target).peek a = (s.setWorld w).peek a := by
  simp [State.peek, State.entered]

/-- Of the flags, entering an exception writes I alone, to 1 if at all. -/
theorem entered_flag (s : State) (setI : Bool) (w : World) (target : Word) (f : Flag) :
    (s.entered setI w target).flag f = (s.flag f || (decide (f = .i) && setI)) := by
  cases setI with
  | false => rw [Bool.and_false, Bool.or_false]; rfl
  | true =>
    refine (getFlag_putFlag s.p .i f true).trans ?_
    by_cases hf : f = .i <;> simp [hf, State.flag]

/-- The CPU's part of the frame of an exception (R330, R360). -/
theorem entered_kept (s : State) (setI : Bool) {w : World} (target : Word)
    (hl : ∀ l, w.requested l = s.world.requested l) :
    CpuKept s (s.entered setI w target) [.sp] [.i] (decide (s.sp.toNat < 3)) where
  regs r hr := by
    cases r with
    | a | x | y => simp [regOf, State.entered]
    | sp => simp at hr
  flags f hf := by
    have hi : f ≠ .i := fun h => hf (by simp [h])
    rw [entered_flag, decide_eq_false hi, Bool.false_and, Bool.or_false]
  bit5 := by
    cases setI with
    | false => rfl
    | true => exact putFlag_bit5 s.p .i true
  anomaly := by simp [State.entered]
  latches := hl
  clk := by simp [State.entered]
  jamNow := by simp [State.entered]
  pagePenalty := by simp [State.entered]
  plat := by simp [State.entered]

/-- The memory's part of the frame of an exception (R330, R360). -/
theorem entered_memKept {s : State} {setI : Bool} {w : World} {target : Word} {b0 b1 b2 : Byte}
    (h : OnlyPushed s [b0, b1, b2] w) : MemKept s (s.entered setI w target)
      [s.stackAddr s.sp, s.stackAddr (s.sp - 1#8), s.stackAddr (s.sp - 2#8)] := by
  rw [← pushAddrs_three]
  exact memKept_congr h.only.memory rfl rfl (by simp [State.entered]) (by simp [State.entered])

/-- Settles O45: BRK enters an exception that sets I. -/
theorem breakEntersHandler : Obligations.BreakEntersHandler := by
  intro s hs h0 h1
  obtain ⟨w, lo, hi, hent, hlo, hhi, hw⟩ := enterException_onlyPushed (s.pc + 1#16) (pushedByProgram s.p) true hs h0 h1
  have hflag : (s.entered true w (wordOf hi lo)).flag .i = true := by
    rw [entered_flag, decide_eq_true rfl, Bool.true_and, Bool.or_true]
  have hpeek := entered_peek s true w (wordOf hi lo)
  refine ⟨_, lo, hi, (outcome_next_iff _ _).mpr hent, (hpeek _).trans hlo, (hpeek _).trans hhi, ?_, ?_, hflag,
    (hpeek _).trans hw.peek_first, (hpeek _).trans (hw.onStack.shows 1 _ rfl),
    (hpeek _).trans (hw.onStack.shows 2 _ rfl), ?_, entered_kept s true _ hw.only.latches, entered_memKept hw⟩
  all_goals simp [State.entered]

theorem requested_setRequest (w : World) (l l' : Line) (b : Bool) :
    (w.setRequest l b).requested l' = if l' = l then b else w.requested l' := by
  cases l <;> cases l' <;> rfl

/-- A request latch is no part of memory. -/
theorem memKept_setRequest (s : State) (l : Line) (b : Bool) : MemKept s (s.setWorld (s.world.setRequest l b)) [] := by
  cases l <;> exact ⟨fun _ _ => rfl, fun _ _ _ => rfl, fun _ => rfl, rfl, rfl, rfl⟩

/-- The state that service of a line leaves, with the world `w` after the pushes and the handler's address (R360,
R364). -/
def State.served (s : State) (l : Line) (w : World) (target : Word) : State :=
  ((s.entered (l == .irq || s.plat.params.nmiSetsI) w target).setWorld (w.setRequest l false)).addCycles
    s.plat.params.intCycles

theorem served_peek (s : State) (l : Line) (w : World) (target a : Word) :
    (s.served l w target).peek a = (s.setWorld w).peek a := by
  rw [← peek_setRequest s w l false]
  simp [State.peek, State.served, State.entered]

theorem served_flag (s : State) (l : Line) (w : World) (target : Word) (f : Flag) :
    (s.served l w target).flag f = (s.entered (l == .irq || s.plat.params.nmiSetsI) w target).flag f := by
  simp [State.served, State.flag]

theorem served_requested (s : State) (l l' : Line) (w : World) (target : Word) :
    (s.served l w target).world.requested l' = if l' = l then false else w.requested l' :=
  requested_setRequest w l l' false

theorem served_memKept {s : State} {l : Line} {w : World} {target : Word} {b0 b1 b2 : Byte}
    (h : OnlyPushed s [b0, b1, b2] w) : MemKept s (s.served l w target)
      [s.stackAddr s.sp, s.stackAddr (s.sp - 1#8), s.stackAddr (s.sp - 2#8)] := by
  have hmem := memKept_trans (entered_memKept (setI := l == .irq || s.plat.params.nmiSetsI) (target := target) h)
    (memKept_setRequest _ l false) rfl
  rw [List.append_nil] at hmem
  exact memKept_congr hmem rfl rfl rfl rfl

/-- Settles O52: service enters an exception, clears the line's latch and adds the cycles. -/
theorem interruptServiceFrame : Obligations.InterruptServiceFrame := by
  intro s l vector hvector hs h0 h1
  obtain rfl : vector = lineVector s.plat.params l := by cases l <;> exact hvector
  obtain ⟨w, lo, hi, hent, hlo, hhi, hw⟩ := enterException_onlyPushed s.pc (pushedByInterrupt s.p)
    (l == .irq || s.plat.params.nmiSetsI) hs h0 h1
  have hserve : service s l = .ok (s.served l w (wordOf hi lo)) := (service_ok_iff s l _).mpr ⟨_, hent, rfl⟩
  have hkept := entered_kept s (l == .irq || s.plat.params.nmiSetsI) (wordOf hi lo) hw.only.latches
  have hpeek := served_peek s l w (wordOf hi lo)
  have hflag : (s.served l w (wordOf hi lo)).flag .i = (s.flag .i || decide (l = .irq) || s.plat.params.nmiSetsI) := by
    rw [served_flag, entered_flag, decide_eq_true rfl, Bool.true_and, Bool.or_assoc]
    rfl
  refine ⟨_, lo, hi, hserve, (hpeek _).trans hlo, (hpeek _).trans hhi, ?_, ?_, (hpeek _).trans hw.peek_first,
    (hpeek _).trans (hw.onStack.shows 1 _ rfl), (hpeek _).trans (hw.onStack.shows 2 _ rfl), hflag,
    fun f hf => (served_flag s l w _ f).trans (hkept.flags f (by simpa using hf)), hkept.bit5, ?_, ?_, ?_,
    hkept.anomaly, (served_requested s l l w _).trans (if_pos rfl),
    fun l' hl' => ((served_requested s l l' w _).trans (if_neg hl')).trans (hkept.latches l'), ?_, ?_, ?_, ?_, ?_,
    served_memKept hw⟩
  all_goals simp [State.served, State.entered]

end Sys2Proof.Machine
end

section
/-! PROOFS. O1 to O4: the decoder and the encoder are inverse to each other, and every opcode byte decodes (R121, R122,
R126 to R129). -/

namespace Sys2Proof

/-! ## What decoding consumes -/

/-- The bytes are one opcode and all the parameters that its template asks for, and binding these gives `i` (R120, R122). -/
def IsCode (code : List Byte) (i : Instr) : Prop :=
  ∃ op ps, code = op :: ps ∧ (optable Params.default op).length = ps.length + 1 ∧
    bindParams (optable Params.default op) ps = i

theorem isCode_cons {op : Byte} {ps : List Byte} {i : Instr} (hlen : (optable Params.default op).length = ps.length + 1)
    (hbind : bindParams (optable Params.default op) ps = i) : IsCode (op :: ps) i :=
  ⟨op, ps, rfl, hlen, hbind⟩

/-- Binding takes the parameters off the front of the bytes (R122). -/
theorem takeParams_ok_iff (op : Byte) (t : Template) (n : Nat) (bytes rest : List Byte) (i : Instr) (hn : n ≤ t.length) :
    takeParams op t n bytes = .ok (i, rest) ↔
      ∃ ps, bytes = ps ++ rest ∧ t.length = ps.length + n ∧ bindParams t ps = i := by
  constructor
  · intro h
    by_cases hshort : bytes.length + n < t.length
    · simp [takeParams, hshort] at h
    · rw [takeParams_ok op t n bytes (Nat.le_of_not_lt hshort)] at h
      obtain ⟨hi, hrest⟩ := Prod.mk.inj (Except.ok.inj h)
      refine ⟨bytes.take (t.length - n), ?_, ?_, hi⟩
      · rw [← hrest, List.take_append_drop]
      · rw [List.length_take]; omega
  · rintro ⟨ps, rfl, hlen, rfl⟩
    rw [takeParams_ok op t n _ (by simp [hlen])]
    simp [hlen]

/-- The decoder answers `i` exactly for a code of `i`, and leaves what follows the code (R122, R123). -/
theorem decode_ok_iff (bytes : List Byte) (i : Instr) (rest : List Byte) :
    decode bytes = .ok (i, rest) ↔ ∃ code, IsCode code i ∧ bytes = code ++ rest := by
  constructor
  · intro h
    cases bytes with
    | nil => cases h
    | cons op bytes =>
      simp only [decode, decodeWith, prefixOf_default] at h
      obtain ⟨ps, rfl, hlen, hbind⟩ := (takeParams_ok_iff _ _ _ _ _ _ (optable_length_le op).1).mp h
      exact ⟨op :: ps, isCode_cons hlen hbind, rfl⟩
  · rintro ⟨_, ⟨op, ps, rfl, hlen, hbind⟩, rfl⟩
    simp only [decode, decodeWith, prefixOf_default, List.cons_append]
    exact (takeParams_ok_iff _ _ _ _ _ _ (optable_length_le op).1).mpr ⟨ps, rfl, hlen, hbind⟩

/-! ## The encoder writes codes -/

/-- Binding a memory operand's own parameter bytes to its mode gives the operand back (R126). -/
theorem bind_memParams (m : MemOperand) :
    (unboundOperand m.mode).bind ((memParams m).getD 0 0#8) ((memParams m).getD 1 0#8) = m := by
  cases m with
  | zp | zpx | zpy | izx | izy => rfl
  | abs w => exact congrArg MemOperand.abs (wordOf_hi_lo w)
  | abx w => exact congrArg MemOperand.abx (wordOf_hi_lo w)
  | aby w => exact congrArg MemOperand.aby (wordOf_hi_lo w)

/-- Every opcode that an encoder's table lists for a mode selects the template of instruction `f` in that mode (R127). -/
abbrev TableIsOf (table : List (MemMode × Byte)) (f : MemOperand → Instr) : Prop :=
  ∀ e ∈ table, (optable Params.default e.2).instr = f (unboundOperand e.1) ∧
    (optable Params.default e.2).length = paramCount e.1 + 1

/-- The table has an opcode for an operand in one of its modes. -/
theorem encodeMem_of_within {table : List (MemMode × Byte)} {m : MemOperand} (h : m.within (table.map Prod.fst) = true) :
    ∃ op, (m.mode, op) ∈ table ∧ encodeMem table m = op :: memParams m := by
  simp only [MemOperand.within, List.contains_eq_mem, decide_eq_true_eq, List.mem_map] at h
  obtain ⟨⟨mode, op⟩, hmem, rfl⟩ := h
  cases hop : table.lookup m.mode with
  | none => simpa using List.lookup_eq_none_iff.mp hop _ hmem
  | some op => exact ⟨op, mem_of_lookup hop, by simp [encodeMem, hop]⟩

theorem encodeMem_isCode {table : List (MemMode × Byte)} {f : MemOperand → Instr} {m : MemOperand}
    (htable : TableIsOf table f)
    (hbind : ∀ ps o, (f o).bind ps = f (o.bind (ps.getD 0 0#8) (ps.getD 1 0#8)))
    (h : m.within (table.map Prod.fst) = true) : IsCode (encodeMem table m) (f m) := by
  obtain ⟨op, hop, hcode⟩ := encodeMem_of_within h
  obtain ⟨hinstr, hlen⟩ := htable _ hop
  rw [hcode]
  refine isCode_cons (by rw [hlen, memParams_length]) ?_
  rw [bindParams, hinstr, hbind, bind_memParams]

/-- A read-class instruction: the immediate form, or a memory mode. -/
theorem encodeRead_isCode {immOp : Byte} {table : List (MemMode × Byte)} {f : Operand → Instr} {o : Operand}
    (hlen : (optable Params.default immOp).length = 2)
    (himm : ∀ v, bindParams (optable Params.default immOp) [v] = f (.imm v))
    (htable : TableIsOf table fun m => f (.mem m))
    (hbind : ∀ ps o, (f o).bind ps = f (o.bind (ps.getD 0 0#8) (ps.getD 1 0#8)))
    (h : o.within true (table.map Prod.fst) = true) : IsCode (encodeRead immOp table o) (f o) := by
  cases o with
  | imm v => exact isCode_cons hlen (himm v)
  | mem m => exact encodeMem_isCode htable (fun ps m => hbind ps (.mem m)) h

/-- A shift or rotate: the accumulator form, or a memory mode. -/
theorem encodeShift_isCode {accOp : Byte} {table : List (MemMode × Byte)} {f : ShiftOperand → Instr} {o : ShiftOperand}
    (hlen : (optable Params.default accOp).length = 1)
    (hacc : bindParams (optable Params.default accOp) [] = f .acc)
    (htable : TableIsOf table fun m => f (.mem m))
    (hbind : ∀ ps o, (f o).bind ps = f (o.bind (ps.getD 0 0#8) (ps.getD 1 0#8)))
    (h : o.within (table.map Prod.fst) = true) : IsCode (encodeShift accOp table o) (f o) := by
  cases o with
  | acc => exact isCode_cons hlen hacc
  | mem m => exact encodeMem_isCode htable (fun ps m => hbind ps (.mem m)) h

/-- An instruction whose whole operand is a word binds it from its two bytes, low byte first (R126). -/
theorem word_isCode {op : Byte} {f : Word → Instr} (w : Word) (hlen : (optable Params.default op).length = 3)
    (hbind : ∀ lo hi, bindParams (optable Params.default op) [lo, hi] = f (wordOf hi lo)) :
    IsCode [op, loByte w, hiByte w] (f w) :=
  isCode_cons hlen (by rw [hbind, wordOf_hi_lo])

/-- What the encoder writes for a well-formed instruction is a code of it. -/
theorem encode_isCode (i : Instr) (h : WellFormed i = true) : IsCode (encode i) i := by
  cases i with
  | lda | ldx | ldy | and | ora | eor | adc | sbc | cmp | cpx | cpy =>
    exact encodeRead_isCode rfl (fun _ => rfl) (by decide) (fun _ _ => rfl) h
  | asl | lsr | rol | ror => exact encodeShift_isCode rfl rfl (by decide) (fun _ _ => rfl) h
  | sta | stx | sty | bit | inc | dec => exact encodeMem_isCode (by decide) (fun _ _ => rfl) h
  | tax | tay | txa | tya | tsx | txs | inx | iny | dex | dey | clc | sec | cli | sei | cld | sed | clv | nop | pha | php
    | pla | plp | rts | rti | brk | jam | bpl | bmi | bvc | bvs | bcc | bcs | bne | beq => exact isCode_cons rfl rfl
  | jmpAbs w | jmpInd w | jsr w => exact word_isCode w rfl fun _ _ => rfl
  | undef op ps =>
    simp only [WellFormed, Bool.and_eq_true, beq_iff_eq] at h
    obtain ⟨hop, hlen⟩ := h
    exact isCode_cons (by rw [optable_undef _ _ hop, hlen]) (by rw [optable_undef _ _ hop]; rfl)

/-- Settles O2: the encoder writes a code, and the decoder reads every code. -/
theorem decodeOfEncode : Obligations.DecodeOfEncode :=
  fun i rest h => (decode_ok_iff _ i rest).mpr ⟨encode i, encode_isCode i h, rfl⟩

/-! ## Codes are what the encoder writes -/

@[simp] theorem mode_bind (p1 p2 : Byte) (m : MemOperand) : (m.bind p1 p2).mode = m.mode := by
  cases m <;> rfl

@[simp] theorem MemOperand.within_bind (modes : List MemMode) (p1 p2 : Byte) (m : MemOperand) :
    (m.bind p1 p2).within modes = m.within modes := by
  simp [MemOperand.within]

@[simp] theorem Operand.within_bind (imm : Bool) (modes : List MemMode) (p1 p2 : Byte) (o : Operand) :
    (o.bind p1 p2).within imm modes = o.within imm modes := by
  cases o <;> simp [Operand.bind, Operand.within]

@[simp] theorem ShiftOperand.within_bind (modes : List MemMode) (p1 p2 : Byte) (o : ShiftOperand) :
    (o.bind p1 p2).within modes = o.within modes := by
  cases o <;> simp [ShiftOperand.bind, ShiftOperand.within]

/-- Binding as many parameters as there were before keeps an instruction well formed or ill formed. -/
theorem wellFormed_bind (i : Instr) (ps : List Byte) (hlen : (encode i).length = ps.length + 1) :
    WellFormed (i.bind ps) = WellFormed i := by
  cases i with
  | undef op qs =>
    simp only [encode, List.length_cons, Nat.add_right_cancel_iff] at hlen
    simp [Instr.bind, WellFormed, hlen]
  | _ => simp [Instr.bind, WellFormed]

/-- The parameter bytes of a memory operand are those bound to it (R126). -/
theorem memParams_bind (m : MemOperand) (ps : List Byte) (hlen : (memParams m).length = ps.length) :
    memParams (m.bind (ps.getD 0 0#8) (ps.getD 1 0#8)) = ps := by
  cases m with
  | zp | zpx | zpy | izx | izy =>
    obtain ⟨a, rfl⟩ := List.length_eq_one_iff.mp hlen.symm
    rfl
  | abs | abx | aby =>
    obtain ⟨a, b, rfl⟩ := List.length_eq_two.mp hlen.symm
    simp [MemOperand.bind, memParams]

theorem encodeMem_bind {table : List (MemMode × Byte)} {m : MemOperand} {op : Byte} {qs ps : List Byte}
    (h : encodeMem table m = op :: qs) (hlen : qs.length = ps.length) :
    encodeMem table (m.bind (ps.getD 0 0#8) (ps.getD 1 0#8)) = op :: ps := by
  unfold encodeMem at h ⊢
  rw [mode_bind]
  split at h
  · obtain ⟨rfl, rfl⟩ := List.cons.inj h
    exact congrArg _ (memParams_bind m ps hlen)
  · cases h

/-- Binding the parameters of a code that has none, one, or a word (R126). -/
theorem encode_bind_none {op0 op : Byte} {qs ps : List Byte} (h : [op0] = op :: qs) (hlen : qs.length = ps.length) :
    [op0] = op :: ps := by
  obtain ⟨rfl, rfl⟩ := List.cons.inj h
  rw [List.length_eq_zero_iff.mp hlen.symm]

theorem encode_bind_one {op0 v op : Byte} {qs ps : List Byte} (h : [op0, v] = op :: qs) (hlen : qs.length = ps.length) :
    [op0, ps.getD 0 0#8] = op :: ps := by
  obtain ⟨rfl, rfl⟩ := List.cons.inj h
  obtain ⟨a, rfl⟩ := List.length_eq_one_iff.mp hlen.symm
  rfl

theorem encode_bind_word {op0 a b op : Byte} {qs ps : List Byte} (h : [op0, a, b] = op :: qs)
    (hlen : qs.length = ps.length) :
    [op0, loByte (wordOf (ps.getD 1 0#8) (ps.getD 0 0#8)), hiByte (wordOf (ps.getD 1 0#8) (ps.getD 0 0#8))] = op :: ps := by
  obtain ⟨rfl, rfl⟩ := List.cons.inj h
  obtain ⟨a, b, rfl⟩ := List.length_eq_two.mp hlen.symm
  simp

/-- Binding replaces the parameter bytes of an instruction's code and keeps its opcode (R120, R122). -/
theorem encode_bind {i : Instr} {op : Byte} {qs ps : List Byte} (h : encode i = op :: qs) (hlen : qs.length = ps.length) :
    encode (i.bind ps) = op :: ps := by
  cases i with
  | lda o | ldx o | ldy o | and o | ora o | eor o | adc o | sbc o | cmp o | cpx o | cpy o =>
    cases o with
    | imm v => exact encode_bind_one h hlen
    | mem m => exact encodeMem_bind h hlen
  | asl o | lsr o | rol o | ror o =>
    cases o with
    | acc => exact encode_bind_none h hlen
    | mem m => exact encodeMem_bind h hlen
  | sta | stx | sty | bit | inc | dec => exact encodeMem_bind h hlen
  | tax | tay | txa | tya | tsx | txs | inx | iny | dex | dey | clc | sec | cli | sei | cld | sed | clv | nop | pha | php
    | pla | plp | rts | rti | brk | jam => exact encode_bind_none h hlen
  | bpl | bmi | bvc | bvs | bcc | bcs | bne | beq => exact encode_bind_one h hlen
  | jmpAbs | jmpInd | jsr => exact encode_bind_word h hlen
  | undef op0 l =>
    obtain ⟨rfl, -⟩ := List.cons.inj h
    rfl

/-- The map of R127 agrees with the Encodings sentences: an opcode that is not undefined selects a well-formed
instruction with that opcode and a code as long as the template. -/
theorem optable_encodes (op : Byte) (h : Params.default.isUndef op = false) :
    WellFormed (optable Params.default op).instr = true ∧ (encode (optable Params.default op).instr).head? = some op ∧
      (encode (optable Params.default op).instr).length = (optable Params.default op).length := by
  revert op; decide +kernel

/-- A code of an instruction is what the encoder writes for it, and the instruction is well formed. -/
theorem IsCode.eq_encode {code : List Byte} {i : Instr} (h : IsCode code i) : WellFormed i = true ∧ code = encode i := by
  obtain ⟨op, ps, rfl, hlen, rfl⟩ := h
  cases hop : Params.default.isUndef op with
  | true =>
    rw [optable_undef _ _ hop] at hlen ⊢
    exact ⟨by simp [bindParams, Instr.bind, WellFormed, hop, ← hlen], rfl⟩
  | false =>
    obtain ⟨hwf, hhead, hlen'⟩ := optable_encodes op hop
    obtain ⟨qs, hqs⟩ := List.head?_eq_some_iff.mp hhead
    rw [hlen] at hlen'
    have hqs' : qs.length = ps.length := by simpa [hqs] using hlen'
    exact ⟨(wellFormed_bind _ _ hlen').trans hwf, (encode_bind hqs hqs').symm⟩

/-- Settles O3: the decoder reads nothing but codes, and the encoder writes every code. -/
theorem encodeOfDecode : Obligations.EncodeOfDecode := by
  intro bytes i rest h
  obtain ⟨code, hcode, rfl⟩ := (decode_ok_iff bytes i rest).mp h
  obtain ⟨hwf, rfl⟩ := hcode.eq_encode
  exact ⟨hwf, rfl⟩

/-! ## Every opcode byte -/

/-- A row is found for the opcodes that some row lists (R128). -/
theorem undefRowOf_isSome_iff (rows : List UndefRow) (op : Byte) :
    (undefRowOf rows op).isSome = true ↔ ∃ r ∈ rows, op ∈ r.ops := by
  simp [undefRowOf, List.find?_isSome]

theorem undefRowOf_some {rows : List UndefRow} {op : Byte} {r : UndefRow} (h : undefRowOf rows op = some r) :
    r ∈ rows ∧ op ∈ r.ops :=
  ⟨List.mem_of_find?_eq_some h, by simpa using List.find?_some h⟩

/-- The opcodes that the map of R127 leaves open are those that the table of R128 lists, the jam apart. -/
theorem isUndef_eq_undefRow (op : Byte) : Params.default.isUndef op = (Params.default.undefRow op).isSome := by
  revert op; decide +kernel

theorem isUndef_iff_listed (op : Byte) : Params.default.isUndef op = true ↔ ∃ r ∈ Config.undefTable, op ∈ r.ops := by
  rw [isUndef_eq_undefRow]
  exact undefRowOf_isSome_iff _ op

/-- An undefined opcode has the length and the cycles of a row that lists it (R128). -/
theorem undef_length_cycles (op : Byte) (h : Params.default.isUndef op = true) :
    ∃ r ∈ Config.undefTable, op ∈ r.ops ∧ (optable Params.default op).length = r.len ∧
      (optable Params.default op).cycles = r.cyc := by
  obtain ⟨r, hr⟩ := Option.isSome_iff_exists.mp ((isUndef_eq_undefRow op).symm.trans h)
  obtain ⟨hmem, hop⟩ := undefRowOf_some hr
  refine ⟨r, hmem, hop, ?_⟩
  simp [optable_undef _ _ h, Params.undefLen, Params.undefCyc, hr]

/-- Only an undefined opcode gives the undefined instruction, since that instruction's code begins with one (R128). -/
theorem isUndef_of_decode_undef {op o : Byte} {bytes l rest : List Byte}
    (h : decode (op :: bytes) = .ok (.undef o l, rest)) : Params.default.isUndef op = true := by
  obtain ⟨hwf, hcode⟩ := encodeOfDecode _ _ _ h
  obtain ⟨rfl, -⟩ := List.cons.inj hcode
  simp only [WellFormed, Bool.and_eq_true] at hwf
  exact hwf.1

/-- Only the opcode 0xFF gives the jam (R129). -/
theorem opcode_of_decode_jam {op : Byte} {bytes rest : List Byte} (h : decode (op :: bytes) = .ok (.jam, rest)) :
    op = 0xFF#8 := by
  obtain ⟨-, hcode⟩ := encodeOfDecode _ _ _ h
  exact (List.cons.inj hcode).1

/-- A populated entry is the entry of its opcode (R121). -/
theorem entry_eq_some_iff (pr : Params) (op : Byte) (t : Template) :
    pr.entry op = some t ↔ pr.opTable[op.toNat]? = some (some t) := by
  rw [Params.entry, List.getD_eq_getElem?_getD]
  cases pr.opTable[op.toNat]? <;> simp

theorem jams_iff (pr : Params) (op : Byte) : pr.jams op = true ↔ op ∈ pr.jamSet := by
  simp [Params.jams]

theorem jams_eq_false_iff (pr : Params) (op : Byte) : pr.jams op = false ↔ op ∉ pr.jamSet := by
  simp [Params.jams]

/-- An opcode that neither jams nor is populated is undefined (R128). -/
theorem isUndef_of_unpopulated {pr : Params} {op : Byte} (hjam : op ∉ pr.jamSet)
    (h : ∀ t, pr.opTable[op.toNat]? ≠ some (some t)) : pr.isUndef op = true := by
  have hentry : pr.entry op = none :=
    Option.eq_none_iff_forall_ne_some.mpr fun t ht => h t ((entry_eq_some_iff pr op t).mp ht)
  simp [Params.isUndef, (jams_eq_false_iff pr op).mpr hjam, hentry]

/-- With one decode level no byte leads to a second table (R121). -/
theorem prefixOf_one_level {pr : Params} (h : pr.nLevels = 1) (op : Byte) : pr.prefixOf op = none := by
  simp [Params.prefixOf, h]

/-- With two, a byte listed in `PREFIXES` that does not jam does (R121; log 27). -/
theorem prefixOf_two_levels {pr : Params} {op : Byte} (h : 2 ≤ pr.nLevels) (hjam : op ∉ pr.jamSet) :
    pr.prefixOf op = pr.prefixes.find? (fun x => x.byte == op) := by
  simp [Params.prefixOf, (jams_eq_false_iff pr op).mpr hjam, Nat.not_lt.mpr h]

/-- In a level-1 table a populated entry is what its opcode selects (R121). -/
theorem Prefix.template_of_entry {x : Prefix} {op : Byte} {t : Template}
    (h : x.opTable[op.toNat]? = some (some t)) : x.template op = t := by
  simp [Prefix.template, List.getD_eq_getElem?_getD, h]

/-- Every opcode byte with two bytes after it begins with a code (R135). -/
theorem decode_three_bytes (op p1 p2 : Byte) :
    decode [op, p1, p2] = .ok (bindParams (optable Params.default op) ([p1, p2].take ((optable Params.default op).length - 1)),
      [op, p1, p2].drop (optable Params.default op).length) := by
  obtain ⟨hpos, hle⟩ := optable_length_le op
  rw [decode, decodeWith_cons _ op [p1, p2] (prefixOf_default op) hle, ← List.drop_succ_cons (a := op),
    Nat.sub_add_cancel hpos]

/-- Settles O4: which instruction an opcode byte gives follows from the code that the decoder consumed. -/
theorem everyOpcodeByteDecodes : Obligations.EveryOpcodeByteDecodes := by
  refine ⟨fun op p1 p2 => ?_, fun pr op ps => ⟨fun hjam => ?_, fun hjam T hT => ?_, fun hjam hnone => ?_⟩,
    fun pr op op1 ps x T => ⟨fun hone => ?_, fun htwo hjam hx hT hlen => ?_⟩⟩
  · obtain ⟨hpos, hle⟩ := optable_length_le op
    have hdec := decode_three_bytes op p1 p2
    refine ⟨_, _, hdec, rfl, hpos, hle, ⟨fun hi => opcode_of_decode_jam (hi ▸ hdec), ?_⟩, isUndef_iff_listed op,
      fun hop => ⟨?_, undef_length_cycles op hop⟩, fun hop o l hi => ?_⟩
    · rintro rfl
      rfl
    · rw [optable_undef _ _ hop]
      rfl
    · rw [isUndef_of_decode_undef (hi ▸ hdec)] at hop
      cases hop
  · exact optable_jam pr op ((jams_iff pr op).mpr hjam)
  · exact optable_entry pr op T ((jams_eq_false_iff pr op).mpr hjam) ((entry_eq_some_iff pr op T).mpr hT)
  · rw [optable_undef pr op (isUndef_of_unpopulated hjam hnone)]
    exact ⟨rfl, rfl, rfl⟩
  · simp [templateOf, prefixOf_one_level hone]
  · have hprefix := (prefixOf_two_levels htwo hjam).trans hx
    have htemplate := Prefix.template_of_entry hT
    refine ⟨by simp [templateOf, hprefix, htemplate], ?_⟩
    rw [decodeWith_prefix pr op op1 ps x hprefix (by rw [htemplate, hlen]), htemplate, hlen]
    simp

/-! ## Words of the spec -/

/-- Settles O1: each of the words is the code of its instruction. -/
theorem opcodeWordsDecode : Obligations.OpcodeWordsDecode :=
  ⟨decodeOfEncode (.lda (.imm 0xFF#8)) [] rfl, decodeOfEncode (.lda (.mem (.abs 0x1234#16))) [] rfl,
    decodeOfEncode (.stx (.zpy 0x10#8)) [] rfl, decodeOfEncode (.cpx (.imm 0xFF#8)) [] rfl,
    decodeOfEncode (.ror (.mem (.abx 0x3000#16))) [] rfl, decodeOfEncode .plp [] rfl,
    decodeOfEncode (.jmpInd 0x12FF#16) [] rfl, decodeOfEncode (.bne 0x03#8) [] rfl,
    decodeOfEncode (.undef 0x0C#8 [0x34#8, 0x12#8]) [] rfl, decodeOfEncode .jam [] rfl⟩

end Sys2Proof
end

section
/-! PROOFS. O22: `LoadOperand` (R173). -/

namespace Sys2Proof.Machine

/-- Where the accessor answers, `LoadOperand` is the penalty cycle and one load (R173); the accessor leaves `page_penalty`
alone. -/
theorem loadMem_of_effAddr {s s1 : State} {m : MemOperand} {e : EffAddr} (h : effAddr s m = .ok (e, s1)) :
    loadMem s m = memRead (if e.crossed && s.pagePenalty then s1.addCycles 1 else s1) e.addr := by
  obtain ⟨w, rfl⟩ := effAddr_world s m e s1 h
  rw [loadMem, h]
  rfl

/-- Settles O22: the penalty cycle is counted exactly where the address crossed a page and the template pays for it. -/
theorem readOperand : Obligations.ReadOperand := by
  refine fun s s1 m e => ⟨fun v => rfl, fun he => (loadMem_of_effAddr he).trans ?_⟩
  cases e.crossed <;> cases s.pagePenalty <;> rfl

end Sys2Proof.Machine
end

section
/-! PROOFS. O20, O21, O41, O44: the addressing modes in numbers (R163 to R172), and the jumps and branches that use them
(R300, R301, R304 to R312). -/

namespace Sys2Proof

/-! ## Words in numbers -/

/-- The page number of an address (R10). -/
theorem hiByte_toNat (w : Word) : (hiByte w).toNat = w.toNat / 256 := by
  have := w.isLt
  rw [hiByte, BitVec.extractLsb'_toNat, Nat.shiftRight_eq_div_pow]
  omega

theorem loByte_toNat (w : Word) : (loByte w).toNat = w.toNat % 256 := by
  rw [loByte, BitVec.extractLsb'_toNat, Nat.shiftRight_zero]

theorem zext16_eq_ofNat (b : Byte) : zext16 b = BitVec.ofNat 16 b.toNat := (BitVec.ofNat_toNat 16 b).symm

/-- A sum of bytes stays in the zero page (R164, R165). -/
theorem zext16_add (a b : Byte) : zext16 (a + b) = BitVec.ofNat 16 ((a.toNat + b.toNat) % 256) := by
  rw [zext16_eq_ofNat, BitVec.toNat_add]

/-- Two words are in different pages exactly when their page numbers differ. -/
theorem hiByte_bne (v w : Word) : (hiByte v != hiByte w) = decide (v.toNat / 256 ≠ w.toNat / 256) := by
  rw [Bool.eq_iff_iff, bne_iff_ne, decide_eq_true_iff, ← hiByte_toNat, ← hiByte_toNat, BitVec.toNat_ne_iff_ne]

end Sys2Proof

namespace Sys2Proof.Machine

open Sys2Proof.Safety

theorem wordOf_eq_ofNat (hi lo : Byte) : wordOf hi lo = BitVec.ofNat 16 (256 * hi.toNat + lo.toNat) := by
  rw [← wordOf_toNat, BitVec.ofNat_toNat, BitVec.setWidth_eq]

/-! ## Effective addresses -/

/-- Indexing (R167): the sum wraps modulo 65536, and `crossed` compares page numbers (R172). -/
theorem indexed_eq (base : Word) (r : Byte) :
    indexed base r = ⟨BitVec.ofNat 16 ((base.toNat + r.toNat) % 65536),
      decide (base.toNat / 256 ≠ (base.toNat + r.toNat) % 65536 / 256)⟩ := by
  have hsum : (base + zext16 r).toNat = (base.toNat + r.toNat) % 65536 := by
    have := r.isLt
    rw [BitVec.toNat_add, zext16, BitVec.toNat_setWidth]
    omega
  rw [indexed, hiByte_bne, hsum, ← hsum, BitVec.ofNat_toNat, BitVec.setWidth_eq]

/-- Settles O20: each direct mode is its sum, wrapped in the zero page or in the address space. -/
theorem directModesEffectiveAddress : Obligations.DirectModesEffectiveAddress := by
  refine fun s => ⟨fun z => ?zp, fun z => ?zpx, fun z => ?zpy, fun p1 p2 => ?abs, fun base => ?abx, fun base => ?aby⟩
  case zp => rw [effAddr, zext16_eq_ofNat]
  case zpx => rw [effAddr, zext16_add]
  case zpy => rw [effAddr, zext16_add]
  case abs => rw [effAddr, wordOf_eq_ofNat]
  case abx => rw [effAddr, indexed_eq]
  case aby => rw [effAddr, indexed_eq]

/-- ($nn,X) on an ordinary pointer at `nn + X` in the zero page (R168). -/
theorem effAddr_izx_of_peek {s : State} {z lo hi : Byte} (hlo : s.peek (zext16 (z + s.x)) = some lo)
    (hhi : s.peek (zext16 (z + s.x + 1#8)) = some hi) : effAddr s (.izx z) = .ok (⟨wordOf hi lo, false⟩, s) := by
  rw [effAddr, zeroPagePointer, memReadPair_of_peek s _ _ lo hi hlo hhi]
  rfl

/-- ($nn),Y on an ordinary pointer at `nn` in the zero page (R169). -/
theorem effAddr_izy_of_peek {s : State} {z lo hi : Byte} (hlo : s.peek (zext16 z) = some lo)
    (hhi : s.peek (zext16 (z + 1#8)) = some hi) : effAddr s (.izy z) = .ok (indexed (wordOf hi lo) s.y, s) := by
  rw [effAddr, zeroPagePointer, memReadPair_of_peek s _ _ lo hi hlo hhi]
  rfl

/-- Settles O21: the pointer's two addresses wrap as byte sums do, and its word is indexed, or not, as a base. -/
theorem indirectModesEffectiveAddress : Obligations.IndirectModesEffectiveAddress := by
  refine fun s z lo hi => ⟨fun hlo hhi => ?izx, fun hlo hhi => ?izy⟩
  case izx =>
    have hnext : zext16 (z + s.x + 1#8) = BitVec.ofNat 16 ((z.toNat + s.x.toNat + 1) % 256) := by
      rw [zext16_add, BitVec.toNat_add, BitVec.toNat_ofNat, Nat.add_mod_mod, Nat.mod_add_mod]
    rw [← zext16_add] at hlo
    rw [← hnext] at hhi
    rw [effAddr_izx_of_peek hlo hhi, wordOf_eq_ofNat]
  case izy =>
    have hnext : zext16 (z + 1#8) = BitVec.ofNat 16 ((z.toNat + 1) % 256) := zext16_add z 1#8
    have hpage : (256 * hi.toNat + lo.toNat) / 256 = hi.toNat := by
      have := lo.isLt
      omega
    rw [← zext16_eq_ofNat] at hlo
    rw [← hnext] at hhi
    rw [effAddr_izy_of_peek hlo hhi, indexed_eq, wordOf_toNat, hpage]

/-! ## Jumps -/

/-- The high byte of an indirect target is read from the pointer's page (R171). -/
theorem pointerHigh_eq (x : Word) :
    wordOf (hiByte x) (loByte x + 1#8) = BitVec.ofNat 16 (x.toNat / 256 * 256 + (x.toNat + 1) % 256) := by
  rw [wordOf_eq_ofNat, BitVec.toNat_add, hiByte_toNat, loByte_toNat, BitVec.toNat_ofNat, Nat.add_mod_mod,
    Nat.mod_add_mod, Nat.mul_comm]

/-- JMP indirect on an ordinary pointer (R301). -/
theorem exec_jmpInd_of_peek {s : State} {x : Word} {lo hi : Byte} (hlo : s.peek x = some lo)
    (hhi : s.peek (wordOf (hiByte x) (loByte x + 1#8)) = some hi) :
    exec (.jmpInd x) s = .next (s.setPc (wordOf hi lo)) :=
  (outcome_next_iff _ _).mpr ((bind_ok_iff _ _ _).mpr ⟨_, memReadPair_of_peek s _ _ lo hi hlo hhi, rfl⟩)

/-- Settles O41: both jumps change `PC` alone. -/
theorem jumpInstructions : Obligations.JumpInstructions := by
  refine fun s x => ⟨?absolute, fun lo hi hlo hhi => ?indirect⟩
  case absolute => exact ⟨s.setPc x, rfl, rfl, rfl, cpuKept_setPc s x, memKept_of_world s _ rfl rfl⟩
  case indirect =>
    rw [← pointerHigh_eq] at hhi
    exact ⟨_, exec_jmpInd_of_peek hlo hhi, wordOf_eq_ofNat hi lo, rfl, cpuKept_setPc s _, memKept_of_world s _ rfl rfl⟩

/-! ## Branches -/

/-- The target of mode `rel` (R170): the offset byte is signed. -/
theorem relTarget_eq_ofInt (pc : Word) (off : Byte) :
    relTarget pc off = BitVec.ofInt 16 ((pc.toNat : Int) + off.toInt) := by
  rw [BitVec.ofInt_add, BitVec.ofInt_natCast, BitVec.ofNat_toNat, BitVec.setWidth_eq]
  rfl

/-- The extra cycles of a branch (R304). -/
def branchCycles (pc : Word) (taken : Bool) (off : Byte) : Nat :=
  if taken then 1 + (if (relTarget pc off).toNat / 256 ≠ pc.toNat / 256 then 1 else 0) else 0

/-- A branch is its cycles and its target, if it is taken (R304). -/
theorem branch_eq (s : State) (taken : Bool) (off : Byte) :
    branch s taken off =
      (s.addCycles (branchCycles s.pc taken off)).setPc (if taken then relTarget s.pc off else s.pc) := by
  cases taken with
  | false => rfl
  | true =>
    simp only [branch, branchCycles, hiByte_bne, decide_eq_true_eq, if_true, State.addCycles_pc]
    split <;> rfl

/-- The cycle count is none of what `CpuKept` speaks of. -/
theorem cpuKept_addCycles (s : State) (n : Nat) : CpuKept s (s.addCycles n) [] [] false where
  regs r _ := by cases r <;> rfl
  flags _ _ := rfl
  bit5 := rfl
  anomaly := (Bool.or_false _).symm
  latches _ := rfl
  clk := rfl
  jamNow := rfl
  pagePenalty := rfl
  plat := rfl

/-- The common rule of the eight branches meets R304, whatever the condition. -/
theorem branch_result (s : State) (taken : Bool) (off : Byte) : BranchResult s (branch s taken off) taken off := by
  rw [branch_eq]
  refine ⟨?pc, ?cycles, cpuKept_then_setPc (cpuKept_addCycles s _) _, memKept_of_world s _ rfl rfl⟩
  case pc => rw [State.setPc_pc, relTarget_eq_ofInt]
  case cycles => cases taken <;> rfl

/-- Settles O44: each branch is the common rule at its own flag (R305 to R312). -/
theorem branchInstructions : Obligations.BranchInstructions :=
  fun s off => ⟨⟨_, rfl, branch_result s (!s.flag .n) off⟩, ⟨_, rfl, branch_result s (s.flag .n) off⟩,
    ⟨_, rfl, branch_result s (!s.flag .v) off⟩, ⟨_, rfl, branch_result s (s.flag .v) off⟩,
    ⟨_, rfl, branch_result s (!s.flag .c) off⟩, ⟨_, rfl, branch_result s (s.flag .c) off⟩,
    ⟨_, rfl, branch_result s (!s.flag .z) off⟩, ⟨_, rfl, branch_result s (s.flag .z) off⟩⟩

end Sys2Proof.Machine
end

section
/-! PROOFS. O23, O25: the loads into a register (R190 to R192) and the transfers between registers (R196 to R201). -/

namespace Sys2Proof.Machine

open Sys2Proof.Safety

/-! ## One byte register written -/

/-- `s` with `v` in the byte register named. -/
def State.setReg (s : State) (v : Byte) : Reg → State
  | .a => s.setA v
  | .x => s.setX v
  | .y => s.setY v
  | .sp => s.setSp v

theorem regOf_setReg (s : State) (v : Byte) (r g : Reg) :
    regOf (s.setReg v r) g = if g = r then v else regOf s g := by
  cases r <;> cases g <;> rfl

/-- A register write changes nothing but that register. -/
theorem setReg_frame (s : State) (v : Byte) (r : Reg) : RegisterFrame s (s.setReg v r) [r] [] := by
  have hregs : ∀ g, g ∉ [r] → regOf (s.setReg v r) g = regOf s g := fun g hg =>
    (regOf_setReg s v r g).trans (if_neg (mt List.mem_singleton.mpr hg))
  cases r <;> exact {
    cpu := ⟨hregs, fun _ _ => rfl, rfl, (Bool.or_false _).symm, fun _ => rfl, rfl, rfl, rfl, rfl⟩
    pc := rfl
    cycles := rfl
    world := rfl
    memory := memKept_of_world s _ rfl rfl }

/-! ## `SetNZ` after it -/

theorem setNZ_flag_of_ne (s : State) (v : Byte) {f : Flag} (hn : f ≠ .n) (hz : f ≠ .z) :
    (s.setNZ v).flag f = s.flag f :=
  (getFlag_putNZ s.p v f).trans (by rw [if_neg hz, if_neg hn]; rfl)

/-- `SetNZ` (R26) adds N and Z to what an instruction on registers changes. -/
theorem setNZ_frame {s t : State} {regs : List Reg} (h : RegisterFrame s t regs []) (v : Byte) :
    RegisterFrame s (t.setNZ v) regs [.n, .z] where
  cpu := {
    regs := fun r hr => (show regOf (t.setNZ v) r = regOf t r by cases r <;> rfl).trans (h.cpu.regs r hr)
    flags := fun f hf => by
      have hn : f ≠ .n := fun e => hf (by simp [e])
      have hz : f ≠ .z := fun e => hf (by simp [e])
      exact (setNZ_flag_of_ne t v hn hz).trans (h.cpu.flags f List.not_mem_nil)
    bit5 := (putNZ_bit5 t.p v).trans h.cpu.bit5
    anomaly := h.cpu.anomaly
    latches := h.cpu.latches
    clk := h.cpu.clk
    jamNow := h.cpu.jamNow
    pagePenalty := h.cpu.pagePenalty
    plat := h.cpu.plat }
  pc := h.pc
  cycles := h.cycles
  world := h.world
  memory := memKept_of_world s _ h.world h.cpu.plat

/-- A register takes `v`, and N and Z say what `v` is: the common end of the loads and of all transfers but TXS. -/
theorem setReg_setNZ (s : State) (v : Byte) (r : Reg) :
    regOf ((s.setReg v r).setNZ v) r = v ∧ ((s.setReg v r).setNZ v).flag .n = v.getLsbD 7 ∧
      ((s.setReg v r).setNZ v).flag .z = decide (v = 0#8) ∧
      RegisterFrame s ((s.setReg v r).setNZ v) [r] [.n, .z] :=
  ⟨by cases r <;> rfl, getFlag_putNZ _ v .n, getFlag_putNZ _ v .z, setNZ_frame (setReg_frame s v r) v⟩

/-! ## Transfers and loads -/

/-- Settles O25: five transfers are a register write and `SetNZ`, and TXS is the register write alone (R201). -/
theorem transferInstructions : Obligations.TransferInstructions :=
  fun s => ⟨⟨_, rfl, setReg_setNZ s s.a .x⟩, ⟨_, rfl, setReg_setNZ s s.a .y⟩, ⟨_, rfl, setReg_setNZ s s.x .a⟩,
    ⟨_, rfl, setReg_setNZ s s.y .a⟩, ⟨_, rfl, setReg_setNZ s s.sp .x⟩, ⟨_, rfl, rfl, setReg_frame s s.x .sp⟩⟩

/-- An instruction that puts its operand in register `r` and sets N and Z from it has the frame of the read (R173). -/
theorem load_result {i : Instr} {o : Operand} {r : Reg} {s s1 : State} {v : Byte}
    (hi : exec i s = outcome (do let (v, s) ← loadOperand s o; pure ((s.setReg v r).setNZ v)))
    (h : loadOperand s o = .ok (v, s1)) :
    ∃ t, exec i s = .next t ∧ regOf t r = v ∧ t.flag .n = v.getLsbD 7 ∧ t.flag .z = decide (v = 0#8) ∧
      ReadFrame s s1 t o [r] [.n, .z] := by
  obtain ⟨hreg, hn, hz, hframe⟩ := setReg_setNZ s1 v r
  exact ⟨_, hi.trans (outcome_read s s1 o v h fun v s => (s.setReg v r).setNZ v), hreg, hn, hz,
    readFrame_of_registerFrame s s1 _ o v _ _ h hframe⟩

/-- Settles O23: LDA, LDX and LDY differ in the register alone. -/
theorem loadInstructions : Obligations.LoadInstructions :=
  fun _ _ _ _ h => ⟨load_result (r := .a) rfl h, load_result (r := .x) rfl h, load_result (r := .y) rfl h⟩

end Sys2Proof.Machine
end

section
/-! PROOFS. O26, O27, O33: the logic instructions, BIT and the comparisons (R223, R224, R228 to R233). -/

namespace Sys2Proof.Machine

open Sys2Proof.Safety

/-- A read-class instruction ends in its function of the operand, with the frame of the read (R173). -/
theorem readClass_result {i : Instr} {o : Operand} {s s1 : State} {m : Byte} {f : Byte → State → State}
    {regs : List Reg} {flags : List Flag}
    (hi : exec i s = outcome (do let (v, s) ← loadOperand s o; pure (f v s)))
    (h : loadOperand s o = .ok (m, s1)) (hf : RegisterFrame s1 (f m s1) regs flags) :
    exec i s = .next (f m s1) ∧ ReadFrame s s1 (f m s1) o regs flags :=
  ⟨hi.trans (outcome_read s s1 o m h f), readFrame_of_registerFrame s s1 _ o m _ _ h hf⟩

theorem loadOperand_regOf {s s1 : State} {o : Operand} {m : Byte} (h : loadOperand s o = .ok (m, s1)) (r : Reg) :
    regOf s1 r = regOf s r := by
  obtain ⟨n, w, -, rfl⟩ := loadOperand_world s o m s1 h
  cases r <;> rfl

/-! ## Logic -/

/-- AND, ORA and EOR apply one Boolean function to each pair of bits (R224, R228, R232). -/
theorem logic_result {i : Instr} {o : Operand} {s s1 : State} {m : Byte} {op : Byte → Byte → Byte}
    {bit : Bool → Bool → Bool} (hbit : ∀ a b : Byte, ∀ k, (op a b).getLsbD k = bit (a.getLsbD k) (b.getLsbD k))
    (hi : exec i s = outcome (do let (v, s) ← loadOperand s o; pure ((s.setA (op s.a v)).setNZ (op s.a v))))
    (h : loadOperand s o = .ok (m, s1)) :
    ∃ t, exec i s = .next t ∧ (∀ k, t.a.getLsbD k = bit (s.a.getLsbD k) (m.getLsbD k)) ∧
      t.flag .n = t.a.getLsbD 7 ∧ t.flag .z = decide (t.a = 0#8) ∧ ReadFrame s s1 t o [.a] [.n, .z] := by
  obtain ⟨-, hn, hz, hframe⟩ := setReg_setNZ s1 (op s1.a m) .a
  obtain ⟨hnext, hread⟩ := readClass_result (f := fun v s => (s.setA (op s.a v)).setNZ (op s.a v)) hi h hframe
  have ha : s1.a = s.a := loadOperand_regOf h .a
  exact ⟨_, hnext, fun k => ha ▸ hbit s1.a m k, hn, hz, hread⟩

/-- Settles O26: the three instructions differ in the Boolean function alone. -/
theorem logicInstructions : Obligations.LogicInstructions :=
  fun _ _ _ _ h => ⟨logic_result (op := (· &&& ·)) (fun _ _ _ => BitVec.getLsbD_and) rfl h,
    logic_result (op := (· ||| ·)) (fun _ _ _ => BitVec.getLsbD_or) rfl h,
    logic_result (op := (· ^^^ ·)) (fun _ _ _ => BitVec.getLsbD_xor) rfl h⟩

/-! ## Instructions that write flags only -/

/-- The frame of a new status byte: the flags it alters, if it keeps bit 5. -/
theorem setP_frame {s : State} {p : Byte} {flags : List Flag} (hflags : ∀ f, f ∉ flags → getFlag p f = s.flag f)
    (h5 : p.getLsbD 5 = s.p.getLsbD 5) : RegisterFrame s (s.setP p) [] flags where
  cpu := ⟨fun r _ => by cases r <;> rfl, hflags, h5, (Bool.or_false _).symm, fun _ => rfl, rfl, rfl, rfl, rfl⟩
  pc := rfl
  cycles := rfl
  world := rfl
  memory := memKept_of_world s _ rfl rfl

/-- Reading a flag after BIT wrote its three. -/
theorem getFlag_putBit (p a m : Byte) (g : Flag) :
    getFlag (putBit p a m) g = if g = .v then m.getLsbD 6 else if g = .n then m.getLsbD 7 else
      if g = .z then (a &&& m) == 0#8 else getFlag p g := by
  simp only [putBit, getFlag_putFlag]

theorem putBit_frame (s : State) (a m : Byte) : RegisterFrame s (s.setP (putBit s.p a m)) [] [.n, .v, .z] :=
  setP_frame (fun f hf => by cases f <;> simp_all [getFlag_putBit, State.flag]) (putBit_bit5 s.p a m)

/-- Settles O27: BIT is a read and the three flags of `putBit`. -/
theorem bitTestInstruction : Obligations.BitTestInstruction := by
  intro m s s1 v h
  obtain ⟨hnext, hread⟩ := readClass_result (i := .bit m) (f := fun v s => s.setP (putBit s.p s.a v)) rfl h
    (putBit_frame s1 s1.a v)
  have ha : s1.a = s.a := loadOperand_regOf h .a
  exact ⟨_, hnext, ha ▸ getFlag_putBit _ _ _ .z, getFlag_putBit _ _ _ .n, getFlag_putBit _ _ _ .v, hread⟩

/-! ## Comparisons -/

/-- Reading a flag after a comparison wrote its three. -/
theorem getFlag_putCompare (p r m : Byte) (g : Flag) :
    getFlag (putCompare p r m) g = if g = .n then (sub8 r m true).negative else if g = .z then (sub8 r m true).zero else
      if g = .c then (sub8 r m true).carry else getFlag p g := by
  simp only [putCompare, getFlag_putFlag]

theorem compare_frame (s : State) (r m : Byte) : RegisterFrame s (s.compare r m) [] [.n, .z, .c] :=
  setP_frame (fun f hf => by cases f <;> simp_all [getFlag_putCompare, State.flag]) (putCompare_bit5 s.p r m)

/-- A comparison subtracts without a borrow (R229), so the difference is exact modulo 256. -/
theorem sub8_true_toNat (a m : Byte) : (sub8 a m true).r.toNat = (a.toNat + 256 - m.toNat) % 256 := by
  have := m.isLt
  rw [sub8, add8_toNat, BitVec.toNat_not, Bool.toNat_true]
  omega

theorem sub8_true_carry (a m : Byte) : (sub8 a m true).carry = decide (m.toNat ≤ a.toNat) := by
  have := m.isLt
  rw [sub8, add8_carry, BitVec.toNat_not, Bool.toNat_true, decide_eq_decide]
  omega

theorem sub8_true_zero (a m : Byte) : (sub8 a m true).zero = decide (a = m) := by
  have ha := a.isLt
  have hm := m.isLt
  show decide ((sub8 a m true).r = 0#8) = _
  rw [decide_eq_decide, ← BitVec.toNat_inj, ← BitVec.toNat_inj, sub8_true_toNat]
  show _ = 0 ↔ _
  omega

theorem sub8_true_negative (a m : Byte) :
    (sub8 a m true).negative = decide (128 ≤ (a.toNat + 256 - m.toNat) % 256) := by
  show (sub8 a m true).r.getLsbD 7 = _
  rw [getLsbD_seven, sub8_true_toNat]

/-- An instruction that compares register `r` with its operand (R229 to R231). -/
theorem compare_result {i : Instr} {o : Operand} {r : Reg} {s s1 : State} {m : Byte}
    (hi : exec i s = outcome (do let (v, s) ← loadOperand s o; pure (s.compare (regOf s r) v)))
    (h : loadOperand s o = .ok (m, s1)) :
    ∃ t, exec i s = .next t ∧ t.flag .c = decide (m.toNat ≤ (regOf s r).toNat) ∧
      t.flag .z = decide (regOf s r = m) ∧ t.flag .n = decide (128 ≤ ((regOf s r).toNat + 256 - m.toNat) % 256) ∧
      ReadFrame s s1 t o [] [.n, .z, .c] := by
  obtain ⟨hnext, hread⟩ := readClass_result (f := fun v s => s.compare (regOf s r) v) hi h
    (compare_frame s1 (regOf s1 r) m)
  rw [← loadOperand_regOf h r]
  exact ⟨_, hnext, (getFlag_putCompare _ _ _ .c).trans (sub8_true_carry _ _),
    (getFlag_putCompare _ _ _ .z).trans (sub8_true_zero _ _),
    (getFlag_putCompare _ _ _ .n).trans (sub8_true_negative _ _), hread⟩

/-- Settles O33: CMP, CPX and CPY differ in the register alone. -/
theorem compareInstructions : Obligations.CompareInstructions :=
  fun _ _ _ _ h => ⟨compare_result (r := .a) rfl h, compare_result (r := .x) rfl h, compare_result (r := .y) rfl h⟩

end Sys2Proof.Machine
end

section
/-! PROOFS. O30, O31: ADC and SBC in decimal mode, with `DecimalArith` = `nmos6502` (R226 (b), R227). -/

namespace Sys2Proof.Machine

open Sys2Proof.Safety

theorem exec_adc_decimal {s s1 : State} {o : Operand} {m : Byte} (h : loadOperand s o = .ok (m, s1))
    (hd : s.flag .d = true) (harith : s.plat.params.decimalArith = .nmos6502) :
    exec (.adc o) s = .next (s1.setArith (addDecimal s.a m (s.flag .c))) := by
  obtain ⟨ha, hf, hp⟩ := loadOperand_arith s s1 o m h
  show execAdc o s = _
  rw [← ha, ← hf .c]
  simp [execAdc, h, bind, Except.bind, hf, hd, hp, harith, pure, Except.pure, outcome]

theorem exec_sbc_decimal {s s1 : State} {o : Operand} {m : Byte} (h : loadOperand s o = .ok (m, s1))
    (hd : s.flag .d = true) (harith : s.plat.params.decimalArith = .nmos6502) :
    exec (.sbc o) s = .next (s1.setArith (subDecimal s.a m (s.flag .c))) := by
  obtain ⟨ha, hf, hp⟩ := loadOperand_arith s s1 o m h
  show execSbc o s = _
  rw [← ha, ← hf .c]
  simp [execSbc, h, bind, Except.bind, hf, hd, hp, harith, pure, Except.pure, outcome]

/-! ## The decimal sum -/

theorem highDigit_toNat (b : Byte) : (b &&& 0xF0#8).toNat = 16 * (b.toNat / 16) := by
  revert b; decide +kernel

theorem decimalLow_eq (a m : Byte) (c : Bool) :
    decimalLow a m c = if a.toNat % 16 + m.toNat % 16 + c.toNat ≥ 0x0A
      then (a.toNat % 16 + m.toNat % 16 + c.toNat + 0x06) % 16 + 0x10 else a.toNat % 16 + m.toNat % 16 + c.toNat := by
  unfold decimalLow
  split <;> split <;> omega

/-- The overflow bit of R12: `a` and `b` agree in bit 7 and `r` does not. -/
theorem signsOverflow_eq (a b r : Byte) : ((~~~(a ^^^ b)) &&& (a ^^^ r)).getLsbD 7 =
    decide (a.toNat / 128 = b.toNat / 128 ∧ r.toNat / 128 ≠ a.toNat / 128) := by
  have hsigns : ((~~~(a ^^^ b)) &&& (a ^^^ r)).getLsbD 7 =
      (a.getLsbD 7 == b.getLsbD 7 && a.getLsbD 7 != r.getLsbD 7) := by
    simp only [BitVec.getLsbD_and, BitVec.getLsbD_not, BitVec.getLsbD_xor]
    cases a.getLsbD 7 <;> cases b.getLsbD 7 <;> simp
  have ha := a.isLt
  have hb := b.isLt
  have hr := r.isLt
  rw [hsigns, getLsbD_seven, getLsbD_seven, getLsbD_seven, Bool.eq_iff_iff]
  simp only [Bool.and_eq_true, beq_iff_eq, bne_iff_ne, ne_eq, decide_eq_decide, decide_eq_true_eq]
  omega

/-- `ADC_decimal` (R226 (b)) in numbers: N and V look at the sum before its correction, `A` and C at the one
after it. -/
theorem addDecimal_eq (a m : Byte) (c : Bool) : addDecimal a m c =
    { r := BitVec.ofNat 8 (if 160 ≤ decimalSum a m c then decimalSum a m c + 96 else decimalSum a m c)
      carry := decide (160 ≤ decimalSum a m c)
      overflow := decide (a.toNat / 128 = m.toNat / 128 ∧ decimalSum a m c % 256 / 128 ≠ a.toNat / 128)
      zero := decide ((a.toNat + m.toNat + c.toNat) % 256 = 0)
      negative := decide (128 ≤ decimalSum a m c % 256) } := by
  simp only [addDecimal, highDigit_toNat, ← decimalLow_eq]
  rw [← decimalSum]
  generalize decimalSum a m c = t
  rw [AluResult.mk.injEq]
  refine ⟨rfl, ?_, ?_, rfl, ?_⟩
  · rw [decide_eq_decide]
    split <;> omega
  · rw [signsOverflow_eq, BitVec.toNat_ofNat]
  · rw [Nat.testBit_eq_decide_div_mod_eq, decide_eq_decide]
    omega

/-- A byte whose digits are those of a number below 100 is the valid decimal of that number. -/
theorem bcd_of_digits {b : Byte} {n : Nat} (hn : n < 100) (hb : b.toNat = 16 * (n / 10) + n % 10) :
    ValidBcd b ∧ bcdValue b = n := by
  unfold ValidBcd bcdValue
  omega

theorem bcdValue_le_of_validBcd {b : Byte} (h : ValidBcd b) : bcdValue b ≤ 99 := by
  obtain ⟨hHigh, hLow⟩ := h
  unfold bcdValue
  omega

/-- The sum of the decimals with the carry, 0 to 199. -/
def bcdSum (a m : Byte) (c : Bool) : Nat := bcdValue a + bcdValue m + c.toNat

theorem bcdSum_lt {a m : Byte} (c : Bool) (ha : ValidBcd a) (hm : ValidBcd m) : bcdSum a m c < 200 := by
  have haLe := bcdValue_le_of_validBcd ha
  have hmLe := bcdValue_le_of_validBcd hm
  have hc := c.toNat_le
  unfold bcdSum
  omega

/-- On valid decimals the sum of the digits, low digit adjusted, is the decimal sum digit by digit: its tens, 0 to 19,
at 16 each. -/
theorem decimalSum_of_validBcd {a m : Byte} (c : Bool) (ha : ValidBcd a) (hm : ValidBcd m) :
    decimalSum a m c = 16 * (bcdSum a m c / 10) + bcdSum a m c % 10 := by
  obtain ⟨-, haLow⟩ := ha
  obtain ⟨-, hmLow⟩ := hm
  have hc := c.toNat_le
  unfold decimalSum decimalLow bcdSum bcdValue
  split <;> omega

/-- The correction by 0x60, modulo 256, takes 100 from a decimal sum that reached it. -/
theorem correctedSum_toNat {n : Nat} (hn : n < 200) :
    (BitVec.ofNat 8 (if 160 ≤ 16 * (n / 10) + n % 10 then 16 * (n / 10) + n % 10 + 96
      else 16 * (n / 10) + n % 10)).toNat = 16 * (n % 100 / 10) + n % 100 % 10 := by
  rw [BitVec.toNat_ofNat]
  by_cases hcarry : 100 ≤ n
  · have hmod : n % 100 = n - 100 := by omega
    rw [hmod, if_pos (by omega)]
    omega
  · rw [Nat.mod_eq_of_lt (not_le.mp hcarry), if_neg (by omega)]
    omega

/-- Decimal addition of valid decimals: the corrected sum of the digits is the sum of the numbers. -/
theorem addDecimal_bcd {a m : Byte} (c : Bool) (ha : ValidBcd a) (hm : ValidBcd m) :
    (ValidBcd (addDecimal a m c).r ∧ bcdValue (addDecimal a m c).r = bcdSum a m c % 100) ∧
      (addDecimal a m c).carry = decide (100 ≤ bcdSum a m c) := by
  rw [addDecimal_eq, decimalSum_of_validBcd c ha hm]
  refine ⟨bcd_of_digits (Nat.mod_lt _ (by decide)) (correctedSum_toNat (bcdSum_lt c ha hm)), ?_⟩
  rw [decide_eq_decide]
  omega

/-- Settles O30: the equation of ADC in decimal mode, and `ADC_decimal` in numbers. -/
theorem decimalAddition : Obligations.DecimalAddition := by
  intro o s s1 m h hd harith
  have hflag := getFlag_putArith s1.p (addDecimal s.a m (s.flag .c))
  have hnum := addDecimal_eq s.a m (s.flag .c)
  refine ⟨_, exec_adc_decimal h hd harith, (hflag .z).trans (congrArg AluResult.zero hnum),
    (hflag .n).trans (congrArg AluResult.negative hnum), (hflag .v).trans (congrArg AluResult.overflow hnum),
    (hflag .c).trans (congrArg AluResult.carry hnum), congrArg AluResult.r hnum, fun ha hm => ?_,
    readFrame_of_registerFrame s s1 _ o m _ _ h (setArith_frame s1 _)⟩
  obtain ⟨⟨hvalid, hvalue⟩, hcarry⟩ := addDecimal_bcd (s.flag .c) ha hm
  exact ⟨hvalid, hvalue, (hflag .c).trans hcarry⟩

/-! ## A read does not look at the status byte -/

theorem memRead_setP {s t : State} {x : Word} {v : Byte} (h : memRead s x = .ok (v, t)) (p : Byte) :
    memRead (s.setP p) x = .ok (v, t.setP p) := by
  obtain ⟨w, hw, rfl⟩ := (memRead_world_iff s x v t).mp h
  exact (memRead_world_iff _ _ _ _).mpr ⟨w, hw, rfl⟩

theorem memReadPair_setP {s t : State} {xLo xHi x : Word} (h : memReadPair s xLo xHi = .ok (x, t)) (p : Byte) :
    memReadPair (s.setP p) xLo xHi = .ok (x, t.setP p) := by
  obtain ⟨lo, s', hi, hlo, hhi, hx⟩ := (memReadPair_ok_iff _ _ _ _ _).mp h
  exact (memReadPair_ok_iff _ _ _ _ _).mpr ⟨lo, s'.setP p, hi, memRead_setP hlo p, memRead_setP hhi p, hx⟩

theorem effAddr_setP {s t : State} {m : MemOperand} {e : EffAddr} (h : effAddr s m = .ok (e, t)) (p : Byte) :
    effAddr (s.setP p) m = .ok (e, t.setP p) := by
  cases m with
  | zp | zpx | zpy | abs | abx | aby => cases h; rfl
  | izx z | izy z =>
    obtain ⟨⟨x, s'⟩, hptr, h⟩ := (bind_ok_iff _ _ _).mp h
    cases h
    exact (bind_ok_iff _ _ _).mpr ⟨(x, t.setP p), memReadPair_setP hptr p, rfl⟩

/-- `LoadOperand` (R173) reads the same byte whatever `P` holds, and leaves `P` alone. -/
theorem loadOperand_setP {s t : State} {o : Operand} {m : Byte} (h : loadOperand s o = .ok (m, t)) (p : Byte) :
    loadOperand (s.setP p) o = .ok (m, t.setP p) := by
  cases o with
  | imm v => cases h; rfl
  | mem a =>
    obtain ⟨e, s', he, hr⟩ := (loadMem_ok_iff _ _ _ _).mp h
    have hpay : (if e.crossed && (s'.setP p).pagePenalty then (s'.setP p).addCycles 1 else s'.setP p) =
        (if e.crossed && s'.pagePenalty then s'.addCycles 1 else s').setP p :=
      (apply_ite (fun u : State => u.setP p) (e.crossed && s'.pagePenalty) (s'.addCycles 1) s').symm
    exact (loadMem_ok_iff _ _ _ _).mpr ⟨e, s'.setP p, effAddr_setP he p, hpay ▸ memRead_setP hr p⟩

/-! ## The decimal difference -/

/-- `SBC_decimal` (R226 (b)) in numbers: the flags of `SUB8`, and `A` from the corrected difference of the digits. -/
theorem subDecimal_eq (a m : Byte) (c : Bool) : subDecimal a m c =
    { sub8 a m c with
      r := BitVec.ofInt 8 (if decimalDifference a m c < 0 then decimalDifference a m c - 96
        else decimalDifference a m c) } := by
  simp only [subDecimal, highDigit_toNat, decimalDifference, lowDifference, Nat.cast_mul, Nat.cast_ofNat]
  rfl

/-- The difference of the decimals less the borrow, -100 to 99. -/
def bcdDifference (a m : Byte) (c : Bool) : Int := (bcdValue a : Int) - (bcdValue m : Int) - (1 - (c.toNat : Int))

theorem bcdDifference_bounds {a m : Byte} (c : Bool) (ha : ValidBcd a) (hm : ValidBcd m) :
    -100 ≤ bcdDifference a m c ∧ bcdDifference a m c < 100 := by
  have haLe := bcdValue_le_of_validBcd ha
  have hmLe := bcdValue_le_of_validBcd hm
  have hc := c.toNat_le
  unfold bcdDifference
  omega

/-- On valid decimals the difference of the digits, low digit adjusted, is the decimal difference digit by digit: its
tens, -10 to 9, at 16 each. -/
theorem decimalDifference_of_validBcd {a m : Byte} (c : Bool) (ha : ValidBcd a) (hm : ValidBcd m) :
    decimalDifference a m c = 16 * (bcdDifference a m c / 10) + bcdDifference a m c % 10 := by
  obtain ⟨-, haLow⟩ := ha
  obtain ⟨-, hmLow⟩ := hm
  have hc := c.toNat_le
  unfold decimalDifference lowDifference bcdDifference bcdValue
  split <;> omega

/-- There is a borrow between the bytes exactly where there is one between the decimals. -/
theorem sub8_carry_of_validBcd {a m : Byte} (c : Bool) (ha : ValidBcd a) (hm : ValidBcd m) :
    (sub8 a m c).carry = decide (0 ≤ bcdDifference a m c) := by
  obtain ⟨-, haLow⟩ := ha
  obtain ⟨-, hmLow⟩ := hm
  have hc := c.toNat_le
  have hm := m.isLt
  rw [sub8, add8_carry, BitVec.toNat_not, decide_eq_decide]
  unfold bcdDifference bcdValue
  omega

/-- The correction by 0x60, modulo 256, adds 100 to a negative decimal difference. -/
theorem correctedDifference_toNat {d : Int} (hlow : -100 ≤ d) (hhigh : d < 100) :
    (BitVec.ofInt 8 (if 16 * (d / 10) + d % 10 < 0 then 16 * (d / 10) + d % 10 - 96
      else 16 * (d / 10) + d % 10)).toNat = 16 * ((d % 100).toNat / 10) + (d % 100).toNat % 10 := by
  rw [BitVec.toNat_ofInt]
  by_cases hborrow : d < 0
  · have hmod : d % 100 = d + 100 := by omega
    rw [hmod, if_pos (by omega)]
    omega
  · rw [Int.emod_eq_of_lt (not_lt.mp hborrow) hhigh, if_neg (by omega)]
    omega

/-- Decimal subtraction of valid decimals: the corrected difference of the digits is the difference of the numbers. -/
theorem subDecimal_bcd {a m : Byte} (c : Bool) (ha : ValidBcd a) (hm : ValidBcd m) :
    ValidBcd (subDecimal a m c).r ∧ (bcdValue (subDecimal a m c).r : Int) = bcdDifference a m c % 100 ∧
      (subDecimal a m c).carry = decide (0 ≤ bcdDifference a m c) := by
  obtain ⟨hlow, hhigh⟩ := bcdDifference_bounds c ha hm
  rw [subDecimal_eq, decimalDifference_of_validBcd c ha hm]
  obtain ⟨hvalid, hvalue⟩ := bcd_of_digits (by omega) (correctedDifference_toNat hlow hhigh)
  exact ⟨hvalid, by rw [hvalue]; omega, sub8_carry_of_validBcd c ha hm⟩

/-- Two results with the same four conditions set the same flags, on status bytes that agree elsewhere. -/
theorem getFlag_putArith_congr {p p' : Byte} {r r' : AluResult} {f : Flag} (hp : getFlag p f = getFlag p' f)
    (hr : r' = { r with r := r'.r }) : getFlag (putArith p r) f = getFlag (putArith p' r') f := by
  rw [hr, getFlag_putArith, getFlag_putArith, hp]

/-- Settles O31: the equations of SBC in decimal and in binary mode, on the same read, and `SBC_decimal` in numbers. -/
theorem decimalSubtraction : Obligations.DecimalSubtraction := by
  intro o s s1 m h hd harith
  have hbin : (s.setFlag .d false).flag .d = false := getFlag_putFlag s.p .d .d false
  have hcarry : (s.setFlag .d false).flag .c = s.flag .c := getFlag_putFlag s.p .d .c false
  obtain ⟨-, hflag, -⟩ := loadOperand_arith s s1 o m h
  refine ⟨_, _, exec_sbc_decimal h hd harith, exec_sbc_binary _ _ o m (loadOperand_setP h _) hbin, fun f hf => ?_,
    congrArg AluResult.r (subDecimal_eq _ _ _), fun ha hm => ?_,
    readFrame_of_registerFrame s s1 _ o m _ _ h (setArith_frame s1 _)⟩
  · have hother : getFlag s1.p f = getFlag (putFlag s.p .d false) f :=
      (hflag f).trans ((getFlag_putFlag s.p .d f false).trans (if_neg hf)).symm
    rw [hcarry]
    exact getFlag_putArith_congr hother rfl
  · obtain ⟨hvalid, hvalue, hc⟩ := subDecimal_bcd (s.flag .c) ha hm
    exact ⟨hvalid, hvalue, (getFlag_putArith _ _ .c).trans hc⟩

end Sys2Proof.Machine
end

section
/-! PROOFS. O34, O35, O36: the shifts, rotates, increments and decrements, on the accumulator, in memory and on the
index registers (R250 to R260). -/

namespace Sys2Proof.Machine

open Sys2Proof.Safety

/-! ## The result and the carry in numbers -/

theorem getLsbD_zero_eq_odd (b : Byte) : b.getLsbD 0 = decide (b.toNat % 2 = 1) :=
  Nat.testBit_zero b.toNat

theorem shiftLeft_one_eq_ofNat (b : Byte) : b <<< 1 = BitVec.ofNat 8 (2 * b.toNat) := by
  apply BitVec.eq_of_toNat_eq
  rw [BitVec.toNat_shiftLeft, BitVec.toNat_ofNat, Nat.shiftLeft_eq, Nat.mul_comm]

theorem ushiftRight_one_eq_ofNat (b : Byte) : b >>> 1 = BitVec.ofNat 8 (b.toNat / 2) := by
  have := b.isLt
  apply BitVec.eq_of_toNat_eq
  rw [BitVec.toNat_ushiftRight, BitVec.toNat_ofNat, Nat.shiftRight_eq_div_pow]
  omega

/-- The old carry enters at bit 0, which the shift left clear (R252). -/
theorem rotateLeft_eq_ofNat (b : Byte) (c : Bool) :
    ((b <<< 1) ||| (if c then 0x01#8 else 0x00#8)) = BitVec.ofNat 8 (2 * b.toNat + c.toNat) := by
  cases c <;> revert b <;> decide +kernel

/-- The old carry enters at bit 7, which the shift left clear (R253). -/
theorem rotateRight_eq_ofNat (b : Byte) (c : Bool) :
    ((b >>> 1) ||| (if c then 0x80#8 else 0x00#8)) = BitVec.ofNat 8 (b.toNat / 2 + 128 * c.toNat) := by
  cases c <;> revert b <;> decide +kernel

theorem add_one_eq_ofNat (b : Byte) : b + 1#8 = BitVec.ofNat 8 (b.toNat + 1) := by
  rw [BitVec.ofNat_add, BitVec.ofNat_toNat, BitVec.setWidth_eq]

theorem sub_one_eq_ofNat (b : Byte) : b - 1#8 = BitVec.ofNat 8 (b.toNat + 255) := by
  rw [BitVec.ofNat_add, BitVec.ofNat_toNat, BitVec.setWidth_eq, BitVec.sub_eq_add_neg]
  rfl

/-! ## The six functions as one -/

/-- Writing a flag with what it holds changes nothing: INC and DEC in the form of the shifts. -/
theorem putFlag_getFlag (p : Byte) (f : Flag) : putFlag p f (getFlag p f) = p := by
  cases f <;> revert p <;> decide +kernel

/-- The function of the model that an operation applies (R250 to R255). -/
def rmwFunction : RmwOp → Byte → Byte → Byte × Byte
  | .asl => aslF
  | .lsr => lsrF
  | .rol => rolF
  | .ror => rorF
  | .inc => incF
  | .dec => decF

/-- The status byte after an operation on `v`: C, then N and Z of the result. -/
def rmwStatus (p v : Byte) (op : RmwOp) : Byte :=
  putNZ (putFlag p .c (rmwCarry v (getFlag p .c) op)) (rmwResult v (getFlag p .c) op)

/-- Each function of the model is its operation in numbers. -/
theorem rmwFunction_eq (op : RmwOp) (p v : Byte) :
    rmwFunction op p v = (rmwResult v (getFlag p .c) op, rmwStatus p v op) := by
  cases op with
  | asl => simp only [rmwFunction, aslF, rmwStatus, rmwResult, rmwCarry, shiftLeft_one_eq_ofNat, getLsbD_seven]
  | lsr => simp only [rmwFunction, lsrF, rmwStatus, rmwResult, rmwCarry, ushiftRight_one_eq_ofNat, getLsbD_zero_eq_odd]
  | rol => simp only [rmwFunction, rolF, rmwStatus, rmwResult, rmwCarry, rotateLeft_eq_ofNat, getLsbD_seven]
  | ror => simp only [rmwFunction, rorF, rmwStatus, rmwResult, rmwCarry, rotateRight_eq_ofNat, getLsbD_zero_eq_odd]
  | inc => simp only [rmwFunction, incF, rmwStatus, rmwResult, rmwCarry, add_one_eq_ofNat, putFlag_getFlag]
  | dec => simp only [rmwFunction, decF, rmwStatus, rmwResult, rmwCarry, sub_one_eq_ofNat, putFlag_getFlag]

/-- Reading a flag after an operation wrote its three. -/
theorem getFlag_rmwStatus (p v : Byte) (op : RmwOp) (g : Flag) :
    getFlag (rmwStatus p v op) g =
      if g = .z then decide (rmwResult v (getFlag p .c) op = 0#8) else
        if g = .n then (rmwResult v (getFlag p .c) op).getLsbD 7 else
          if g = .c then rmwCarry v (getFlag p .c) op else getFlag p g := by
  rw [rmwStatus, getFlag_putNZ, getFlag_putFlag]
  rfl

theorem getFlag_rmwStatus_of_not_mem (p v : Byte) (op : RmwOp) {g : Flag} (hg : g ∉ [Flag.n, .z, .c]) :
    getFlag (rmwStatus p v op) g = getFlag p g := by
  simp only [List.mem_cons, List.not_mem_nil, or_false, not_or] at hg
  obtain ⟨hn, hz, hc⟩ := hg
  rw [getFlag_rmwStatus, if_neg hz, if_neg hn, if_neg hc]

/-- An operation adds N, Z and C to what is changed, if `P` is its status byte. -/
theorem cpuKept_setP_rmwStatus {s t : State} {regs : List Reg} {wrap : Bool} (h : CpuKept s t regs [] wrap)
    (v : Byte) (op : RmwOp) : CpuKept s (t.setP (rmwStatus s.p v op)) regs [.n, .z, .c] wrap where
  regs r hr := (show regOf (t.setP _) r = regOf t r by cases r <;> rfl).trans (h.regs r hr)
  flags _ hf := getFlag_rmwStatus_of_not_mem s.p v op hf
  bit5 := putNZ_putFlag_bit5 s.p _ _
  anomaly := h.anomaly
  latches := h.latches
  clk := h.clk
  jamNow := h.jamNow
  pagePenalty := h.pagePenalty
  plat := h.plat

/-! ## The accumulator -/

/-- The state after an operation on the accumulator (R260). -/
def State.shifted (s : State) (op : RmwOp) : State :=
  (s.setA (rmwResult s.a (s.flag .c) op)).setP (rmwStatus s.p s.a op)

theorem modifyShift_acc_eq (s : State) (op : RmwOp) : modifyShift s (rmwFunction op) .acc = .ok (s.shifted op) := by
  rw [modifyShift, rmwFunction_eq]
  rfl

theorem shifted_carry (s : State) (op : RmwOp) : (s.shifted op).flag .c = rmwCarry s.a (s.flag .c) op :=
  getFlag_rmwStatus s.p s.a op .c

theorem shifted_negative (s : State) (op : RmwOp) : (s.shifted op).flag .n = (s.shifted op).a.getLsbD 7 :=
  getFlag_rmwStatus s.p s.a op .n

theorem shifted_zero (s : State) (op : RmwOp) : (s.shifted op).flag .z = decide ((s.shifted op).a = 0#8) :=
  getFlag_rmwStatus s.p s.a op .z

theorem shifted_frame (s : State) (op : RmwOp) : RegisterFrame s (s.shifted op) [.a] [.n, .z, .c] where
  cpu := cpuKept_setP_rmwStatus (setReg_frame s _ .a).cpu s.a op
  pc := rfl
  cycles := rfl
  world := rfl
  memory := memKept_of_world s _ rfl rfl

/-- LSR brings a 0 into bit 7 (R251). -/
theorem rmwResult_lsr_bit7 (v : Byte) (c : Bool) : (rmwResult v c .lsr).getLsbD 7 = false := by
  have := v.isLt
  rw [getLsbD_seven, rmwResult, BitVec.toNat_ofNat, decide_eq_false_iff_not]
  omega

/-- ROR brings the old carry into bit 7 (R253). -/
theorem rmwResult_ror_bit7 (v : Byte) (c : Bool) : (rmwResult v c .ror).getLsbD 7 = c := by
  have := v.isLt
  rw [getLsbD_seven, rmwResult, BitVec.toNat_ofNat]
  cases c with
  | false => rw [decide_eq_false_iff_not, Bool.toNat_false]; omega
  | true => rw [decide_eq_true_iff, Bool.toNat_true]; omega

theorem exec_accumulator {i : Instr} {s : State} {op : RmwOp}
    (hi : exec i s = outcome (modifyShift s (rmwFunction op) .acc)) : exec i s = .next (s.shifted op) :=
  hi.trans (congrArg outcome (modifyShift_acc_eq s op))

/-- Settles O34: the four differ in the operation alone, and N after LSR and ROR is bit 7 of their result. -/
theorem accumulatorShifts : Obligations.AccumulatorShifts := by
  refine fun s => ⟨
    ⟨_, exec_accumulator (op := .asl) rfl, rfl, shifted_carry s _, ?asl, shifted_zero s _, shifted_frame s _⟩,
    ⟨_, exec_accumulator (op := .lsr) rfl, rfl, shifted_carry s _, ?lsr, shifted_zero s _, shifted_frame s _⟩,
    ⟨_, exec_accumulator (op := .rol) rfl, rfl, shifted_carry s _, ?rol, shifted_zero s _, shifted_frame s _⟩,
    ⟨_, exec_accumulator (op := .ror) rfl, rfl, shifted_carry s _, ?ror, shifted_zero s _, shifted_frame s _⟩⟩
  case asl => exact shifted_negative s .asl
  case lsr => exact (shifted_negative s .lsr).trans (rmwResult_lsr_bit7 s.a (s.flag .c))
  case rol => exact shifted_negative s .rol
  case ror => exact (shifted_negative s .ror).trans (rmwResult_ror_bit7 s.a (s.flag .c))

/-! ## One store to ordinary memory -/

/-- A world left as it was differs at no address, so at most at any given ones. -/
theorem OnlyStored.refl (s : State) (stored : List Word) : OnlyStored s stored s.world :=
  ⟨⟨fun _ _ => rfl, fun _ _ _ => rfl, fun _ => rfl, rfl, rfl, rfl⟩, fun _ => rfl⟩

/-- A store to ordinary memory answers, and changes at most the byte behind its address (R67). -/
theorem memWrite_of_ordinary {s : State} {a : Word} (v : Byte) (h : Ordinary s a) :
    ∃ w, memWrite s a v = .ok (s.setWorld w) ∧ OnlyStored s [a] w := by
  obtain hw | hd := writable_or_discards s a h
  · obtain ⟨w, ht, -, honly⟩ := memWrite_onlyStored v hw
    exact ⟨w, ht, honly⟩
  · exact ⟨s.world, memWrite_of_discards s a v hd, .refl s [a]⟩

/-- Plain memory shows the byte stored last (R67). -/
theorem peek_of_memWrite_writable {s t : State} {a : Word} {v : Byte} (h : memWrite s a v = .ok t)
    (hw : Writable s a) : t.peek a = some v := by
  obtain ⟨w, ht, hst⟩ := memWrite_storedAt v hw
  obtain rfl := Except.ok.inj (ht.symm.trans h)
  exact (hst.shows a).trans (if_pos rfl)

theorem eq_of_memWrite_discards {s t : State} {a : Word} {v : Byte} (h : memWrite s a v = .ok t)
    (hd : Discards s a) : t = s :=
  Except.ok.inj (h.symm.trans (memWrite_of_discards s a v hd))

/-- A store does not look at the status byte. -/
theorem memWrite_setP {s t : State} {a : Word} {v : Byte} (h : memWrite s a v = .ok t) (p : Byte) :
    memWrite (s.setP p) a v = .ok (t.setP p) := by
  obtain ⟨w, hw, rfl⟩ := (memWrite_world_iff s a v t).mp h
  exact (memWrite_world_iff _ _ _ _).mpr ⟨w, hw, rfl⟩

/-! ## Memory -/

theorem exec_rmwInstr (op : RmwOp) (m : MemOperand) (s : State) :
    exec (rmwInstr m op) s = outcome (modifyMem s m (rmwFunction op)) := by
  cases op <;> rfl

/-- The memory form is one load, and one store of the result with the new status byte (R260), which looks at the flags
as they were before the instruction. -/
theorem exec_rmwInstr_of_accesses {op : RmwOp} {m : MemOperand} {s s1 s2 t : State} {e : EffAddr} {v : Byte}
    (he : effAddr s m = .ok (e, s1)) (hr : memRead s1 e.addr = .ok (v, s2))
    (hw : memWrite (s2.setP (rmwStatus s.p v op)) e.addr (rmwResult v (s.flag .c) op) = .ok t) :
    exec (rmwInstr m op) s = .next t := by
  have hp : s2.p = s.p := by
    obtain ⟨w1, rfl⟩ := effAddr_world s m e s1 he
    obtain ⟨w2, rfl⟩ := memRead_world hr
    rfl
  rw [exec_rmwInstr, outcome_next_iff, modifyMem_ok_iff]
  refine ⟨e, s1, v, s2, he, hr, ?_⟩
  rw [rmwFunction_eq, hp]
  exact hw

/-- Settles O35: on ordinary memory the load changes nothing, so the store and the status byte are all there is. -/
theorem readModifyWriteMemory : Obligations.ReadModifyWriteMemory := by
  refine fun op m s s1 e v he => ⟨fun s2 t hr hw => exec_rmwInstr_of_accesses he hr hw, fun hv => ?_⟩
  have hord : Ordinary s1 e.addr := by rw [Ordinary, hv]; rfl
  obtain ⟨w, hw, honly⟩ := memWrite_of_ordinary (rmwResult v (s.flag .c) op) hord
  have hexec := exec_rmwInstr_of_accesses he (memRead_of_peek s1 e.addr v hv) (memWrite_setP hw (rmwStatus s.p v op))
  have hflag := getFlag_rmwStatus s.p v op
  have hplain := peek_of_memWrite_writable hw
  have hreadonly : Discards s1 e.addr → (s1.setWorld w).peek e.addr = some v := fun hd =>
    (congrArg (State.peek · e.addr) (eq_of_memWrite_discards hw hd)).trans hv
  obtain ⟨w1, rfl⟩ := effAddr_world s m e s1 he
  exact ⟨_, hexec, hplain, hreadonly, hflag .c, hflag .n, hflag .z, cpuKept_setP_rmwStatus honly.cpuKept v op, rfl,
    rfl, memKept_congr honly.memory rfl rfl rfl rfl⟩

/-! ## The index registers -/

theorem sub_one_toNat (b : Byte) : (b - 1#8).toNat = (b.toNat + 255) % 256 := by
  rw [sub_one_eq_ofNat, BitVec.toNat_ofNat]

/-- A register takes the byte `v` of number `n`, and N and Z say what it is. -/
theorem setReg_setNZ_toNat (s : State) (r : Reg) {v : Byte} {n : Nat} (hv : v.toNat = n) :
    (regOf ((s.setReg v r).setNZ v) r).toNat = n ∧
      ((s.setReg v r).setNZ v).flag .n = (regOf ((s.setReg v r).setNZ v) r).getLsbD 7 ∧
      ((s.setReg v r).setNZ v).flag .z = decide (regOf ((s.setReg v r).setNZ v) r = 0#8) ∧
      RegisterFrame s ((s.setReg v r).setNZ v) [r] [.n, .z] := by
  obtain ⟨hreg, hflags⟩ := setReg_setNZ s v r
  rw [hreg]
  exact ⟨hv, hflags⟩

/-- Settles O36: each is a register write and `SetNZ` of a sum or difference modulo 256. -/
theorem indexRegisterSteps : Obligations.IndexRegisterSteps :=
  fun s => ⟨⟨_, rfl, setReg_setNZ_toNat s .x (BitVec.toNat_add s.x 1#8)⟩,
    ⟨_, rfl, setReg_setNZ_toNat s .y (BitVec.toNat_add s.y 1#8)⟩,
    ⟨_, rfl, setReg_setNZ_toNat s .x (sub_one_toNat s.x)⟩,
    ⟨_, rfl, setReg_setNZ_toNat s .y (sub_one_toNat s.y)⟩⟩

end Sys2Proof.Machine
end

section
/-! PROOFS. O40: the instructions that write one flag (R280, R281, R285 to R289). -/

namespace Sys2Proof.Machine

open Sys2Proof.Safety

/-- Writing a flag alters that flag alone. -/
theorem setFlag_frame (s : State) (f : Flag) (v : Bool) : RegisterFrame s (s.setFlag f v) [] [f] :=
  setP_frame (p := putFlag s.p f v)
    (fun g hg => (getFlag_putFlag s.p f g v).trans (if_neg (mt List.mem_singleton.mpr hg))) (putFlag_bit5 s.p f v)

/-- An instruction whose meaning is one flag write completes with that flag set as given, and the frame of the write. -/
theorem flagWrite_result {i : Instr} {s : State} {f : Flag} {v : Bool} (hi : exec i s = .next (s.setFlag f v)) :
    ∃ t, exec i s = .next t ∧ t.flag f = v ∧ RegisterFrame s t [] [f] :=
  ⟨_, hi, (getFlag_putFlag s.p f f v).trans (if_pos rfl), setFlag_frame s f v⟩

/-- Settles O40: each of the seven is one flag write. -/
theorem flagInstructions : Obligations.FlagInstructions :=
  fun _ => ⟨flagWrite_result rfl, flagWrite_result rfl, flagWrite_result rfl, flagWrite_result rfl,
    flagWrite_result rfl, flagWrite_result rfl, flagWrite_result rfl⟩

end Sys2Proof.Machine
end

section
/-! PROOFS. O48: NOP and the undefined instruction (R332, R333). -/

namespace Sys2Proof.Machine

/-- NOP has no operation (R332). -/
@[simp] theorem exec_nop (s : State) : exec .nop s = .next s := rfl

/-- The undefined instruction has no data effect, whatever bytes its fetch consumed (R333, D12). -/
@[simp] theorem exec_undef (s : State) (op : Byte) (params : List Byte) : exec (.undef op params) s = .next s := rfl

/-- Settles O48: neither instruction has an operation. -/
theorem nopAndUndefinedDoNothing : Obligations.NopAndUndefinedDoNothing :=
  fun s op params => ⟨exec_nop s, exec_undef s op params⟩

end Sys2Proof.Machine
end

section
/-! PROOFS. O51: the poll by priority, and requests (R352 to R357). -/

namespace Sys2Proof.Machine

open Sys2Proof.Safety

/-! ## Eligibility (R355) -/

/-- The cycle-count part of the predicate at its value of R9. -/
theorem inTime_of_always {s : State} (h : s.plat.params.intTime = .always) (l : Line) : inTime s l = true := by
  rw [inTime, h]

theorem eligible_nmi (s : State) : eligible s .nmi = (s.world.nmiReq && inTime s .nmi) := by
  simp [eligible, World.requested]

theorem eligible_irq (s : State) : eligible s .irq = (s.world.irqReq && !s.flag .i && inTime s .irq) := rfl

/-! ## The poll (R357) -/

theorem pollInterrupts_of_nmi_eligible {s : State} (hn : eligible s .nmi = true) : pollInterrupts s = service s .nmi :=
  if_pos hn

theorem pollInterrupts_of_irq_eligible {s : State} (hn : eligible s .nmi = false) (hi : eligible s .irq = true) :
    pollInterrupts s = service s .irq := by
  rw [pollInterrupts, hn, hi]; rfl

theorem pollInterrupts_of_none_eligible {s : State} (hn : eligible s .nmi = false) (hi : eligible s .irq = false) :
    pollInterrupts s = .ok s := by
  rw [pollInterrupts, hn, hi]; rfl

/-! ## Requests (R352) -/

theorem setRequest_setRequest (w : World) (l : Line) (b : Bool) :
    (w.setRequest l b).setRequest l b = w.setRequest l b := by
  cases l <;> rfl

theorem requested_requestInterrupt (s : State) (l l' : Line) :
    (requestInterrupt s l).world.requested l' = if l' = l then true else s.world.requested l' :=
  requested_setRequest s.world l l' true

theorem requestInterrupt_requestInterrupt (s : State) (l : Line) :
    requestInterrupt (requestInterrupt s l) l = requestInterrupt s l :=
  congrArg s.setWorld (setRequest_setRequest s.world l true)

/-- Settles O51: each case of the poll says which lines are eligible; a request writes one latch. -/
theorem pollServesByPriority : Obligations.PollServesByPriority := by
  intro s
  have nmi_idle (hn : s.world.nmiReq = false) : eligible s .nmi = false := by rw [eligible_nmi, hn, Bool.false_and]
  refine ⟨fun ht hn => pollInterrupts_of_nmi_eligible ?_,
    fun ht hn hi hmask => pollInterrupts_of_irq_eligible (nmi_idle hn) ?_,
    fun hn hi hmask => pollInterrupts_of_none_eligible (nmi_idle hn) ?_,
    fun hn hi => pollInterrupts_of_none_eligible (nmi_idle hn) ?_,
    fun l => ⟨(requested_requestInterrupt s l l).trans (if_pos rfl),
      fun l' hl' => (requested_requestInterrupt s l l').trans (if_neg hl'), sameCpu_setWorld s _,
      memKept_setRequest s l true, requestInterrupt_requestInterrupt s l⟩⟩
  case refine_1 => rw [eligible_nmi, hn, inTime_of_always ht, Bool.true_and]
  case refine_2 => simp [eligible_irq, hi, hmask, inTime_of_always ht]
  case refine_3 => simp [eligible_irq, hmask]
  case refine_4 => simp [eligible_irq, hi]

end Sys2Proof.Machine
end
